-- ==== Sys2Proof/Word.lean ====
section
/-!
DEFINITION. The word types of the block: the 32-bit bus word, the byte, and bit sequences
(00_scope.md R8, R10, R11).  Element 0 of a bit sequence is its first bit in time.
-/

namespace Sys2Proof

/-- A 32-bit bus word: a command word, or the contents of a register (00_scope.md R8). -/
abbrev Word := BitVec 32

/-- One byte; also a Symbol of the alphabet, 0 to 255 (00_scope.md R7). -/
abbrev Byte := BitVec 8

/-- A bit sequence: element 0 comes first in time and in stream order (00_scope.md R11). -/
abbrev Bits := List Bool

end Sys2Proof
end

