-- ==== Sys2Proof/Syntax.lean ====
section
/-!
DEFINITION. The commands of HUF-CMD version 1: one constructor per row of the opcode map
(30_encoding.md R73), in the map's order.  A command with an operand carries its ARG byte (R72).
-/

namespace Sys2Proof

/-- The 22 commands (30_encoding.md R73). -/
inductive Instr where
  /-- NOP (40_control.md R87). -/
  | nop
  /-- SOFT_RESET (40_control.md R88). -/
  | softReset
  /-- CLR_ERR (40_control.md R89). -/
  | clrErr
  /-- XFER (40_control.md R90). -/
  | xfer
  /-- FC_CLEAR (41_frequency_counter.md R93). -/
  | fcClear
  /-- FC_PUSH b: the ARG byte is the symbol (41_frequency_counter.md R94). -/
  | fcPush (b : Byte)
  /-- FC_SCAN (41_frequency_counter.md R95). -/
  | fcScan
  /-- TB_BUILD (42_tree_builder.md R99). -/
  | tbBuild
  /-- CT_DERIVE (43_code_table_deriver.md R105). -/
  | ctDerive
  /-- ENC_BEGIN (44_bitstream_encoder.md R110). -/
  | encBegin
  /-- ENC_PUSH b: the ARG byte is the symbol (44_bitstream_encoder.md R111). -/
  | encPush (b : Byte)
  /-- ENC_SCAN (44_bitstream_encoder.md R112). -/
  | encScan
  /-- TS_SERIALIZE (46_tree_serializer.md R124). -/
  | tsSerialize
  /-- TS_DESERIALIZE (46_tree_serializer.md R126). -/
  | tsDeserialize
  /-- DEC_BEGIN (45_bitstream_decoder.md R117). -/
  | decBegin
  /-- DEC_BIT v: bit 0 of the ARG byte is the bit, bits 7:1 must be 0 (45_bitstream_decoder.md R118,
  30_encoding.md R72). -/
  | decBit (arg : Byte)
  /-- DEC_END (45_bitstream_decoder.md R119). -/
  | decEnd
  /-- DEC_RUN (45_bitstream_decoder.md R120). -/
  | decRun
  /-- PACK (47_container.md R129). -/
  | pack
  /-- UNPACK (47_container.md R130). -/
  | unpack
  /-- COMPRESS (47_container.md R131). -/
  | compress
  /-- DECOMPRESS (47_container.md R132). -/
  | decompress
deriving DecidableEq, Repr

end Sys2Proof
end

