-- ==== Sys2Proof/WellFormed.lean ====
section
/-!
DEFINITION. Which commands have an encoding.  The only condition is that of the `bit` operand kind:
ARG[7:1] of DEC_BIT must be 0 (30_encoding.md R72).
-/

namespace Sys2Proof

/-- The operand of `i` is one its ARG kind admits (30_encoding.md R72). -/
def Instr.wellFormed : Instr → Bool
  | .decBit arg => decide (arg.toNat < 2)
  | .nop | .softReset | .clrErr | .xfer | .fcClear | .fcPush _ | .fcScan | .tbBuild | .ctDerive
  | .encBegin | .encPush _ | .encScan | .tsSerialize | .tsDeserialize | .decBegin | .decEnd
  | .decRun | .pack | .unpack | .compress | .decompress => true

end Sys2Proof
end

