-- ==== Sys2Proof/Decode.lean ====
section
/-!
DEFINITION. The command word (30_encoding.md R71 to R75): its fields, the opcode map as a table of
match and mask, the decoder, and the encoder written from the same map.
-/

namespace Sys2Proof

/-- OP, bits 7:0 of a command word (30_encoding.md R71). -/
def opField (w : Word) : Byte := w.extractLsb' 0 8

/-- ARG, bits 15:8 of a command word (30_encoding.md R71). -/
def argField (w : Word) : Byte := w.extractLsb' 8 8

/-- RSV, bits 31:16 of a command word, reserved and 0 (30_encoding.md R71). -/
def rsvField (w : Word) : BitVec 16 := w.extractLsb' 16 16

/-- One row of the opcode map: `w` selects the row when `w & mask = pattern` (30_encoding.md R73). -/
structure OpRow where
  mnemonic : String
  pattern : Word
  mask : Word
  build : Byte → Instr

/-- The rows of the opcode map for the control commands and the frequency counter. -/
def opRowsA : List OpRow := [
  ⟨"NOP",        0x00000000#32, 0xFFFFFFFF#32, fun _ => .nop⟩,
  ⟨"SOFT_RESET", 0x00000001#32, 0xFFFFFFFF#32, fun _ => .softReset⟩,
  ⟨"CLR_ERR",    0x00000002#32, 0xFFFFFFFF#32, fun _ => .clrErr⟩,
  ⟨"XFER",       0x00000003#32, 0xFFFFFFFF#32, fun _ => .xfer⟩,
  ⟨"FC_CLEAR",   0x00000010#32, 0xFFFFFFFF#32, fun _ => .fcClear⟩,
  ⟨"FC_PUSH",    0x00000011#32, 0xFFFF00FF#32, fun arg => .fcPush arg⟩,
  ⟨"FC_SCAN",    0x00000012#32, 0xFFFFFFFF#32, fun _ => .fcScan⟩,
  ⟨"TB_BUILD",   0x00000020#32, 0xFFFFFFFF#32, fun _ => .tbBuild⟩,
  ⟨"CT_DERIVE",  0x00000030#32, 0xFFFFFFFF#32, fun _ => .ctDerive⟩]

/-- The rows of the opcode map for the encoder, the serializer and the decoder. -/
def opRowsB : List OpRow := [
  ⟨"ENC_BEGIN",      0x00000040#32, 0xFFFFFFFF#32, fun _ => .encBegin⟩,
  ⟨"ENC_PUSH",       0x00000041#32, 0xFFFF00FF#32, fun arg => .encPush arg⟩,
  ⟨"ENC_SCAN",       0x00000042#32, 0xFFFFFFFF#32, fun _ => .encScan⟩,
  ⟨"TS_SERIALIZE",   0x00000050#32, 0xFFFFFFFF#32, fun _ => .tsSerialize⟩,
  ⟨"TS_DESERIALIZE", 0x00000051#32, 0xFFFFFFFF#32, fun _ => .tsDeserialize⟩,
  ⟨"DEC_BEGIN",      0x00000060#32, 0xFFFFFFFF#32, fun _ => .decBegin⟩,
  ⟨"DEC_BIT",        0x00000061#32, 0xFFFFFEFF#32, fun arg => .decBit arg⟩,
  ⟨"DEC_END",        0x00000062#32, 0xFFFFFFFF#32, fun _ => .decEnd⟩,
  ⟨"DEC_RUN",        0x00000063#32, 0xFFFFFFFF#32, fun _ => .decRun⟩]

/-- The rows of the opcode map for the container and the top-level operations. -/
def opRowsC : List OpRow := [
  ⟨"PACK",       0x00000070#32, 0xFFFFFFFF#32, fun _ => .pack⟩,
  ⟨"UNPACK",     0x00000071#32, 0xFFFFFFFF#32, fun _ => .unpack⟩,
  ⟨"COMPRESS",   0x00000072#32, 0xFFFFFFFF#32, fun _ => .compress⟩,
  ⟨"DECOMPRESS", 0x00000073#32, 0xFFFFFFFF#32, fun _ => .decompress⟩]

/-- The opcode map (30_encoding.md R73). -/
def opRows : List OpRow := opRowsA ++ opRowsB ++ opRowsC

/-- `w` selects the row `r`. -/
def OpRow.selects (r : OpRow) (w : Word) : Bool := w &&& r.mask == r.pattern

/-- Why a word is illegal: the four cases of 30_encoding.md R74. -/
inductive DecodeError where
  /-- RSV is not 0. -/
  | reservedNotZero
  /-- OP is not in the map. -/
  | unknownOpcode
  /-- ARG is not 0 for an opcode whose ARG kind is `none`. -/
  | argNotZero
  /-- ARG[7:1] is not 0 for DEC_BIT. -/
  | argNotBit
deriving DecidableEq, Repr

/-- The name of the rejection of a word that selects no row (30_encoding.md R74). -/
def rejection (w : Word) : DecodeError :=
  if rsvField w ≠ 0 then .reservedNotZero
  else if opRows.any (fun r => opField r.pattern == opField w) then
    if opField w = 0x61#8 then .argNotBit else .argNotZero
  else .unknownOpcode

/-- The decoder: total on every word, from the written word alone (30_encoding.md R73 to R75,
20_memory.md R69). -/
def decode (w : Word) : Except DecodeError Instr :=
  match opRows.find? (fun r => r.selects w) with
  | some r => .ok (r.build (argField w))
  | none => .error (rejection w)

/-- The opcode of a command (30_encoding.md R73, column OP). -/
def Instr.opcode : Instr → Byte
  | .nop => 0x00#8
  | .softReset => 0x01#8
  | .clrErr => 0x02#8
  | .xfer => 0x03#8
  | .fcClear => 0x10#8
  | .fcPush _ => 0x11#8
  | .fcScan => 0x12#8
  | .tbBuild => 0x20#8
  | .ctDerive => 0x30#8
  | .encBegin => 0x40#8
  | .encPush _ => 0x41#8
  | .encScan => 0x42#8
  | .tsSerialize => 0x50#8
  | .tsDeserialize => 0x51#8
  | .decBegin => 0x60#8
  | .decBit _ => 0x61#8
  | .decEnd => 0x62#8
  | .decRun => 0x63#8
  | .pack => 0x70#8
  | .unpack => 0x71#8
  | .compress => 0x72#8
  | .decompress => 0x73#8

/-- The ARG byte of a command: 0 for the ARG kind `none` (30_encoding.md R72). -/
def Instr.arg : Instr → Byte
  | .fcPush b => b
  | .encPush b => b
  | .decBit arg => arg
  | .nop | .softReset | .clrErr | .xfer | .fcClear | .fcScan | .tbBuild | .ctDerive | .encBegin
  | .encScan | .tsSerialize | .tsDeserialize | .decBegin | .decEnd | .decRun | .pack | .unpack
  | .compress | .decompress => 0#8

/-- The encoder: OP in bits 7:0, ARG in bits 15:8, RSV 0 (30_encoding.md R71). -/
def encode (i : Instr) : Word := (0#16 ++ i.arg) ++ i.opcode

/-- The command read from a word given as the opcode table numbers its bits.  A command is one
32-bit word (30_encoding.md R75), so bits above `nbits` are 0 and a longer word is no command. -/
def decodeTableWord (nbits w : Nat) : Option Instr :=
  if w % 2 ^ nbits < 2 ^ 32 then
    match decode (BitVec.ofNat 32 (w % 2 ^ nbits)) with
    | .ok i => some i
    | .error _ => none
  else none

end Sys2Proof
end

