-- ==== Sys2Proof/Config.lean ====
section
/-!
DEFINITION. What the spec leaves open.  The capacities `State.reset` starts from, and the FREE
VALUES: what the spec calls `any` (00_scope.md R12, 93_implementation_defined.md I3 to I7, I10).
A free value is an opaque constant without a body, so no proof can see what it is.  The first
argument of the array ones is a GENERATION: the contents of an array are drawn anew under a new
generation number at hardware reset and after the failing commands whose "On error" entry says the
array becomes `any`.  See notes/assumptions/1.md and notes/assumptions/2.md.
-/

namespace Sys2Proof

/-- IBUF_BYTES at `State.reset`.  DESIGN CHOICE: an OPEN parameter (00_scope.md R9); 4096 is the
value that rule gives for every example.  The capacity itself is a field of `State`. -/
def Config.ibufBytes : Nat := 4096

/-- OBUF_BYTES at `State.reset`; see `Config.ibufBytes`. -/
def Config.obufBytes : Nat := 4096

/-- CBUF_BITS at `State.reset`; see `Config.ibufBytes`. -/
def Config.cbufBits : Nat := 32768

/-- The value of a bus read that the spec calls `any` (20_memory.md R53, R54, R58, R59), and of PEND
after a reset (10_state.md R47), drawn by the counter of `State`. -/
opaque Config.freeWord : Nat → Word

/-- The byte at an index of IBUF or OBUF that nothing has written, by generation and index. -/
opaque Config.freeByte : Nat → Nat → Byte

/-- The bit at an index of HDR or CBUF that nothing has written, by generation and index. -/
opaque Config.freeBit : Nat → Nat → Bool

/-- The fields KIND, RIGHT, LEFT, SYM of a NODE entry that nothing has written, laid out as word 0
of the NODE window (20_memory.md R53). -/
opaque Config.freeNodeWord : Nat → Nat → Word

/-- The WEIGHT of a NODE entry that nothing has written. -/
opaque Config.freeWeight : Nat → Nat → Word

/-- The CODE_LEN of a symbol, where nothing has written it. -/
opaque Config.freeLen : Nat → Nat → Byte

/-- The CODE_BITS of a symbol, where nothing has written it. -/
opaque Config.freeCode : Nat → Nat → Bits

end Sys2Proof
end

