-- ==== Sys2Proof/Machine/State.lean ====
section
/-!
DEFINITION. The state of the block (10_state.md R16 to R47) as plain data, with the data the model
adds for the host and for free values; the reasons a step can stop; the error kinds; reset.
-/

namespace Sys2Proof.Machine

/-- The KIND of a node: LEAF is 1, INTERNAL is 0 (10_state.md R37). -/
inductive NodeKind where
  | internal
  | leaf
deriving DecidableEq, Repr

/-- An entry of the node arena NODE (10_state.md R37): SYM 8 bits, WEIGHT 32 bits, LEFT and RIGHT
9 bits each.  Counts and indices are natural numbers, because no operation wraps (00_scope.md R13). -/
structure Node where
  kind : NodeKind
  sym : Byte
  weight : Nat
  left : Nat
  right : Nat
deriving DecidableEq, Repr

/-- An array of the block: the elements written so far, by index, in rising order without repeats,
and the generation under which every other element holds a free value (10_state.md R42, R47,
93_implementation_defined.md I4, I6, I7; notes/assumptions/1.md). -/
structure Buf (α : Type) where
  gen : Nat
  cells : List (Nat × α)
deriving DecidableEq, Repr

/-- One turn of the interleaving of the two agents (20_memory.md R66): a bus access of the host
(R48), an assertion of the reset input (70_reset_and_hazards.md R157), or the engine's turn
(40_control.md R83).  Offsets and widths are arbitrary, so that inadmissible ones can be refused. -/
inductive Event where
  /-- `BusRead(off, n)`. -/
  | busRead (off n : Nat)
  /-- `BusWrite(off, n, v)`; of `v` the low `8·n` bits count. -/
  | busWrite (off n : Nat) (v : Word)
  /-- The host asserts the reset input. -/
  | reset
  /-- The engine takes its step if it is enabled. -/
  | engine
  /-- A poll of a WAIT: `RD STATUS`, which ends the WAIT where bit 0 of the value read is 0
  (30_encoding.md R77); else `n` more polls fall before the engine's next turn. -/
  | poll (n : Nat)
deriving DecidableEq, Repr

/-- The errors a command can raise (60_exceptions.md R136).  IO_FAILURE (0x03) is reserved and never
raised (R140), so it is no error kind. -/
inductive ErrKind where
  /-- CORRUPT_HEADER, 0x01 (R138). -/
  | corruptHeader
  /-- TRUNCATED_CONTENT, 0x02 (R139). -/
  | truncatedContent
  /-- INVARIANT, 0x04 (R141). -/
  | invariant
  /-- SEQUENCE, 0x05 (R142). -/
  | sequence
  /-- LIMIT, 0x06 (R143). -/
  | limit
  /-- ILLEGAL_CMD, 0x07 (R144). -/
  | illegalCmd
deriving DecidableEq, Repr

/-- Stuck states.  The spec has no faults of its own (60_exceptions.md R148: an error is a defined
outcome, not a model fault).  Each of these stands where a command's pseudocode gives no result at
all, and none can arise in a state that meets the invariants of 10_state.md R46. -/
inductive Fault where
  /-- Raised by CT_DERIVE and TS_SERIALIZE (and the same bodies in COMPRESS) when the walk from
  ROOT does not end, because NODE is no finite tree (43_code_table_deriver.md R104,
  46_tree_serializer.md R122).  Safe: the model stops, and R46 item 4 excludes it. -/
  | endlessWalk
  /-- Raised by TS_SERIALIZE when the header is longer than HDR, which has 2559 bits
  (20_memory.md R64).  Safe: the model stops, and R46 item 4 excludes it. -/
  | headerOverrun
  /-- Raised by TB_BUILD when TOTAL is not 0 and no count is, so that the priority structure has
  no element (42_tree_builder.md R99).  Safe: the model stops, and R46 item 1 excludes it. -/
  | noRoot
deriving DecidableEq, Repr

/-- Refusals. -/
inductive Refusal where
  /-- Raised by `exec` for an instruction that has no meaning yet; none is left.  Safe. -/
  | notModelled (mnemonic : String)
  /-- Raised by a bus access that 20_memory.md R62 does not admit: a byte access to a word region, a
  word access to a byte region, a misaligned word access, a width other than 1 or 4, an offset of
  2^26 or more.  Safe: the spec gives it no meaning and says the model refuses it. -/
  | inadmissibleAccess (off n : Nat)
deriving DecidableEq, Repr

/-- The state: every element of 10_state.md, and below it the model's own fields. -/
structure State where
  /-- The parameter IBUF_BYTES, read as CAP_IBUF (00_scope.md R9, 10_state.md R34). -/
  ibufBytes : Nat
  /-- The parameter OBUF_BYTES, read as CAP_OBUF. -/
  obufBytes : Nat
  /-- The parameter CBUF_BITS, read as CAP_CBUF. -/
  cbufBits : Nat
  /-- PEND, the accepted command word (R21).  While BUSY = 0 it may hold any value
  (93_implementation_defined.md I10); that it then keeps the word last accepted is the model's choice
  (notes/assumptions/5.md). -/
  pend : Word
  /-- STATUS.BUSY (R22). -/
  busy : Bool
  /-- STATUS.DONE (R22). -/
  done : Bool
  /-- STATUS.OVR (R22, 60_exceptions.md R145). -/
  ovr : Bool
  /-- ERRCODE.ERR_CODE, 8 bits (R23). -/
  errCode : Byte
  /-- ERRCODE.ERR_OP, 8 bits (R23). -/
  errOp : Byte
  /-- IRQ_EN.DONE_IE (R24). -/
  doneIe : Bool
  /-- IRQ_EN.ERR_IE (R24). -/
  errIe : Bool
  /-- IN_LEN (R25). -/
  inLen : Nat
  /-- OUT_LEN (R26). -/
  outLen : Nat
  /-- TOTAL, 32 bits (R27). -/
  total : Nat
  /-- NSYM, 9 bits (R28). -/
  nsym : Nat
  /-- ROOT, 9 bits (R29). -/
  root : Nat
  /-- NNODES, 10 bits (R30). -/
  nnodes : Nat
  /-- HBITS, 12 bits (R31). -/
  hbits : Nat
  /-- CBITS, 32 bits (R32). -/
  cbits : Nat
  /-- DEC_CUR, 9 bits (R33). -/
  decCur : Nat
  /-- FT_LOCK (R35). -/
  ftLock : Bool
  /-- TREE_VALID (R35). -/
  treeValid : Bool
  /-- CT_VALID (R35). -/
  ctValid : Bool
  /-- FREQ[0..255], 32 bits each (R36): the symbols with a count, in rising order.  An absent
  symbol's count is 0, and no count of 0 is stored (R36, 90_conflicts.md C12). -/
  freq : List (Nat × Nat)
  /-- NODE[0..510] (R37). -/
  node : Buf Node
  /-- CODE_LEN[0..255], 8 bits each (R39). -/
  codeLen : Buf Nat
  /-- CODE_BITS[0..255], a bit sequence of up to 255 bits each (R39). -/
  codeBits : Buf Bits
  /-- HDR[0..2558], one bit each (R40). -/
  hdr : Buf Bool
  /-- CBUF[0..CBUF_BITS-1], one bit each (R41). -/
  cbuf : Buf Bool
  /-- IBUF[0..IBUF_BYTES-1] (R42). -/
  ibuf : Buf Byte
  /-- OBUF[0..OBUF_BYTES-1] (R43). -/
  obuf : Buf Byte
  /-- MODEL: the number of free values drawn so far (notes/assumptions/1.md). -/
  freeCtr : Nat
  /-- MODEL: the turns the host and the engine still take, the next one first
  (notes/assumptions/3.md). -/
  agenda : List Event
  /-- MODEL: the values the host's reads have returned, the latest first (notes/assumptions/4.md). -/
  reads : List Word
deriving DecidableEq, Repr

/-- The block right after hardware reset (10_state.md R47), for given capacities.  Every register has
the value of R47's table; the arrays hold free values, each under a generation of its own.  PEND,
which R47 leaves unspecified, is 0: DESIGN CHOICE (notes/assumptions/5.md). -/
def State.resetWith (ibufBytes obufBytes cbufBits : Nat) : State where
  ibufBytes := ibufBytes
  obufBytes := obufBytes
  cbufBits := cbufBits
  pend := 0#32
  busy := false
  done := false
  ovr := false
  errCode := 0#8
  errOp := 0#8
  doneIe := false
  errIe := false
  inLen := 0
  outLen := 0
  total := 0
  nsym := 0
  root := 0
  nnodes := 0
  hbits := 0
  cbits := 0
  decCur := 0
  ftLock := false
  treeValid := false
  ctValid := false
  freq := []
  node := ⟨0, []⟩
  codeLen := ⟨1, []⟩
  codeBits := ⟨2, []⟩
  hdr := ⟨3, []⟩
  cbuf := ⟨4, []⟩
  ibuf := ⟨5, []⟩
  obuf := ⟨6, []⟩
  freeCtr := 7
  agenda := []
  reads := []

/-- The machine right after reset, at the capacities of `Config` (notes/assumptions/2.md), with no
turn of the host pending. -/
def State.reset : State :=
  State.resetWith Config.ibufBytes Config.obufBytes Config.cbufBits

end Sys2Proof.Machine
end

