-- ==== Sys2Proof/Machine/Operands.lean ====
section
/-!
DEFINITION. Operand and data forms: the DEC_BIT operand, bit sequences and bytes, packing and
unpacking, big-endian container fields, and the words of the windows.
-/

namespace Sys2Proof.Machine

/-- The bit operand of DEC_BIT: ARG[0] (30_encoding.md R72). -/
def argBit (arg : Byte) : Bool := arg.getLsbD 0

/-- `ceil8(n)`, the number of bytes that hold `n` bits (00_scope.md R11). -/
def ceil8 (n : Nat) : Nat := (n + 7) / 8

/-- `bits8(x)`: the bits of byte `x`, most significant first (00_scope.md R11). -/
def bits8 (x : Byte) : Bits :=
  [x.getLsbD 7, x.getLsbD 6, x.getLsbD 5, x.getLsbD 4,
   x.getLsbD 3, x.getLsbD 2, x.getLsbD 1, x.getLsbD 0]

/-- The number whose binary digits are `s`, most significant first. -/
def natOfBits (s : Bits) : Nat := s.foldl (fun acc b => 2 * acc + b.toNat) 0

/-- The number whose base-256 digits are `bs`, most significant first: the big-endian fields H and N
of the container (20_memory.md R61, 30_encoding.md R80). -/
def natOfBytes (bs : List Byte) : Nat := bs.foldl (fun acc b => 256 * acc + b.toNat) 0

/-- Byte `k` of `pack(s)`: the bits `8·k` to `8·k + 7` of `s`, most significant first, 0 beyond the
end of `s` (30_encoding.md R78). -/
def packByte (s : Bits) (k : Nat) : Byte :=
  BitVec.ofNat 8 (natOfBits ((List.range 8).map fun i => s.getD (8 * k + i) false))

/-- `pack(s)`: `ceil8(len(s))` bytes (30_encoding.md R78). -/
def packBits (s : Bits) : List Byte := (List.range (ceil8 s.length)).map (packByte s)

/-- `unpack(bytes, n)`: the first `n` bits of `bytes`, ignoring the pad bits (30_encoding.md R78). -/
def unpackBits (bytes : List Byte) (n : Nat) : Bits := (bytes.flatMap bits8).take n

/-- The 16-bit field H, most significant byte first (30_encoding.md R80, 47_container.md R129). -/
def bytes16 (n : Nat) : List Byte := [BitVec.ofNat 8 (n / 256), BitVec.ofNat 8 n]

/-- The 32-bit field N, most significant byte first (30_encoding.md R80, 47_container.md R129). -/
def bytes32 (n : Nat) : List Byte :=
  [BitVec.ofNat 8 (n / 16777216), BitVec.ofNat 8 (n / 65536), BitVec.ofNat 8 (n / 256),
   BitVec.ofNat 8 n]

/-- The word of a bit-vector window: stream bit `i` of the word at word bit `31 - i`
(20_memory.md R54 to R56). -/
def windowWord (bit : Nat → Bool) : Word := BitVec.ofNat 32 (natOfBits ((List.range 32).map bit))

/-- The word 0 of a node: `KIND << 31 | RIGHT << 17 | LEFT << 8 | SYM`, RIGHT and LEFT 9 bits wide
(20_memory.md R53). -/
def nodeWord (n : Node) : Word :=
  (if n.kind = .leaf then 0x80000000#32 else 0#32) ||| ((BitVec.ofNat 9 n.right).setWidth 32 <<< 17)
    ||| ((BitVec.ofNat 9 n.left).setWidth 32 <<< 8) ||| n.sym.setWidth 32

/-- The code of an error (60_exceptions.md R136). -/
def errCodeOf : ErrKind → Byte
  | .corruptHeader => 0x01#8
  | .truncatedContent => 0x02#8
  | .invariant => 0x04#8
  | .sequence => 0x05#8
  | .limit => 0x06#8
  | .illegalCmd => 0x07#8

end Sys2Proof.Machine
end

