-- ==== Sys2Proof/Machine/Ops.lean ====
section
/-!
DEFINITION. The named operations over arrays and registers; the end of a command, with the error
entry (40_control.md R83 to R85, 60_exceptions.md R148) and the error return beside it (R149);
session_clear (41_frequency_counter.md R91); reset.
-/

namespace Sys2Proof.Machine

/-- How a command's pseudocode stops before its end: it raises an error (00_scope.md R12, `raise E`),
or it gives no result at all. -/
inductive Stop where
  | raise (e : ErrKind)
  | stuck (f : Fault)
deriving DecidableEq, Repr

/-- The outcome of a command's pseudocode: the state it reaches, or how it stops. -/
abbrev Body := Except Stop State

/-! ### Arrays -/

/-- The element listed at index `a`, if one is. -/
def cellGet {α : Type} : List (Nat × α) → Nat → Option α
  | [], _ => none
  | (k, v) :: rest, a => if a = k then some v else cellGet rest a

/-- List `v` at index `a`, keeping the indices rising. -/
def cellSet {α : Type} : List (Nat × α) → Nat → α → List (Nat × α)
  | [], a, v => [(a, v)]
  | (k, w) :: rest, a, v =>
    if a < k then (a, v) :: (k, w) :: rest
    else if a = k then (a, v) :: rest
    else (k, w) :: cellSet rest a v

/-- The canonical form: indices strictly rising and below `cap`. -/
def cellsOk {α : Type} (cap : Nat) (cells : List (Nat × α)) : Bool :=
  decide ((cells.map Prod.fst).Pairwise (· < ·)) && cells.all fun c => decide (c.1 < cap)

/-- Element `a` of an array: the element written there, else the array's free value. -/
def bufGet {α : Type} (free : Nat → Nat → α) (b : Buf α) (a : Nat) : α :=
  match cellGet b.cells a with
  | some v => v
  | none => free b.gen a

/-- `ARR[a] <- v` (00_scope.md R12). -/
def bufSet {α : Type} (b : Buf α) (a : Nat) (v : α) : Buf α := ⟨b.gen, cellSet b.cells a v⟩

/-- `ARR[a] <- vs[0]; ARR[a + 1] <- vs[1]; ...`. -/
def bufWrite {α : Type} (b : Buf α) (a : Nat) : List α → Buf α
  | [] => b
  | v :: vs => bufWrite (bufSet b a v) (a + 1) vs

/-- Every element of an array of `n` elements becomes `v`. -/
def bufFill {α : Type} (b : Buf α) (n : Nat) (v : α) : Buf α :=
  ⟨b.gen, (List.range n).map fun k => (k, v)⟩

/-- `[ARR[a], ..., ARR[a + n - 1]]`. -/
def bufSlice {α : Type} (free : Nat → Nat → α) (b : Buf α) (a n : Nat) : List α :=
  (List.range n).map fun k => bufGet free b (a + k)

/-- The canonical form of an array with `cap` elements. -/
def bufOk {α : Type} (cap : Nat) (b : Buf α) : Bool := cellsOk cap b.cells

/-- An entry of NODE that nothing has written: any value of its fields (10_state.md R37). -/
def freeNode (gen a : Nat) : Node where
  kind := if (Config.freeNodeWord gen a).getLsbD 31 then .leaf else .internal
  sym := (Config.freeNodeWord gen a).extractLsb' 0 8
  weight := (Config.freeWeight gen a).toNat
  left := ((Config.freeNodeWord gen a).extractLsb' 8 9).toNat
  right := ((Config.freeNodeWord gen a).extractLsb' 17 9).toNat

/-- A CODE_LEN that nothing has written: any 8-bit value (10_state.md R39). -/
def freeCodeLen (gen a : Nat) : Nat := (Config.freeLen gen a).toNat

/-- A CODE_BITS that nothing has written: any sequence of up to 255 bits (10_state.md R39). -/
def freeCodeBits (gen a : Nat) : Bits := (Config.freeCode gen a).take 255

/-- `NODE[i]`, in an arena. -/
def arenaAt (nodes : Buf Node) (i : Nat) : Node := bufGet freeNode nodes i

/-- `FREQ[x]` (10_state.md R36). -/
def freqAt (s : State) (x : Nat) : Nat :=
  match cellGet s.freq x with
  | some n => n
  | none => 0

/-- `NODE[i]` (10_state.md R37). -/
def nodeAt (s : State) (i : Nat) : Node := arenaAt s.node i

/-- `CODE_LEN[x]` (10_state.md R39). -/
def codeLenAt (s : State) (x : Nat) : Nat := bufGet freeCodeLen s.codeLen x

/-- `CODE_BITS[x]` (10_state.md R39). -/
def codeBitsAt (s : State) (x : Nat) : Bits := bufGet freeCodeBits s.codeBits x

/-- `HDR[k]` (10_state.md R40). -/
def hdrAt (s : State) (k : Nat) : Bool := bufGet Config.freeBit s.hdr k

/-- `CBUF[k]` (10_state.md R41). -/
def cbufAt (s : State) (k : Nat) : Bool := bufGet Config.freeBit s.cbuf k

/-- `IBUF[a]` (10_state.md R42). -/
def ibufAt (s : State) (a : Nat) : Byte := bufGet Config.freeByte s.ibuf a

/-- `OBUF[a]` (10_state.md R43). -/
def obufAt (s : State) (a : Nat) : Byte := bufGet Config.freeByte s.obuf a

/-- `HDR[0 .. HBITS-1]` (10_state.md R40). -/
def headerBits (s : State) : Bits := bufSlice Config.freeBit s.hdr 0 s.hbits

/-- `CBUF[0 .. CBITS-1]` (10_state.md R41). -/
def contentBits (s : State) : Bits := bufSlice Config.freeBit s.cbuf 0 s.cbits

/-- `IBUF[a .. a+n-1]`. -/
def ibufSlice (s : State) (a n : Nat) : List Byte := bufSlice Config.freeByte s.ibuf a n

/-- `IBUF[0 .. IN_LEN-1]`, the input (10_state.md R42). -/
def inputBytes (s : State) : List Byte := ibufSlice s 0 s.inLen

/-- `OBUF[0 .. OUT_LEN-1]`, the output (10_state.md R43). -/
def outputBytes (s : State) : List Byte := bufSlice Config.freeByte s.obuf 0 s.outLen

/-- Every entry of NODE becomes `any`. -/
def forgetNode (s : State) : State := { s with node := ⟨s.freeCtr, []⟩, freeCtr := s.freeCtr + 1 }

/-- Every entry of CODE_LEN and CODE_BITS becomes `any`. -/
def forgetCodes (s : State) : State :=
  { s with codeLen := ⟨s.freeCtr, []⟩, codeBits := ⟨s.freeCtr + 1, []⟩, freeCtr := s.freeCtr + 2 }

/-- Every bit of HDR becomes `any`. -/
def forgetHdr (s : State) : State := { s with hdr := ⟨s.freeCtr, []⟩, freeCtr := s.freeCtr + 1 }

/-- Every bit of CBUF becomes `any`. -/
def forgetCbuf (s : State) : State := { s with cbuf := ⟨s.freeCtr, []⟩, freeCtr := s.freeCtr + 1 }

/-- Every byte of IBUF becomes `any`. -/
def forgetIbuf (s : State) : State := { s with ibuf := ⟨s.freeCtr, []⟩, freeCtr := s.freeCtr + 1 }

/-- Every byte of OBUF becomes `any`. -/
def forgetObuf (s : State) : State := { s with obuf := ⟨s.freeCtr, []⟩, freeCtr := s.freeCtr + 1 }

/-- PEND becomes `any` (10_state.md R47: unspecified after a reset). -/
def forgetPend (s : State) : State :=
  { s with pend := Config.freeWord s.freeCtr, freeCtr := s.freeCtr + 1 }

/-! ### The end of a command -/

/-- The engine's last two assignments: BUSY becomes 0 and DONE becomes 1 (40_control.md R83).  From
here on the spec lets PEND hold any value (93_implementation_defined.md I10); that it keeps the
executed word is a DESIGN CHOICE (notes/assumptions/5.md). -/
def complete (s : State) : State := { s with busy := false, done := true }

/-- Error entry (40_control.md R83, 60_exceptions.md R148): ERR_CODE and ERR_OP are written, ERR_OP
with the opcode field of PEND.  Nothing else is saved, no mode changes and control goes nowhere. -/
def errorEntry (e : ErrKind) (s : State) : State :=
  { s with errCode := errCodeOf e, errOp := opField s.pend }

/-- Error return: what CLR_ERR clears (40_control.md R89, 60_exceptions.md R149). -/
def errorReturn (s : State) : State := { s with errCode := 0#8, errOp := 0#8, ovr := false }

/-- The engine step on a command whose pseudocode, run on `s0`, gives `body` (40_control.md R83, R85).
An error rolls the command back to `s0` with only the "On error" changes `onError`, and writes the
error registers.  Either way the command is then complete. -/
def runCommand (s0 : State) (body : Body) (onError : ErrKind → State → State) :
    Host.Outcome State Fault Refusal :=
  match body with
  | .ok s1 => .next (complete s1)
  | .error (.raise e) => .next (complete (errorEntry e (onError e s0)))
  | .error (.stuck f) => .fault f

/-- "On error: none". -/
def keepAll (_ : ErrKind) (s : State) : State := s

/-- The engine step on a word that selects no row of the opcode map: ILLEGAL_CMD, with no effect
other than the error registers (40_control.md R84, 60_exceptions.md R144). -/
def illegalCommand (s : State) : Host.Outcome State Fault Refusal :=
  runCommand s (.error (.raise .illegalCmd)) keepAll

/-- Sequencing of command bodies: the second runs on the state the first reaches. -/
def thenBody (r : Body) (f : State → Body) : Body :=
  match r with
  | .ok s => f s
  | .error e => .error e

/-! ### Sessions and reset -/

/-- `session_clear()` (41_frequency_counter.md R91). -/
def sessionClear (s : State) : State :=
  { s with
    freq := [], total := 0, nsym := 0
    ftLock := false, treeValid := false, ctValid := false
    root := 0, nnodes := 0, decCur := 0 }

/-- What SOFT_RESET does before it completes (40_control.md R88): every element whose SOFT_RESET
column in 10_state.md R47 is not "kept" takes its reset value. -/
def softReset (s : State) : State :=
  forgetPend { sessionClear s with
    done := false, ovr := false, errCode := 0#8, errOp := 0#8, doneIe := false, errIe := false
    inLen := 0, outLen := 0, hbits := 0, cbits := 0 }

/-- Hardware reset (70_reset_and_hazards.md R157, 10_state.md R47): a pending command is discarded,
the registers take their reset values and the arrays become `any`.  It sets no DONE. -/
def hardReset (s : State) : State :=
  forgetObuf (forgetIbuf (forgetCbuf (forgetHdr (forgetCodes (forgetNode
    { softReset s with busy := false })))))

end Sys2Proof.Machine
end

