-- ==== Sys2Proof/Machine/Flags.lean ====
section
/-!
DEFINITION. The flags and the status registers as the host reads them (10_state.md R22 to R24), the
interrupt output (60_exceptions.md R146), and the session-flag checks that raise SEQUENCE
(60_exceptions.md R142).
-/

namespace Sys2Proof.Machine

/-- STATUS.ERR: `ERR_CODE ≠ 0` (10_state.md R22). -/
def errFlag (s : State) : Bool := s.errCode != 0#8

/-- STATUS.TREE_DEG: the tree is a single Leaf (10_state.md R22). -/
def treeDeg (s : State) : Bool := s.treeValid && decide ((nodeAt s s.root).kind = .leaf)

/-- STATUS.DEC_AT_ROOT: `DEC_CUR = ROOT` (10_state.md R22). -/
def decAtRoot (s : State) : Bool := decide (s.decCur = s.root)

/-- The interrupt output `irq` (60_exceptions.md R146, 10_state.md R44). -/
def irq (s : State) : Bool := (s.done && s.doneIe) || ((errFlag s || s.ovr) && s.errIe)

/-- The bits of STATUS, bit 0 first (10_state.md R22); bits 31:10 read 0. -/
def statusBits (s : State) : List Bool :=
  [s.busy, s.done, errFlag s, s.ovr, s.ftLock, s.treeValid, s.ctValid, treeDeg s, decAtRoot s, irq s]

/-- The word read from STATUS (10_state.md R22). -/
def statusWord (s : State) : Word := BitVec.ofNat 32 (natOfBits (statusBits s).reverse)

/-- The word read from ERRCODE: ERR_OP in bits 15:8, ERR_CODE in bits 7:0 (10_state.md R23). -/
def errWord (s : State) : Word := (0#16 ++ s.errOp) ++ s.errCode

/-- The word read from IRQ_EN: ERR_IE in bit 1, DONE_IE in bit 0 (10_state.md R24). -/
def irqEnWord (s : State) : Word := BitVec.ofNat 32 (natOfBits [s.errIe, s.doneIe])

/-- A command with a precondition: SEQUENCE unless `ok` holds, else the command's body
(60_exceptions.md R142). -/
def guarded (ok : Bool) (body : Body) : Body := if ok then body else .error (.raise .sequence)

end Sys2Proof.Machine
end

