-- ==== Sys2Proof/Machine/Decoder.lean ====
section
/-!
DEFINITION. The BitstreamDecoder commands DEC_BEGIN, DEC_BIT, DEC_END and DEC_RUN
(45_bitstream_decoder.md R115 to R121).
-/

namespace Sys2Proof.Machine

/-- `emit(s)` (45_bitstream_decoder.md R115). -/
def emit (x : Byte) (s : State) : Body :=
  if s.outLen = s.obufBytes then .error (.raise .limit)
  else .ok { s with obuf := bufSet s.obuf s.outLen x, outLen := s.outLen + 1 }

/-- The child of node `i` a bit selects: left on 0, right on 1 (45_bitstream_decoder.md R116). -/
def childOf (n : Node) (bit : Bool) : Nat := if bit then n.right else n.left

/-- `step(bit)` (45_bitstream_decoder.md R116). -/
def decStep (bit : Bool) (s : State) : Body :=
  if (nodeAt s s.root).kind = .leaf then emit (nodeAt s s.root).sym s
  else if (nodeAt s (childOf (nodeAt s s.decCur) bit)).kind = .leaf then
    thenBody (emit (nodeAt s (childOf (nodeAt s s.decCur) bit)).sym s) fun s' =>
      .ok { s' with decCur := s'.root }
  else .ok { s with decCur := childOf (nodeAt s s.decCur) bit }

/-- `step` of each bit, in order. -/
def decAll : Bits → State → Body
  | [], s => .ok s
  | b :: bs, s => thenBody (decStep b s) (decAll bs)

/-- The terminal check: `if DEC_CUR != ROOT: raise TRUNCATED_CONTENT` (45_bitstream_decoder.md R119). -/
def endCheck (s : State) : Body :=
  if s.decCur ≠ s.root then .error (.raise .truncatedContent) else .ok s

/-- DEC_CUR at the root and the output empty: DEC_BEGIN's assignments (45_bitstream_decoder.md R117),
which DEC_END and DEC_RUN also make on an error (R119, R120). -/
def rewind (s : State) : State := { s with decCur := s.root, outLen := 0 }

/-- The pseudocode of DEC_RUN after its check (45_bitstream_decoder.md R120). -/
def decRunBody (s : State) : Body :=
  thenBody (decAll (contentBits s) (rewind s)) endCheck

/-- "On error" of DEC_END (45_bitstream_decoder.md R119). -/
def decEndOnError (e : ErrKind) (s : State) : State :=
  match e with
  | .truncatedContent => rewind s
  | _ => s

/-- "On error" of DEC_RUN (45_bitstream_decoder.md R120). -/
def decRunOnError (e : ErrKind) (s : State) : State :=
  match e with
  | .limit => forgetObuf (rewind s)
  | .truncatedContent => forgetObuf (rewind s)
  | _ => s

/-- DEC_BEGIN (45_bitstream_decoder.md R117): the cursor at the root, the output empty. -/
def execDecBegin (s : State) : Host.Outcome State Fault Refusal :=
  runCommand s (guarded s.treeValid (.ok (rewind s))) keepAll

/-- DEC_BIT v (45_bitstream_decoder.md R118): consume the bit ARG[0]. -/
def execDecBit (arg : Byte) (s : State) : Host.Outcome State Fault Refusal :=
  runCommand s (guarded s.treeValid (decStep (argBit arg) s)) keepAll

/-- DEC_END (45_bitstream_decoder.md R119): the terminal check. -/
def execDecEnd (s : State) : Host.Outcome State Fault Refusal :=
  runCommand s (guarded s.treeValid (endCheck s)) decEndOnError

/-- DEC_RUN (45_bitstream_decoder.md R120): decode the whole content buffer. -/
def execDecRun (s : State) : Host.Outcome State Fault Refusal :=
  runCommand s (guarded s.treeValid (decRunBody s)) decRunOnError

end Sys2Proof.Machine
end

