-- ==== Sys2Proof/Machine/Encoder.lean ====
section
/-!
DEFINITION. The BitstreamEncoder commands ENC_BEGIN, ENC_PUSH and ENC_SCAN
(44_bitstream_encoder.md R108 to R114).
-/

namespace Sys2Proof.Machine

/-- `appendC(bits)` (44_bitstream_encoder.md R108). -/
def appendC (bits : Bits) (s : State) : Body :=
  if s.cbits + bits.length > s.cbufBits then .error (.raise .limit)
  else .ok { s with cbuf := bufWrite s.cbuf s.cbits bits, cbits := s.cbits + bits.length }

/-- The code of symbol `x`: `CODE_BITS[x][0 .. CODE_LEN[x] - 1]` (10_state.md R39). -/
def codeOf (s : State) (x : Nat) : Bits := (codeBitsAt s x).take (codeLenAt s x)

/-- `code1(b)` (44_bitstream_encoder.md R109). -/
def code1 (b : Byte) (s : State) : Body :=
  if codeLenAt s b.toNat = 0 then .error (.raise .invariant)
  else appendC (codeOf s b.toNat) s

/-- `code1` of each byte, in order. -/
def codeAll : List Byte → State → Body
  | [], s => .ok s
  | b :: bs, s => thenBody (code1 b s) (codeAll bs)

/-- ENC_BEGIN (44_bitstream_encoder.md R110): empty the content buffer. -/
def execEncBegin (s : State) : Host.Outcome State Fault Refusal :=
  runCommand s (.ok { s with cbits := 0 }) keepAll

/-- ENC_PUSH b (44_bitstream_encoder.md R111): append the code of one byte. -/
def execEncPush (b : Byte) (s : State) : Host.Outcome State Fault Refusal :=
  runCommand s (guarded s.ctValid (code1 b s)) keepAll

/-- ENC_SCAN (44_bitstream_encoder.md R112): append the codes of the input. -/
def execEncScan (s : State) : Host.Outcome State Fault Refusal :=
  runCommand s (guarded s.ctValid (codeAll (inputBytes s) s)) keepAll

end Sys2Proof.Machine
end

