-- ==== Sys2Proof/Machine/FreqCounter.lean ====
section
/-!
DEFINITION. The FrequencyCounter commands FC_CLEAR, FC_PUSH and FC_SCAN
(41_frequency_counter.md R91 to R96).
-/

namespace Sys2Proof.Machine

/-- `count1(b)` (41_frequency_counter.md R92). -/
def count1 (b : Byte) (s : State) : Body :=
  if s.total = 2 ^ 32 - 1 then .error (.raise .limit)
  else .ok { s with
    nsym := if freqAt s b.toNat = 0 then s.nsym + 1 else s.nsym
    freq := cellSet s.freq b.toNat (freqAt s b.toNat + 1)
    total := s.total + 1 }

/-- `count1` of each byte, in order. -/
def countAll : List Byte → State → Body
  | [], s => .ok s
  | b :: bs, s => thenBody (count1 b s) (countAll bs)

/-- FC_CLEAR (41_frequency_counter.md R93): start a new session. -/
def execFcClear (s : State) : Host.Outcome State Fault Refusal :=
  runCommand s (.ok (sessionClear s)) keepAll

/-- FC_PUSH b (41_frequency_counter.md R94): count one byte. -/
def execFcPush (b : Byte) (s : State) : Host.Outcome State Fault Refusal :=
  runCommand s (guarded (!s.ftLock) (count1 b s)) keepAll

/-- FC_SCAN (41_frequency_counter.md R95): count every byte of the input. -/
def execFcScan (s : State) : Host.Outcome State Fault Refusal :=
  runCommand s (guarded (!s.ftLock) (countAll (inputBytes s) s)) keepAll

end Sys2Proof.Machine
end

