-- ==== Sys2Proof/Machine/CodeTable.lean ====
section
/-!
DEFINITION. The CodeTableDeriver command CT_DERIVE (43_code_table_deriver.md R104 to R107).
-/

namespace Sys2Proof.Machine

/-- The depth to which a walk of the arena goes: more than its 511 entries can need. -/
def walkFuel : Nat := 512

/-- `walk(i, path)` (43_code_table_deriver.md R104): the leaves below node `i`, left then right, each
with its symbol and its path.  `none` when the walk goes deeper than the arena has entries. -/
def walkCodes (nodes : Buf Node) : Nat → Nat → Bits → Option (List (Byte × Bits))
  | 0, _, _ => none
  | fuel + 1, i, path =>
    match (arenaAt nodes i).kind with
    | .leaf => some [((arenaAt nodes i).sym, path)]
    | .internal =>
      match walkCodes nodes fuel (arenaAt nodes i).left (path ++ [false]),
          walkCodes nodes fuel (arenaAt nodes i).right (path ++ [true]) with
      | some l, some r => some (l ++ r)
      | _, _ => none

/-- The codes `derive()` records, in the order of the walk; a degenerate tree's symbol has the
one-bit code `0` (43_code_table_deriver.md R104). -/
def treeCodes (nodes : Buf Node) (root : Nat) : Option (List (Byte × Bits)) :=
  if (arenaAt nodes root).kind = .leaf then some [((arenaAt nodes root).sym, [false])]
  else walkCodes nodes walkFuel root []

/-- CODE_LEN with every element 0. -/
def noLengths (b : Buf Nat) : Buf Nat := bufFill b 256 0

/-- CODE_BITS with every element the empty sequence. -/
def noCodes (b : Buf Bits) : Buf Bits := bufFill b 256 []

/-- `CODE_LEN[s] <- len(path)` for each recorded code, in order. -/
def writeLengths (b : Buf Nat) : List (Byte × Bits) → Buf Nat
  | [] => b
  | (x, path) :: rest => writeLengths (bufSet b x.toNat path.length) rest

/-- `CODE_BITS[s] <- path` for each recorded code, in order. -/
def writeCodes (b : Buf Bits) : List (Byte × Bits) → Buf Bits
  | [] => b
  | (x, path) :: rest => writeCodes (bufSet b x.toNat path) rest

/-- The pseudocode of CT_DERIVE after its check: `derive()`, then CT_VALID
(43_code_table_deriver.md R104, R105). -/
def deriveCodes (s : State) : Body :=
  match treeCodes s.node s.root with
  | some codes => .ok { s with
      codeLen := writeLengths (noLengths s.codeLen) codes
      codeBits := writeCodes (noCodes s.codeBits) codes
      ctValid := true }
  | none => .error (.stuck .endlessWalk)

/-- CT_DERIVE (43_code_table_deriver.md R105): SEQUENCE when there is no tree. -/
def execCtDerive (s : State) : Host.Outcome State Fault Refusal :=
  runCommand s (guarded s.treeValid (deriveCodes s)) keepAll

end Sys2Proof.Machine
end

