-- ==== Sys2Proof/Machine/TreeBuilder.lean ====
section
/-!
DEFINITION. The TreeBuilder command TB_BUILD (42_tree_builder.md R97 to R103).
-/

namespace Sys2Proof.Machine

/-- A Leaf (10_state.md R37). -/
def leafNode (sym : Byte) (weight : Nat) : Node := ⟨.leaf, sym, weight, 0, 0⟩

/-- An Internal node, which never holds a Symbol (10_state.md R37). -/
def internalNode (weight left right : Nat) : Node := ⟨.internal, 0#8, weight, left, right⟩

/-- The seeding loop of TB_BUILD over the symbols `xs`: one Leaf per symbol with a count, numbered
from `n` (42_tree_builder.md R99).  It gives the next number and the arena. -/
def seedLeaves (freq : Nat → Nat) : List Nat → Nat → Buf Node → Nat × Buf Node
  | [], n, nodes => (n, nodes)
  | x :: xs, n, nodes =>
    if freq x > 0 then
      seedLeaves freq xs (n + 1) (bufSet nodes n (leafNode (BitVec.ofNat 8 x) (freq x)))
    else seedLeaves freq xs n nodes

/-- The order of the keys `(WEIGHT, i)`: the smaller weight first, then the smaller index
(42_tree_builder.md R97). -/
def keyLess (nodes : Buf Node) (i j : Nat) : Bool :=
  decide ((arenaAt nodes i).weight < (arenaAt nodes j).weight) ||
    (decide ((arenaAt nodes i).weight = (arenaAt nodes j).weight) && decide (i < j))

/-- The element of `m :: q` with the least key (42_tree_builder.md R99). -/
def leastKey (nodes : Buf Node) (m : Nat) : List Nat → Nat
  | [] => m
  | i :: q => if keyLess nodes i m then leastKey nodes i q else leastKey nodes m q

/-- Extract the element with the least key from the set `m :: q`: the element and the rest. -/
def extractLeast (nodes : Buf Node) (m : Nat) (q : List Nat) : Nat × List Nat :=
  (leastKey nodes m q, (m :: q).erase (leastKey nodes m q))

/-- The merge loop of TB_BUILD (42_tree_builder.md R98, R99).  `q` is the set Q as a list without
repeats; `fuel` bounds the merges, and a set of `k` elements takes `k - 1` of them.  It gives the
arena, the set that is left and the next number. -/
def mergeLoop : Nat → Buf Node → List Nat → Nat → Buf Node × List Nat × Nat
  | 0, nodes, q, next => (nodes, q, next)
  | _ + 1, nodes, [], next => (nodes, [], next)
  | _ + 1, nodes, [r], next => (nodes, [r], next)
  | fuel + 1, nodes, m :: m' :: q, next =>
    match extractLeast nodes m (m' :: q) with
    | (a, []) => (nodes, [a], next)
    | (a, m1 :: q1) =>
      match extractLeast nodes m1 q1 with
      | (b, q2) =>
        mergeLoop fuel
          (bufSet nodes next
            (internalNode ((arenaAt nodes a).weight + (arenaAt nodes b).weight) a b))
          (q2 ++ [next]) (next + 1)

/-- The pseudocode of TB_BUILD after its check (42_tree_builder.md R99). -/
def buildTree (s : State) : Body :=
  match seedLeaves (freqAt s) (List.range 256) 0 s.node with
  | (n, leaves) =>
    match mergeLoop n leaves (List.range n) n with
    | (nodes, [r], next) =>
      .ok { s with
        node := nodes, root := r, nnodes := next
        treeValid := true, ctValid := false, ftLock := true, decCur := r }
    | (_, _, _) => .error (.stuck .noRoot)

/-- TB_BUILD (42_tree_builder.md R99): SEQUENCE when the table is empty. -/
def execTbBuild (s : State) : Host.Outcome State Fault Refusal :=
  runCommand s (guarded (s.total != 0) (buildTree s)) keepAll

end Sys2Proof.Machine
end

