-- ==== Sys2Proof/Machine/Serializer.lean ====
section
/-!
DEFINITION. The TreeSerializer commands TS_SERIALIZE and TS_DESERIALIZE
(46_tree_serializer.md R122 to R128).
-/

namespace Sys2Proof.Machine

/-- `HDR_MAX_BITS`, the capacity of HDR (00_scope.md R8). -/
def hdrMaxBits : Nat := 2559

/-- `MAX_NODES`, the size of the node arena (00_scope.md R8). -/
def maxNodes : Nat := 511

/-- `ser(i)` (46_tree_serializer.md R122); `none` when the recursion goes deeper than the arena has
entries. -/
def serBits (nodes : Buf Node) : Nat → Nat → Option Bits
  | 0, _ => none
  | fuel + 1, i =>
    match (arenaAt nodes i).kind with
    | .leaf => some (true :: bits8 (arenaAt nodes i).sym)
    | .internal =>
      match serBits nodes fuel (arenaAt nodes i).left, serBits nodes fuel (arenaAt nodes i).right with
      | some l, some r => some (false :: (l ++ r))
      | _, _ => none

/-- The pseudocode of TS_SERIALIZE after its check (46_tree_serializer.md R124). -/
def serializeTree (s : State) : Body :=
  match serBits s.node walkFuel s.root with
  | some h =>
    if h.length ≤ hdrMaxBits then .ok { s with hdr := bufWrite s.hdr 0 h, hbits := h.length }
    else .error (.stuck .headerOverrun)
  | none => .error (.stuck .endlessWalk)

/-- The local values of `deser()` (46_tree_serializer.md R125): the header bits from `pos` on, `cnt`,
`seen`, and the arena it writes. -/
structure DeserState where
  bits : Bits
  cnt : Nat
  seen : List Byte
  nodes : Buf Node
deriving DecidableEq, Repr

/-- `node()` (46_tree_serializer.md R125): the index of the node read, or `none` where it raises
CORRUPT_HEADER.  `fuel` bounds the depth; 512 is never reached, because the node count is checked
at 511. -/
def deserNode : Nat → DeserState → Option (Nat × DeserState)
  | 0, _ => none
  | fuel + 1, d =>
    if d.cnt = maxNodes then none
    else
      match d.bits with
      | [] => none
      | true :: b7 :: b6 :: b5 :: b4 :: b3 :: b2 :: b1 :: b0 :: rest =>
        let sym : Byte := BitVec.ofNat 8 (natOfBits [b7, b6, b5, b4, b3, b2, b1, b0])
        if sym ∈ d.seen then none
        else some (d.cnt,
          { bits := rest, cnt := d.cnt + 1, seen := sym :: d.seen
            nodes := bufSet d.nodes d.cnt (leafNode sym 0) })
      | true :: _ => none
      | false :: rest =>
        match deserNode fuel { d with bits := rest, cnt := d.cnt + 1 } with
        | none => none
        | some (l, d1) =>
          match deserNode fuel d1 with
          | none => none
          | some (r, d2) =>
            some (d.cnt, { d2 with nodes := bufSet d2.nodes d.cnt (internalNode 0 l r) })

/-- The pseudocode of TS_DESERIALIZE: `deser()`, then the flags (46_tree_serializer.md R125, R126). -/
def deserializeTree (s : State) : Body :=
  match deserNode walkFuel { bits := headerBits s, cnt := 0, seen := [], nodes := s.node } with
  | some (r, d) =>
    if d.bits = [] then .ok { s with
      node := d.nodes, root := r, nnodes := d.cnt
      treeValid := true, ctValid := false, decCur := r }
    else .error (.raise .corruptHeader)
  | none => .error (.raise .corruptHeader)

/-- "On error" of TS_DESERIALIZE: the previous tree is gone (46_tree_serializer.md R126). -/
def deserializeOnError (_ : ErrKind) (s : State) : State :=
  forgetNode { s with treeValid := false, ctValid := false, root := 0, nnodes := 0, decCur := 0 }

/-- TS_SERIALIZE (46_tree_serializer.md R124): SEQUENCE when there is no tree. -/
def execTsSerialize (s : State) : Host.Outcome State Fault Refusal :=
  runCommand s (guarded s.treeValid (serializeTree s)) keepAll

/-- TS_DESERIALIZE (46_tree_serializer.md R126): read the tree from HDR. -/
def execTsDeserialize (s : State) : Host.Outcome State Fault Refusal :=
  runCommand s (deserializeTree s) deserializeOnError

end Sys2Proof.Machine
end

