-- ==== Sys2Proof/Machine/Container.lean ====
section
/-!
DEFINITION. The container commands PACK and UNPACK and the top-level operations COMPRESS and
DECOMPRESS (47_container.md R129 to R135, 30_encoding.md R80).
-/

namespace Sys2Proof.Machine

/-- The artifact of a header and a content: H, N, the packed header, the packed content
(30_encoding.md R80). -/
def artifact (header content : Bits) : List Byte :=
  bytes16 header.length ++ bytes32 content.length ++ packBits header ++ packBits content

/-- The pseudocode of PACK after its SEQUENCE check (47_container.md R129). -/
def packBody (s : State) : Body :=
  if 6 + ceil8 s.hbits + ceil8 s.cbits > s.obufBytes then .error (.raise .limit)
  else .ok { s with
    obuf := bufWrite s.obuf 0 (artifact (headerBits s) (contentBits s))
    outLen := 6 + ceil8 s.hbits + ceil8 s.cbits }

/-- "On error" of PACK (47_container.md R129). -/
def packOnError (e : ErrKind) (s : State) : State :=
  match e with
  | .limit => { s with outLen := 0 }
  | _ => s

/-- The field H of the artifact in IBUF (47_container.md R130). -/
def fieldH (s : State) : Nat := natOfBytes (ibufSlice s 0 2)

/-- The field N of the artifact in IBUF (47_container.md R130). -/
def fieldN (s : State) : Nat := natOfBytes (ibufSlice s 2 4)

/-- UNPACK's assignments for a header length `h` and a content bit count `n` (47_container.md R130). -/
def unpackFields (s : State) (h n : Nat) : State :=
  { s with
    hdr := bufWrite s.hdr 0 (unpackBits (ibufSlice s 6 (ceil8 h)) h)
    cbuf := bufWrite s.cbuf 0 (unpackBits (ibufSlice s (6 + ceil8 h) (ceil8 n)) n)
    hbits := h, cbits := n }

/-- The pseudocode of UNPACK; the first failing check decides the error (47_container.md R130). -/
def unpackBody (s : State) : Body :=
  if s.inLen = 0 then .ok { s with hbits := 0, cbits := 0 }
  else if s.inLen < 6 then .error (.raise .corruptHeader)
  else if fieldH s = 0 ∨ fieldH s > hdrMaxBits then .error (.raise .corruptHeader)
  else if s.inLen < 6 + ceil8 (fieldH s) then .error (.raise .corruptHeader)
  else if s.inLen < 6 + ceil8 (fieldH s) + ceil8 (fieldN s) then .error (.raise .truncatedContent)
  else if s.inLen > 6 + ceil8 (fieldH s) + ceil8 (fieldN s) then .error (.raise .corruptHeader)
  else if fieldN s > s.cbufBits then .error (.raise .limit)
  else .ok (unpackFields s (fieldH s) (fieldN s))

/-- "On error" of UNPACK (47_container.md R130). -/
def unpackOnError (_ : ErrKind) (s : State) : State := { s with hbits := 0, cbits := 0 }

/-- The pseudocode of COMPRESS (47_container.md R131). -/
def compressBody (s : State) : Body :=
  if s.inLen = 0 then .ok { sessionClear s with hbits := 0, cbits := 0, outLen := 0 }
  else
    thenBody (countAll (inputBytes s) (sessionClear s)) fun s1 =>
    thenBody (buildTree s1) fun s2 =>
    thenBody (deriveCodes s2) fun s3 =>
    thenBody (codeAll (inputBytes s3) { s3 with cbits := 0 }) fun s4 =>
    thenBody (serializeTree s4) packBody

/-- "On error" of COMPRESS (47_container.md R131). -/
def compressOnError (_ : ErrKind) (s : State) : State :=
  forgetObuf (forgetCbuf (forgetHdr (forgetCodes (forgetNode
    { sessionClear s with hbits := 0, cbits := 0, outLen := 0 }))))

/-- The pseudocode of DECOMPRESS (47_container.md R132). -/
def decompressBody (s : State) : Body :=
  thenBody (unpackBody (sessionClear s)) fun s1 =>
    if s1.inLen = 0 then .ok { s1 with outLen := 0 }
    else thenBody (deserializeTree s1) decRunBody

/-- "On error" of DECOMPRESS (47_container.md R132). -/
def decompressOnError (_ : ErrKind) (s : State) : State :=
  forgetObuf (forgetCbuf (forgetHdr (forgetNode
    { sessionClear s with hbits := 0, cbits := 0, outLen := 0 })))

/-- PACK (47_container.md R129): SEQUENCE when there is no header. -/
def execPack (s : State) : Host.Outcome State Fault Refusal :=
  runCommand s (guarded (s.hbits != 0) (packBody s)) packOnError

/-- UNPACK (47_container.md R130): split the artifact into HDR and CBUF. -/
def execUnpack (s : State) : Host.Outcome State Fault Refusal :=
  runCommand s (unpackBody s) unpackOnError

/-- COMPRESS (47_container.md R131): the source's `compress`. -/
def execCompress (s : State) : Host.Outcome State Fault Refusal :=
  runCommand s (compressBody s) compressOnError

/-- DECOMPRESS (47_container.md R132): the source's `decompress`. -/
def execDecompress (s : State) : Host.Outcome State Fault Refusal :=
  runCommand s (decompressBody s) decompressOnError

end Sys2Proof.Machine
end

