-- ==== Sys2Proof/Machine/Control.lean ====
section
/-!
DEFINITION. The control commands NOP, SOFT_RESET, CLR_ERR and XFER (40_control.md R87 to R90).
-/

namespace Sys2Proof.Machine

/-- NOP (40_control.md R87): nothing but the completion. -/
def execNop (s : State) : Host.Outcome State Fault Refusal := runCommand s (.ok s) keepAll

/-- SOFT_RESET (40_control.md R88): registers to their reset values, arrays kept, DONE set. -/
def execSoftReset (s : State) : Host.Outcome State Fault Refusal :=
  runCommand s (.ok (softReset s)) keepAll

/-- CLR_ERR (40_control.md R89): clear ERR_CODE, ERR_OP and OVR. -/
def execClrErr (s : State) : Host.Outcome State Fault Refusal :=
  runCommand s (.ok (errorReturn s)) keepAll

/-- The pseudocode of XFER (40_control.md R90). -/
def xferBody (s : State) : Body :=
  if s.outLen > s.ibufBytes then .error (.raise .limit)
  else .ok { s with ibuf := bufWrite s.ibuf 0 (outputBytes s), inLen := s.outLen }

/-- XFER (40_control.md R90): copy the output to the input buffer. -/
def execXfer (s : State) : Host.Outcome State Fault Refusal := runCommand s (xferBody s) keepAll

end Sys2Proof.Machine
end

