-- ==== Sys2Proof/Machine/Dispatch.lean ====
section
/-!
DEFINITION. The meaning of each command, one arm per constructor (40_control.md R84).
-/

namespace Sys2Proof.Machine

def exec (i : Instr) (s : State) : Host.Outcome State Fault Refusal :=
  match i with
  | .nop => Sys2Proof.Machine.execNop s
  | .softReset => Sys2Proof.Machine.execSoftReset s
  | .clrErr => Sys2Proof.Machine.execClrErr s
  | .xfer => Sys2Proof.Machine.execXfer s
  | .fcClear => Sys2Proof.Machine.execFcClear s
  | .fcPush b => Sys2Proof.Machine.execFcPush b s
  | .fcScan => Sys2Proof.Machine.execFcScan s
  | .tbBuild => Sys2Proof.Machine.execTbBuild s
  | .ctDerive => Sys2Proof.Machine.execCtDerive s
  | .encBegin => Sys2Proof.Machine.execEncBegin s
  | .encPush b => Sys2Proof.Machine.execEncPush b s
  | .encScan => Sys2Proof.Machine.execEncScan s
  | .tsSerialize => Sys2Proof.Machine.execTsSerialize s
  | .tsDeserialize => Sys2Proof.Machine.execTsDeserialize s
  | .decBegin => Sys2Proof.Machine.execDecBegin s
  | .decBit arg => Sys2Proof.Machine.execDecBit arg s
  | .decEnd => Sys2Proof.Machine.execDecEnd s
  | .decRun => Sys2Proof.Machine.execDecRun s
  | .pack => Sys2Proof.Machine.execPack s
  | .unpack => Sys2Proof.Machine.execUnpack s
  | .compress => Sys2Proof.Machine.execCompress s
  | .decompress => Sys2Proof.Machine.execDecompress s

end Sys2Proof.Machine
end

