-- ==== Sys2Proof/Machine/Bus.lean ====
section
/-!
DEFINITION. The host's bus accesses: the address map (20_memory.md R50, R51), which accesses are
admitted (R62), what a read returns (R52 to R59) and what a write does (R57, R60, 40_control.md R82).
-/

namespace Sys2Proof.Machine

/-- The regions of the aperture (20_memory.md R50). -/
inductive RegionKind where
  | regs | freq | node | codeLen | codeBits | hdr | ibuf | obuf | cbuf | unmapped
deriving DecidableEq, Repr

/-- A row of the address map: the offsets `base` to `last`. -/
structure Region where
  base : Nat
  last : Nat
  kind : RegionKind
deriving DecidableEq, Repr

/-- The address map; every other offset is unmapped (20_memory.md R50). -/
def addressMap : List Region := [
  ⟨0x0000000, 0x0000FFF, .regs⟩,
  ⟨0x0001000, 0x00013FF, .freq⟩,
  ⟨0x0002000, 0x0002FFF, .node⟩,
  ⟨0x0003000, 0x00033FF, .codeLen⟩,
  ⟨0x0004000, 0x0005FFF, .codeBits⟩,
  ⟨0x0006000, 0x000613F, .hdr⟩,
  ⟨0x1000000, 0x1FFFFFF, .ibuf⟩,
  ⟨0x2000000, 0x2FFFFFF, .obuf⟩,
  ⟨0x3000000, 0x3FFFFFF, .cbuf⟩]

/-- The region of an offset. -/
def regionOf (off : Nat) : RegionKind :=
  match addressMap.find? fun r => decide (r.base ≤ off ∧ off ≤ r.last) with
  | some r => r.kind
  | none => .unmapped

/-- The registers at fixed offsets (20_memory.md R51). -/
inductive Reg where
  | id | cmd | status | errcode | irqEn | inLen | outLen | total | nsym | root | nnodes | hbits
  | cbits | decCur | capIbuf | capObuf | capCbuf
deriving DecidableEq, Repr

/-- The offset of a register (20_memory.md R51). -/
def regOffset : Reg → Nat
  | .id => 0x000
  | .cmd => 0x004
  | .status => 0x008
  | .errcode => 0x00C
  | .irqEn => 0x010
  | .inLen => 0x014
  | .outLen => 0x018
  | .total => 0x01C
  | .nsym => 0x020
  | .root => 0x024
  | .nnodes => 0x028
  | .hbits => 0x02C
  | .cbits => 0x030
  | .decCur => 0x034
  | .capIbuf => 0x038
  | .capObuf => 0x03C
  | .capCbuf => 0x040

/-- The registers in offset order. -/
def allRegs : List Reg :=
  [.id, .cmd, .status, .errcode, .irqEn, .inLen, .outLen, .total, .nsym, .root, .nnodes, .hbits,
   .cbits, .decCur, .capIbuf, .capObuf, .capCbuf]

/-- The register at an offset of the register block; none where the offset is reserved. -/
def regAt (off : Nat) : Option Reg := allRegs.find? fun r => decide (regOffset r = off)

/-- The accesses the block admits: the widths and alignment of 20_memory.md R62. -/
def admitted (off n : Nat) : Bool :=
  decide (off < 2 ^ 26) &&
    match regionOf off with
    | .ibuf => decide (n = 1)
    | .obuf => decide (n = 1)
    | .unmapped => decide (n = 1) || (decide (n = 4) && decide (off % 4 = 0))
    | .regs | .freq | .node | .codeLen | .codeBits | .hdr | .cbuf =>
      decide (n = 4) && decide (off % 4 = 0)

/-- The constant of the ID register, "HUF1" (10_state.md R19). -/
def idConstant : Word := 0x48554631#32

/-- What a register reads (10_state.md R19 to R34). -/
def regRead (r : Reg) (s : State) : Word :=
  match r with
  | .id => idConstant
  | .cmd => 0#32
  | .status => statusWord s
  | .errcode => errWord s
  | .irqEn => irqEnWord s
  | .inLen => BitVec.ofNat 32 s.inLen
  | .outLen => BitVec.ofNat 32 s.outLen
  | .total => BitVec.ofNat 32 s.total
  | .nsym => BitVec.ofNat 32 s.nsym
  | .root => BitVec.ofNat 32 s.root
  | .nnodes => BitVec.ofNat 32 s.nnodes
  | .hbits => BitVec.ofNat 32 s.hbits
  | .cbits => BitVec.ofNat 32 s.cbits
  | .decCur => BitVec.ofNat 32 s.decCur
  | .capIbuf => BitVec.ofNat 32 s.ibufBytes
  | .capObuf => BitVec.ofNat 32 s.obufBytes
  | .capCbuf => BitVec.ofNat 32 s.cbufBits

/-- The registers that read their exact values while BUSY = 1 (20_memory.md R59). -/
def exactWhileBusy : Reg → Bool
  | .id | .status | .errcode | .irqEn | .capIbuf | .capObuf | .capCbuf => true
  | .cmd | .inLen | .outLen | .total | .nsym | .root | .nnodes | .hbits | .cbits | .decCur => false

/-- The value a read of an admitted offset returns while BUSY = 0; `none` stands for `any`
(20_memory.md R50 to R58).  Offsets past a window's last element read 0. -/
def idleRead (s : State) (off : Nat) : Option Word :=
  match regionOf off with
  | .regs =>
    match regAt off with
    | some r => some (regRead r s)
    | none => some 0#32
  | .freq => some (BitVec.ofNat 32 (freqAt s ((off - 0x1000) / 4)))
  | .node =>
    if (off - 0x2000) / 8 ≥ 511 then some 0#32
    else if s.treeValid && decide ((off - 0x2000) / 8 < s.nnodes) then
      if off % 8 = 0 then some (nodeWord (nodeAt s ((off - 0x2000) / 8)))
      else some (BitVec.ofNat 32 (nodeAt s ((off - 0x2000) / 8)).weight)
    else none
  | .codeLen =>
    if s.ctValid then some (BitVec.ofNat 32 (codeLenAt s ((off - 0x3000) / 4))) else none
  | .codeBits =>
    if s.ctValid then
      let x := (off - 0x4000) / 32
      let j := (off - 0x4000) % 32 / 4
      some (windowWord fun i =>
        decide (32 * j + i < codeLenAt s x) && (codeBitsAt s x).getD (32 * j + i) false)
    else none
  | .hdr =>
    let j := (off - 0x6000) / 4
    some (windowWord fun i => decide (32 * j + i < s.hbits) && hdrAt s (32 * j + i))
  | .ibuf =>
    if off - 0x1000000 < s.ibufBytes then some ((ibufAt s (off - 0x1000000)).setWidth 32)
    else some 0#32
  | .obuf =>
    if off - 0x2000000 < s.obufBytes then
      if off - 0x2000000 < s.outLen then some ((obufAt s (off - 0x2000000)).setWidth 32) else none
    else some 0#32
  | .cbuf =>
    let j := (off - 0x3000000) / 4
    if j < (s.cbufBits + 31) / 32 then
      some (windowWord fun i => decide (32 * j + i < s.cbits) && cbufAt s (32 * j + i))
    else some 0#32
  | .unmapped => some 0#32

/-- The value a read of an admitted offset returns while BUSY = 1; `none` stands for `any`
(20_memory.md R59).  Reserved and unmapped offsets read 0 (93_implementation_defined.md I13). -/
def busyRead (s : State) (off : Nat) : Option Word :=
  match regionOf off with
  | .regs =>
    match regAt off with
    | some r => if exactWhileBusy r then some (regRead r s) else none
    | none => some 0#32
  | .unmapped => some 0#32
  | .freq | .node | .codeLen | .codeBits | .hdr | .ibuf | .obuf | .cbuf => none

/-- The value of an admitted read; `none` stands for `any`. -/
def readValue (s : State) (off : Nat) : Option Word :=
  if s.busy then busyRead s off else idleRead s off

/-- An arbitrary value of `n` bytes, in a word. -/
def freeRead (n ctr : Nat) : Word :=
  if n = 1 then ((Config.freeWord ctr).setWidth 8).setWidth 32 else Config.freeWord ctr

/-- `BusRead(off, n)` of an admitted access: it returns a value to the host and changes nothing in the
block (20_memory.md R63). -/
def busRead (off n : Nat) (s : State) : State :=
  match readValue s off with
  | some v => { s with reads := v :: s.reads }
  | none => { s with reads := freeRead n s.freeCtr :: s.reads, freeCtr := s.freeCtr + 1 }

/-- Acceptance of a command word (40_control.md R82). -/
def offerCommand (v : Word) (s : State) : State :=
  if s.busy then { s with ovr := true }
  else if s.errCode ≠ 0#8 ∧ v ≠ 0x00000001#32 ∧ v ≠ 0x00000002#32 then s
  else { s with pend := v, busy := true, done := false }

/-- A write of `v` to register `r` (10_state.md R20 to R25, 20_memory.md R60); a write to a read-only
register has no effect. -/
def regWrite (r : Reg) (v : Word) (s : State) : State :=
  match r with
  | .cmd => offerCommand v s
  | .status => if v.getLsbD 1 then { s with done := false } else s
  | .irqEn => { s with doneIe := v.getLsbD 0, errIe := v.getLsbD 1 }
  | .inLen =>
    if s.busy then { s with ovr := true } else { s with inLen := min v.toNat s.ibufBytes }
  | .id | .errcode | .outLen | .total | .nsym | .root | .nnodes | .hbits | .cbits | .decCur
  | .capIbuf | .capObuf | .capCbuf => s

/-- A byte write to `IBUF[a]` (20_memory.md R57, R60). -/
def ibufWrite (a : Nat) (v : Byte) (s : State) : State :=
  if a < s.ibufBytes then
    if s.busy then { s with ovr := true } else { s with ibuf := bufSet s.ibuf a v }
  else s

/-- `BusWrite(off, n, v)` of an admitted access (20_memory.md R50, R60). -/
def busWrite (off : Nat) (v : Word) (s : State) : State :=
  match regionOf off with
  | .regs =>
    match regAt off with
    | some r => regWrite r v s
    | none => s
  | .ibuf => ibufWrite (off - 0x1000000) (v.setWidth 8) s
  | .freq | .node | .codeLen | .codeBits | .hdr | .obuf | .cbuf | .unmapped => s

/-- A host read: refused where the access is not admitted (20_memory.md R62). -/
def hostRead (off n : Nat) (s : State) : Host.Outcome State Fault Refusal :=
  if admitted off n then .next (busRead off n s) else .refused (.inadmissibleAccess off n)

/-- A host write: refused where the access is not admitted (20_memory.md R62). -/
def hostWrite (off n : Nat) (v : Word) (s : State) : Host.Outcome State Fault Refusal :=
  if admitted off n then .next (busWrite off v s) else .refused (.inadmissibleAccess off n)

end Sys2Proof.Machine
end

