-- ==== Sys2Proof/Machine/Host.lean ====
section
/-!
DEFINITION. Host programs: the operations of the assembler syntax (30_encoding.md R76), the
pseudo-instructions (R77), the bus accesses each stands for, and the polls of a WAIT.
-/

namespace Sys2Proof.Machine

/-- The word windows that `RDW` names with one index (30_encoding.md R76). -/
inductive Window where
  | freq | node0 | node1 | codeLen | hdr | cbuf
deriving DecidableEq, Repr

/-- The offset of word `k` of a window (20_memory.md R50). -/
def windowOffset : Window → Nat → Nat
  | .freq, k => 0x1000 + 4 * k
  | .node0, k => 0x2000 + 8 * k
  | .node1, k => 0x2004 + 8 * k
  | .codeLen, k => 0x3000 + 4 * k
  | .hdr, k => 0x6000 + 4 * k
  | .cbuf, k => 0x3000000 + 4 * k

/-- A line of a host program (30_encoding.md R76, R77). -/
inductive HostLine where
  /-- `CMD <mnemonic> [<operand>]`. -/
  | cmd (i : Instr)
  /-- `WR <reg>, <value>`. -/
  | wr (r : Reg) (v : Word)
  /-- `RD <reg>`. -/
  | rd (r : Reg)
  /-- `WRB IBUF[<a>], <byte>`. -/
  | wrb (a : Nat) (v : Byte)
  /-- `RDB OBUF[<a>]`. -/
  | rdb (a : Nat)
  /-- `RDW <window>[<index>]`. -/
  | rdw (w : Window) (k : Nat)
  /-- `RDW CODE_BITS[<s>][<j>]`. -/
  | rdwCode (s j : Nat)
  /-- `WAIT`, with the number of polls the host makes before the engine takes its step, which the
  spec leaves free (70_reset_and_hazards.md R163).  With BUSY = 0 the first poll ends it. -/
  | wait (polls : Nat)
  /-- `DO <mnemonic> [<operand>]`. -/
  | doCmd (i : Instr) (polls : Nat)
  /-- `LOAD <b0>, <b1>, ...`. -/
  | load (bytes : List Byte)
  /-- `CLEARERR`. -/
  | clearErr (polls : Nat)
deriving DecidableEq, Repr

/-- `CMD`: a write of the command word to offset 0x004. -/
def cmdEvents (i : Instr) : List Event := [.busWrite (regOffset .cmd) 4 (encode i)]

/-- `WAIT`, or what is left of one: the next poll of STATUS, with `polls` polls before the engine's
turn while BUSY = 1 (30_encoding.md R77). -/
def waitEvents : Nat → List Event
  | 0 => [.engine, .poll 0]
  | n + 1 => [.poll n]

/-- The turns after a poll of a WAIT that read `v`: none where bit 0 of `v` is 0, which ends the WAIT;
else the WAIT goes on (30_encoding.md R77). -/
def afterPoll (v : Word) (n : Nat) : List Event := if v.getLsbD 0 then waitEvents n else []

/-- A poll of a WAIT: `RD STATUS`, and by the value read the turns that follow. -/
def waitPoll (n : Nat) (s : State) : Host.Outcome State Fault Refusal :=
  match hostRead (regOffset .status) 4 s with
  | .next t => .next { t with agenda := afterPoll (t.reads.headD 0#32) n ++ t.agenda }
  | .fault f => .fault f
  | .refused r => .refused r

/-- The byte writes of `LOAD`, from index `k` on. -/
def loadEvents : Nat → List Byte → List Event
  | _, [] => []
  | k, b :: bs => .busWrite (0x1000000 + k) 1 (b.setWidth 32) :: loadEvents (k + 1) bs

/-- The turns a line stands for (30_encoding.md R76, R77). -/
def lineEvents : HostLine → List Event
  | .cmd i => cmdEvents i
  | .wr r v => [.busWrite (regOffset r) 4 v]
  | .rd r => [.busRead (regOffset r) 4]
  | .wrb a v => [.busWrite (0x1000000 + a) 1 (v.setWidth 32)]
  | .rdb a => [.busRead (0x2000000 + a) 1]
  | .rdw w k => [.busRead (windowOffset w k) 4]
  | .rdwCode s j => [.busRead (0x4000 + 32 * s + 4 * j) 4]
  | .wait polls => waitEvents polls
  | .doCmd i polls => cmdEvents i ++ waitEvents polls
  | .load bytes =>
    loadEvents 0 bytes ++ [.busWrite (regOffset .inLen) 4 (BitVec.ofNat 32 bytes.length)]
  | .clearErr polls => cmdEvents .clrErr ++ waitEvents polls

/-- The turns of a host program. -/
def programEvents (p : List HostLine) : List Event := p.flatMap lineEvents

end Sys2Proof.Machine
end

