-- ==== Sys2Proof/Machine/Step.lean ====
section
/-!
DEFINITION. One step of the machine: the next turn of the interleaving of host and engine
(20_memory.md R66), and where the command that runs next is placed.
-/

namespace Sys2Proof.Machine

/-- The engine step on the pending command: decode PEND and execute it (40_control.md R83, R84). -/
def engineStep (s : State) : Host.Outcome State Fault Refusal :=
  match decode s.pend with
  | .ok i => exec i s
  | .error _ => illegalCommand s

/-- The engine's turn: its step if it is enabled, that is if BUSY = 1 (40_control.md R83); an idle
block keeps all of its state (60_exceptions.md R156). -/
def engineTurn (s : State) : Host.Outcome State Fault Refusal :=
  if s.busy then engineStep s else .next s

/-- One step: the first turn of the agenda.  When the host has no turn left, the engine takes its
step, as weak fairness guarantees (70_reset_and_hazards.md R161). -/
def step (s : State) : Host.Outcome State Fault Refusal :=
  match s.agenda with
  | [] => engineTurn s
  | .engine :: rest => engineTurn { s with agenda := rest }
  | .busRead off n :: rest => hostRead off n { s with agenda := rest }
  | .busWrite off n v :: rest => hostWrite off n v { s with agenda := rest }
  | .poll n :: rest => waitPoll n { s with agenda := rest }
  | .reset :: rest => .next (hardReset { s with agenda := rest })

/-- `s` with the command word `w` accepted and the engine's turn next, so that `step` decodes and
runs exactly it (notes/assumptions/6.md). -/
def State.withFetchWord (s : State) (nbits w : Nat) : State :=
  { s with
    pend := BitVec.ofNat 32 (w % 2 ^ nbits), busy := true, agenda := .engine :: s.agenda }

end Sys2Proof.Machine
end

