-- ==== Sys2Proof/Machine/Run.lean ====
section
/-!
DEFINITION. The end of a run and the observation at it (70_reset_and_hazards.md R162).
-/

namespace Sys2Proof.Machine

/-- A run is over when the host has performed its last operation and BUSY = 0
(70_reset_and_hazards.md R162). -/
def runOver (s : State) : Bool := s.agenda.isEmpty && !s.busy

/-- `base`, `base + width`, ...: the offsets of `n` elements. -/
def offsetsFrom (base width n : Nat) : List Nat := (List.range n).map fun k => base + width * k

/-- The offsets of the registers and of the elements of every window (20_memory.md R50, R51). -/
def locations (s : State) : List Nat :=
  allRegs.map regOffset ++ offsetsFrom 0x1000 4 256 ++ offsetsFrom 0x2000 4 1022 ++
    offsetsFrom 0x3000 4 256 ++ offsetsFrom 0x4000 4 2048 ++ offsetsFrom 0x6000 4 80 ++
    offsetsFrom 0x3000000 4 ((s.cbufBits + 31) / 32) ++ offsetsFrom 0x1000000 1 s.ibufBytes ++
    offsetsFrom 0x2000000 1 s.obufBytes

/-- What HZ5 allows to be read at an offset, with the offset: `none` where the read would return `any`,
which is a stale NODE, CODE_LEN or CODE_BITS, or OBUF at or beyond OUT_LEN
(70_reset_and_hazards.md R160). -/
def observed (s : State) (off : Nat) : Option (Nat × Word) := (idleRead s off).map fun v => (off, v)

/-- The observation at the end of a run: each register, and each element of a window that HZ5 allows to
be read, with its offset (70_reset_and_hazards.md R162).  The values reads have returned, the count of
free values, PEND and stale elements are no part of it. -/
def observation (s : State) : List (Nat × Word) := (locations s).filterMap (observed s)

/-- The state at the end of a run from `s`, where the run ends within `n` turns.  A run with a refused
access has no end state (70_reset_and_hazards.md R162), nor has one that is stuck. -/
def endState : Nat → State → Option State
  | 0, s => if runOver s then some s else none
  | n + 1, s =>
    if runOver s then some s
    else
      match step s with
      | .next t => endState n t
      | .fault _ => none
      | .refused _ => none

end Sys2Proof.Machine
end

