-- ==== Sys2Proof/Safety.lean ====
section
/-!
DEFINITION. The terms claims are stated in: the ends of a command, the host accesses that are refused,
the bytes of an artifact, code trees and what the spec computes from them, the
reading of NODE as a tree, and the invariants of 10_state.md R46.
-/

namespace Sys2Proof.Machine

/-! ### Outcomes, accesses, artifacts -/

/-- `s` when a command has completed without an error (40_control.md R83).  PEND keeps the executed
word, which is the model's choice (notes/assumptions/5.md): while BUSY = 0 the spec lets it hold any
value (93_implementation_defined.md I10). -/
def afterDone (s : State) : State := { s with busy := false, done := true }

/-- `s` when a command has raised the error of code `code`: ERR_OP takes the opcode field of PEND
(40_control.md R83).  PEND keeps the executed word, as in `afterDone`. -/
def afterError (code : Byte) (s : State) : State :=
  { s with errCode := code, errOp := s.pend.extractLsb' 0 8, busy := false, done := true }

/-- An offset of a region whose accesses are words (20_memory.md R50). -/
abbrev wordRegion (off : Nat) : Prop :=
  off ≤ 0xFFF ∨ (0x1000 ≤ off ∧ off ≤ 0x13FF) ∨ (0x2000 ≤ off ∧ off ≤ 0x2FFF) ∨
    (0x3000 ≤ off ∧ off ≤ 0x33FF) ∨ (0x4000 ≤ off ∧ off ≤ 0x5FFF) ∨ (0x6000 ≤ off ∧ off ≤ 0x613F) ∨
    (0x3000000 ≤ off ∧ off ≤ 0x3FFFFFF)

/-- An offset of a region whose accesses are bytes (20_memory.md R50). -/
abbrev byteRegion (off : Nat) : Prop := 0x1000000 ≤ off ∧ off ≤ 0x2FFFFFF

/-- The accesses the model refuses (20_memory.md R62). -/
abbrev inadmissible (off n : Nat) : Prop :=
  (n ≠ 1 ∧ n ≠ 4) ∨ 2 ^ 26 ≤ off ∨ (n = 4 ∧ off % 4 ≠ 0) ∨ (n = 1 ∧ wordRegion off) ∨
    (n = 4 ∧ byteRegion off)

/-- The opcodes whose ARG kind is `none` (30_encoding.md R72, R73). -/
def noneOpcodes : List Byte :=
  [0x00#8, 0x01#8, 0x02#8, 0x03#8, 0x10#8, 0x12#8, 0x20#8, 0x30#8, 0x40#8, 0x42#8, 0x50#8, 0x51#8,
   0x60#8, 0x62#8, 0x63#8, 0x70#8, 0x71#8, 0x72#8, 0x73#8]

/-- The first six bytes of an artifact: H and N, big-endian (30_encoding.md R80). -/
def lengthFields (h n : Nat) : List Byte :=
  [BitVec.ofNat 8 (h / 2 ^ 8), BitVec.ofNat 8 h, BitVec.ofNat 8 (n / 2 ^ 24), BitVec.ofNat 8 (n / 2 ^ 16),
   BitVec.ofNat 8 (n / 2 ^ 8), BitVec.ofNat 8 n]

/-- The artifact of a header and a content (30_encoding.md R80). -/
def artifactOf (header content : Bits) : List Byte :=
  lengthFields header.length content.length ++ packBits header ++ packBits content

/-- The registers of a cleared session (41_frequency_counter.md R91), with no header, no content and
no output: what COMPRESS and DECOMPRESS leave of them when they fail (47_container.md R131, R132). -/
def cleared (s : State) : State :=
  { s with
    freq := [], total := 0, nsym := 0, ftLock := false, treeValid := false, ctValid := false
    root := 0, nnodes := 0, decCur := 0, hbits := 0, cbits := 0, outLen := 0 }

/-! ### Code trees -/

/-- A code tree, without node numbers (00_scope.md R15): a Leaf with its symbol, or an Internal node
with its left and its right child. -/
inductive SymTree where
  | leaf (x : Byte)
  | node (l r : SymTree)
deriving DecidableEq, Repr

/-- The leaf symbols, left to right. -/
def SymTree.symbols : SymTree → List Byte
  | .leaf x => [x]
  | .node l r => l.symbols ++ r.symbols

/-- The root-to-leaf paths with their symbols: left is 0, right is 1 (00_scope.md R7). -/
def SymTree.paths : SymTree → List (Byte × Bits)
  | .leaf x => [(x, [])]
  | .node l r =>
    l.paths.map (fun p => (p.1, false :: p.2)) ++ r.paths.map (fun p => (p.1, true :: p.2))

/-- The codes of a tree: the paths, and for a degenerate tree the one-bit code `0`
(43_code_table_deriver.md R104). -/
def SymTree.codes : SymTree → List (Byte × Bits)
  | .leaf x => [(x, [false])]
  | .node l r => (SymTree.node l r).paths

/-- The code of symbol `x`; the empty sequence where `x` has none (10_state.md R39). -/
def SymTree.code (t : SymTree) (x : Byte) : Bits :=
  match t.codes.find? fun p => decide (p.1 = x) with
  | some p => p.2
  | none => []

/-- The codes of a byte sequence, one after the other (44_bitstream_encoder.md R113). -/
def SymTree.encode (t : SymTree) (bytes : List Byte) : Bits := bytes.flatMap t.code

/-- The header of a tree: pre-order, 0 for an Internal node, 1 and the symbol for a Leaf
(46_tree_serializer.md R122). -/
def SymTree.header : SymTree → Bits
  | .leaf x => true :: bits8 x
  | .node l r => false :: (l.header ++ r.header)

/-- A code tree with the NODE index of each node. -/
inductive CodeTree where
  | leaf (i : Nat) (x : Byte)
  | node (i : Nat) (l r : CodeTree)
deriving DecidableEq, Repr

/-- The NODE index of the root of a tree. -/
def CodeTree.index : CodeTree → Nat
  | .leaf i _ => i
  | .node i _ _ => i

/-- The NODE indices of a tree, in pre-order. -/
def CodeTree.indices : CodeTree → List Nat
  | .leaf i _ => [i]
  | .node i l r => i :: (l.indices ++ r.indices)

/-- The NODE indices of the Internal nodes of a tree. -/
def CodeTree.internals : CodeTree → List Nat
  | .leaf _ _ => []
  | .node i l r => i :: (l.internals ++ r.internals)

/-- A tree without its node numbers. -/
def CodeTree.erase : CodeTree → SymTree
  | .leaf _ x => .leaf x
  | .node _ l r => .node l.erase r.erase

/-- The tree with its nodes numbered in pre-order from `i` on, as TS_DESERIALIZE numbers them
(46_tree_serializer.md R125). -/
def SymTree.number : SymTree → Nat → CodeTree
  | .leaf x, i => .leaf i x
  | .node l r, i => .node i (l.number (i + 1)) (r.number (i + 2 * l.symbols.length))

/-- The arena holds the tree: every node's entry is the Leaf or the Internal node the tree says. -/
def treeIn (nodes : Buf Node) : CodeTree → Bool
  | .leaf i x => decide ((arenaAt nodes i).kind = .leaf) && decide ((arenaAt nodes i).sym = x)
  | .node i l r =>
    decide ((arenaAt nodes i).kind = .internal) && decide ((arenaAt nodes i).left = l.index)
      && decide ((arenaAt nodes i).right = r.index) && treeIn nodes l && treeIn nodes r

/-- `NODE[0 .. NNODES-1]` is the full binary tree `t` rooted at ROOT: every index below NNODES is
reached exactly once from ROOT, leaf symbols are pairwise distinct, `NNODES = 2·L - 1`, and
`1 ≤ L ≤ 256` (10_state.md R46 item 4). -/
structure HoldsTree (s : State) (t : CodeTree) : Prop where
  root : t.index = s.root
  arena : treeIn s.node t = true
  once : t.indices.Perm (List.range s.nnodes)
  distinct : t.erase.symbols.Nodup
  count : s.nnodes = 2 * t.erase.symbols.length - 1
  leaves : 1 ≤ t.erase.symbols.length ∧ t.erase.symbols.length ≤ 256

/-- The fields that the KIND of a node does not use are 0: LEFT and RIGHT of a Leaf, and SYM of an
Internal node, which "never holds a Symbol" (10_state.md R37). -/
abbrev Node.UnusedZero (n : Node) : Prop :=
  (n.kind = .leaf → n.left = 0 ∧ n.right = 0) ∧ (n.kind = .internal → n.sym = 0#8)

/-! ### Counts, and what COMPRESS leaves -/

/-- TOTAL is the sum of the counts, NSYM the number of symbols with a count (R46 item 1), TOTAL fits
its 32 bits, and no count of 0 is stored (10_state.md R36). -/
abbrev CountsExact (s : State) : Prop :=
  s.total = ((List.range 256).map (freqAt s)).sum ∧
    s.nsym = ((List.range 256).filter fun x => decide (0 < freqAt s x)).length ∧
    s.total ≤ 2 ^ 32 - 1 ∧ cellsOk 256 s.freq = true ∧ ∀ c ∈ s.freq, 0 < c.2

/-- FREQ holds exactly the numbers of occurrences of each byte in `bs`, and TOTAL and NSYM agree with
it (10_state.md R46 item 1). -/
abbrev CountsAre (s : State) (bs : List Byte) : Prop :=
  CountsExact s ∧ ∀ x : Byte, freqAt s x.toNat = bs.count x

/-- The content of the input of `s` under `tree` fits CBUF, and the artifact fits OBUF: when COMPRESS
raises no error (47_container.md R131). -/
abbrev CompressFits (s : State) (tree : SymTree) : Prop :=
  (tree.encode (inputBytes s)).length ≤ s.cbufBits ∧
    6 + ceil8 tree.header.length + ceil8 (tree.encode (inputBytes s)).length ≤ s.obufBytes

/-- `t` is what a COMPRESS of the input of `s` leaves when it raises no error, with `tree` in NODE
(47_container.md R131). -/
structure Compressed (s t : State) (tree : CodeTree) : Prop where
  /-- The registers, and what is unchanged. -/
  state : t = afterDone { s with
    freq := t.freq, total := s.inLen, nsym := tree.erase.symbols.length, ftLock := true
    treeValid := true, ctValid := true, root := t.root, nnodes := t.nnodes, decCur := t.root
    node := t.node, codeLen := t.codeLen, codeBits := t.codeBits, hdr := t.hdr
    hbits := tree.erase.header.length, cbuf := t.cbuf
    cbits := (tree.erase.encode (inputBytes s)).length, obuf := t.obuf
    outLen := 6 + ceil8 tree.erase.header.length + ceil8 (tree.erase.encode (inputBytes s)).length }
  holds : HoldsTree t tree
  /-- The leaves are the bytes of the input. -/
  symbols : ∀ x, x ∈ tree.erase.symbols ↔ x ∈ inputBytes s
  counts : CountsAre t (inputBytes s)
  /-- ROOT, NNODES and the nodes are those TB_BUILD makes of these counts in any state, so they have the
  key order and the child order of 42_tree_builder.md R97 and R98. -/
  built : ∀ u v, CountsAre u (inputBytes s) → exec .tbBuild u = .next v →
    t.root = v.root ∧ t.nnodes = v.nnodes ∧ ∀ k < t.nnodes, nodeAt t k = nodeAt v k
  codes : ∀ x : Byte, codeBitsAt t x.toNat = tree.erase.code x ∧
    codeLenAt t x.toNat = (tree.erase.code x).length
  header : headerBits t = tree.erase.header
  content : contentBits t = tree.erase.encode (inputBytes s)
  output : outputBytes t = artifactOf tree.erase.header (tree.erase.encode (inputBytes s))

/-! ### Invariants (10_state.md R46) -/

/-- The capacities are within the constraints of 00_scope.md R9. -/
abbrev CapsLegal (s : State) : Prop :=
  1 ≤ s.ibufBytes ∧ s.ibufBytes ≤ 2 ^ 24 ∧ 1 ≤ s.obufBytes ∧ s.obufBytes ≤ 2 ^ 24 ∧
    1 ≤ s.cbufBits ∧ s.cbufBits ≤ 2 ^ 27

/-- The lengths are within their buffers (R46 item 6), and the indices within their widths. -/
abbrev LengthsInRange (s : State) : Prop :=
  s.inLen ≤ s.ibufBytes ∧ s.outLen ≤ s.obufBytes ∧ s.cbits ≤ s.cbufBits ∧ s.hbits ≤ 2559 ∧
    s.nnodes ≤ 511 ∧ s.root < 512 ∧ s.decCur < 512 ∧ ∀ x < 256, codeLenAt s x ≤ 255

/-- Every array is in canonical form and has no element outside its range (20_memory.md R64). -/
abbrev ArraysOk (s : State) : Prop :=
  cellsOk 256 s.freq = true ∧ bufOk 511 s.node = true ∧ bufOk 256 s.codeLen = true ∧
    bufOk 256 s.codeBits = true ∧ bufOk 2559 s.hdr = true ∧ bufOk s.cbufBits s.cbuf = true ∧
    bufOk s.ibufBytes s.ibuf = true ∧ bufOk s.obufBytes s.obuf = true

/-- FT_LOCK implies a count (R46 item 2), CT_VALID implies TREE_VALID (R46 item 3), and without a tree
NNODES is 0 (10_state.md R30). -/
abbrev SessionFlagsOk (s : State) : Prop :=
  (s.ftLock = true → 0 < s.total) ∧ (s.ctValid = true → s.treeValid = true) ∧
    (s.treeValid = false → s.nnodes = 0)

/-- ERR_CODE is 0 or the code of an error that can be raised (60_exceptions.md R136, R140); ERR_OP is 0
while ERR_CODE is (R46 item 7); and a command that is pending while an error is pending is SOFT_RESET
or CLR_ERR (40_control.md R82). -/
abbrev ErrorsOk (s : State) : Prop :=
  s.errCode ∈ [0x00#8, 0x01#8, 0x02#8, 0x04#8, 0x05#8, 0x06#8, 0x07#8] ∧
    (s.errCode = 0#8 → s.errOp = 0#8) ∧
    (s.busy = true → s.errCode ≠ 0#8 → s.pend = 0x00000001#32 ∨ s.pend = 0x00000002#32)

/-- While TREE_VALID = 1, the nodes are as R37 says, NODE holds a tree (R46 item 4), DEC_CUR is ROOT or
an Internal node of it (R46 item 5), and, while CT_VALID = 1, CODE_LEN and CODE_BITS hold its codes
(10_state.md R35). -/
def TreeOk (s : State) : Prop :=
  s.treeValid = true → (∀ k < s.nnodes, (nodeAt s k).UnusedZero) ∧ ∃ t : CodeTree, HoldsTree s t ∧
    (s.decCur = s.root ∨ s.decCur ∈ t.internals) ∧
    (s.ctValid = true → ∀ x : Byte,
      codeBitsAt s x.toNat = t.erase.code x ∧ codeLenAt s x.toNat = (t.erase.code x).length)

/-- The invariants of 10_state.md R46, and those of the model's own form. -/
structure Inv (s : State) : Prop where
  caps : CapsLegal s
  lengths : LengthsInRange s
  arrays : ArraysOk s
  counts : CountsExact s
  flags : SessionFlagsOk s
  errors : ErrorsOk s
  tree : TreeOk s

end Sys2Proof.Machine
end

