-- ==== Sys2Proof/Certificates/Slice0/Obligations.lean ====
section
/-!
DEFINITION. The statements for the provers.  A statement about a next state is written as an update of
the state before, so that it also says what is unchanged.  Where a command has completed, such an update
says that PEND keeps the executed word; this is the model's choice (notes/assumptions/5.md), because the
spec lets PEND hold any value while BUSY = 0 (93_implementation_defined.md I10).
-/

open Sys2Proof Sys2Proof.Machine

/-! ### Encoding -/

/-- 30_encoding.md R71 to R73: a word decodes to a command exactly when it is the encoding of that
command, and the command is well-formed. -/
def Obligations.DecodeInvertsEncode : Prop :=
  ∀ (w : Word) (i : Instr), decode w = .ok i ↔ i.wellFormed = true ∧ encode i = w

/-- 30_encoding.md R74: the words that match no row, by the four cases of the rule.  The names of the
cases, and that a non-zero RSV is named first, are the model's (notes/assumptions/8.md). -/
def Obligations.IllegalWordsAreRejectedByCase : Prop :=
  ∀ w : Word,
    (decode w = .error .reservedNotZero ↔ w.extractLsb' 16 16 ≠ 0#16) ∧
    (decode w = .error .unknownOpcode ↔ w.extractLsb' 16 16 = 0#16 ∧
      w.extractLsb' 0 8 ∉ noneOpcodes ++ [0x11#8, 0x41#8, 0x61#8]) ∧
    (decode w = .error .argNotZero ↔ w.extractLsb' 16 16 = 0#16 ∧
      w.extractLsb' 0 8 ∈ noneOpcodes ∧ w.extractLsb' 8 8 ≠ 0#8) ∧
    (decode w = .error .argNotBit ↔ w.extractLsb' 16 16 = 0#16 ∧
      w.extractLsb' 0 8 = 0x61#8 ∧ w.extractLsb' 9 7 ≠ 0#7)

/-- Words written out from 30_encoding.md R73 and R76, one or more per family, and two illegal ones. -/
def Obligations.SampleWordsDecode : Prop :=
  decode 0x00000003#32 = .ok .xfer ∧ decode 0x00006111#32 = .ok (.fcPush 0x61#8) ∧
  decode 0x00000020#32 = .ok .tbBuild ∧ decode 0x00000030#32 = .ok .ctDerive ∧
  decode 0x00006241#32 = .ok (.encPush 0x62#8) ∧ decode 0x00000051#32 = .ok .tsDeserialize ∧
  decode 0x00000161#32 = .ok (.decBit 0x01#8) ∧ decode 0x00000073#32 = .ok .decompress ∧
  decode 0x00000261#32 = .error .argNotBit ∧ decode 0x00010012#32 = .error .reservedNotZero

/-! ### Steps, acceptance, bus accesses, reset -/

/-- 40_control.md R83, R84: the engine step decodes PEND and executes the command; a word that matches
no row raises ILLEGAL_CMD and changes nothing but the error registers.  That PEND keeps the executed word
is the model's (notes/assumptions/5.md). -/
def Obligations.StepRunsThePendingCommand : Prop :=
  ∀ (s : State) (rest : List Event), s.busy = true →
    (∀ i, decode s.pend = .ok i →
      (s.agenda = [] → step s = exec i s) ∧
      (s.agenda = .engine :: rest → step s = exec i { s with agenda := rest })) ∧
    (∀ e, decode s.pend = .error e →
      (s.agenda = [] → step s = .next (afterError 0x07#8 s)) ∧
      (s.agenda = .engine :: rest → step s = .next (afterError 0x07#8 { s with agenda := rest })))

/-- 20_memory.md R66: the other turns of the interleaving; the engine's turn changes nothing while
BUSY = 0 (60_exceptions.md R156).  30_encoding.md R77: a poll of a WAIT reads STATUS, and the WAIT ends
with the first poll that reads BUSY = 0.  70_reset_and_hazards.md R162: a run ends when the host has no
turn left and BUSY = 0, nothing changes after its end, and one with a refused access has no end.  That
the turns come from a list in the state is the model's (notes/assumptions/3.md). -/
def Obligations.StepTakesTheHostsTurns : Prop :=
  ∀ (s : State) (rest : List Event) (off n : Nat) (v : Word),
    (s.agenda = .busRead off n :: rest → step s = hostRead off n { s with agenda := rest }) ∧
    (s.agenda = .busWrite off n v :: rest → step s = hostWrite off n v { s with agenda := rest }) ∧
    (s.busy = false → s.agenda = .engine :: rest → step s = .next { s with agenda := rest }) ∧
    (s.agenda = .poll n :: rest → step s = .next { s with
      reads := statusWord s :: s.reads
      agenda := (if s.busy then if n = 0 then [.engine, .poll 0] else [.poll (n - 1)] else []) ++ rest }) ∧
    (runOver s = true ↔ s.agenda = [] ∧ s.busy = false) ∧
    (runOver s = true → step s = .next s ∧ endState n s = some s) ∧
    (∀ t, endState n s = some t → runOver t = true) ∧
    ∀ r, step s = .refused r → endState n s = none

/-- 40_control.md R82: acceptance of a command word at the CMD write. -/
def Obligations.CommandAcceptance : Prop :=
  ∀ (s : State) (v : Word),
    (s.busy = true → hostWrite 0x004 4 v s = .next { s with ovr := true }) ∧
    (s.busy = false → s.errCode ≠ 0#8 → v ≠ 0x00000001#32 → v ≠ 0x00000002#32 →
      hostWrite 0x004 4 v s = .next s) ∧
    (s.busy = false → (s.errCode = 0#8 ∨ v = 0x00000001#32 ∨ v = 0x00000002#32) →
      hostWrite 0x004 4 v s = .next { s with pend := v, busy := true, done := false })

/-- 20_memory.md R62: exactly the inadmissible accesses are refused, and every other one has a next
state. -/
def Obligations.InadmissibleAccessesAreRefused : Prop :=
  ∀ (s : State) (off n : Nat) (v : Word),
    (inadmissible off n → hostRead off n s = .refused (.inadmissibleAccess off n) ∧
      hostWrite off n v s = .refused (.inadmissibleAccess off n)) ∧
    (¬ inadmissible off n → (∃ t, hostRead off n s = .next t) ∧ ∃ t, hostWrite off n v s = .next t)

/-- 20_memory.md R63: a read returns one value to the host and changes nothing in the block.  The
list of returned values and the counter of free values are the model's (notes/assumptions/1.md,
notes/assumptions/4.md).  So no read changes the observation at the end of a run
(70_reset_and_hazards.md R162): it holds what reads return then, and depends neither on what has been
read, nor on the count of free values, nor on PEND, nor on stale nodes, stale codes or bytes from OUT_LEN
on (HZ5 of R160). -/
def Obligations.ReadsChangeNothing : Prop :=
  ∀ s : State,
    (∀ (t : State) (off n : Nat), hostRead off n s = .next t →
      t = { s with reads := t.reads, freeCtr := t.freeCtr } ∧ (∃ v, t.reads = v :: s.reads) ∧
      observation t = observation s) ∧
    (s.busy = false → CapsLegal s → ∀ p ∈ observation s, ∃ n,
      hostRead p.1 n s = .next { s with reads := p.2 :: s.reads }) ∧
    (∀ u : State, u = { s with
        reads := u.reads, freeCtr := u.freeCtr, pend := u.pend, agenda := u.agenda } →
      observation u = observation s) ∧
    (∀ nodes : Buf Node, (s.treeValid = true → s.root < s.nnodes ∧
        ∀ k < s.nnodes, arenaAt nodes k = nodeAt s k) →
      observation { s with node := nodes } = observation s) ∧
    (s.ctValid = false → ∀ lens codes,
      observation { s with codeLen := lens, codeBits := codes } = observation s) ∧
    ∀ a v, s.outLen ≤ a → observation { s with obuf := bufSet s.obuf a v } = observation s

/-- 20_memory.md R59: while BUSY = 1 seven registers read exactly, and every other register and every
window returns an arbitrary value.  That CMD (R20) and the offsets past the last element of a window
(R50) are among these, and that the reserved registers and the unmapped offsets still read 0, is the
model's reading (notes/assumptions/10.md). -/
def Obligations.BusyReads : Prop :=
  ∀ s : State, s.busy = true →
    (hostRead 0x000 4 s = .next { s with reads := 0x48554631#32 :: s.reads } ∧
      hostRead 0x008 4 s = .next { s with reads := statusWord s :: s.reads } ∧
      hostRead 0x00C 4 s = .next { s with reads := ((0#16 ++ s.errOp) ++ s.errCode) :: s.reads } ∧
      hostRead 0x010 4 s = .next { s with
        reads := BitVec.ofNat 32 (2 * s.errIe.toNat + s.doneIe.toNat) :: s.reads } ∧
      hostRead 0x038 4 s = .next { s with reads := BitVec.ofNat 32 s.ibufBytes :: s.reads } ∧
      hostRead 0x03C 4 s = .next { s with reads := BitVec.ofNat 32 s.obufBytes :: s.reads } ∧
      hostRead 0x040 4 s = .next { s with reads := BitVec.ofNat 32 s.cbufBits :: s.reads }) ∧
    ∀ off n, ¬ inadmissible off n →
      ((off ∈ [0x004, 0x014, 0x018, 0x01C, 0x020, 0x024, 0x028, 0x02C, 0x030, 0x034] ∨
          (0x1000 ≤ off ∧ wordRegion off) ∨ byteRegion off) →
        hostRead off n s = .next { s with
          reads := freeRead n s.freeCtr :: s.reads, freeCtr := s.freeCtr + 1 }) ∧
      ((0x044 ≤ off ∧ off ≤ 0xFFF) ∨ (¬ wordRegion off ∧ ¬ byteRegion off) →
        hostRead off n s = .next { s with reads := 0#32 :: s.reads })

/-- 10_state.md R19, R20, R23 to R34 and 20_memory.md R51: what the registers other than STATUS read
while BUSY = 0; reserved offsets of the register block and of the NODE window, and unmapped offsets, read
0 (R50, 93_implementation_defined.md I13). -/
def Obligations.IdleRegisterReads : Prop :=
  ∀ s : State, s.busy = false →
    (∀ p ∈ [(0x000, 0x48554631#32), (0x004, 0#32), (0x00C, (0#16 ++ s.errOp) ++ s.errCode),
        (0x010, BitVec.ofNat 32 (2 * s.errIe.toNat + s.doneIe.toNat)),
        (0x014, BitVec.ofNat 32 s.inLen), (0x018, BitVec.ofNat 32 s.outLen),
        (0x01C, BitVec.ofNat 32 s.total), (0x020, BitVec.ofNat 32 s.nsym),
        (0x024, BitVec.ofNat 32 s.root), (0x028, BitVec.ofNat 32 s.nnodes),
        (0x02C, BitVec.ofNat 32 s.hbits), (0x030, BitVec.ofNat 32 s.cbits),
        (0x034, BitVec.ofNat 32 s.decCur), (0x038, BitVec.ofNat 32 s.ibufBytes),
        (0x03C, BitVec.ofNat 32 s.obufBytes), (0x040, BitVec.ofNat 32 s.cbufBits)],
      hostRead p.1 4 s = .next { s with reads := p.2 :: s.reads }) ∧
    (∀ off, (0x044 ≤ off ∧ off ≤ 0xFFC) ∨ off = 0x2FF8 ∨ off = 0x2FFC → off % 4 = 0 →
      hostRead off 4 s = .next { s with reads := 0#32 :: s.reads }) ∧
    ∀ off n, ¬ inadmissible off n → ¬ wordRegion off → ¬ byteRegion off →
      hostRead off n s = .next { s with reads := 0#32 :: s.reads }

/-- 10_state.md R22 and 60_exceptions.md R146: every bit of the word a read of STATUS returns, whether
or not a command is pending. -/
def Obligations.StatusWordBits : Prop :=
  ∀ s : State, ∃ w : Word, hostRead 0x008 4 s = .next { s with reads := w :: s.reads } ∧
    w.getLsbD 0 = s.busy ∧ w.getLsbD 1 = s.done ∧ w.getLsbD 2 = decide (s.errCode ≠ 0#8) ∧
    w.getLsbD 3 = s.ovr ∧ w.getLsbD 4 = s.ftLock ∧ w.getLsbD 5 = s.treeValid ∧
    w.getLsbD 6 = s.ctValid ∧
    w.getLsbD 7 = (s.treeValid && decide ((nodeAt s s.root).kind = .leaf)) ∧
    w.getLsbD 8 = decide (s.decCur = s.root) ∧
    w.getLsbD 9 = ((s.done && s.doneIe) || ((decide (s.errCode ≠ 0#8) || s.ovr) && s.errIe)) ∧
    ∀ k, 10 ≤ k → w.getLsbD k = false

/-- 20_memory.md R52 to R54: the FREQ, NODE, CODE_LEN and CODE_BITS windows while BUSY = 0.  A stale
window returns an arbitrary value. -/
def Obligations.TableWindowReads : Prop :=
  ∀ (s : State), s.busy = false →
    (∀ x < 256, hostRead (0x1000 + 4 * x) 4 s =
      .next { s with reads := BitVec.ofNat 32 (freqAt s x) :: s.reads }) ∧
    (∀ i < 511, s.treeValid = true → i < s.nnodes →
      hostRead (0x2004 + 8 * i) 4 s =
        .next { s with reads := BitVec.ofNat 32 (nodeAt s i).weight :: s.reads } ∧
      ∃ w : Word, hostRead (0x2000 + 8 * i) 4 s = .next { s with reads := w :: s.reads } ∧
        w.getLsbD 31 = decide ((nodeAt s i).kind = .leaf) ∧ w.extractLsb' 26 5 = 0#5 ∧
        w.extractLsb' 17 9 = BitVec.ofNat 9 (nodeAt s i).right ∧
        w.extractLsb' 8 9 = BitVec.ofNat 9 (nodeAt s i).left ∧
        w.extractLsb' 0 8 = (nodeAt s i).sym) ∧
    (∀ x < 256, s.ctValid = true →
      hostRead (0x3000 + 4 * x) 4 s =
        .next { s with reads := BitVec.ofNat 32 (codeLenAt s x) :: s.reads } ∧
      ∀ j < 8, ∃ w : Word, hostRead (0x4000 + 32 * x + 4 * j) 4 s =
          .next { s with reads := w :: s.reads } ∧
        ∀ i < 32, w.getLsbD (31 - i) =
          (decide (32 * j + i < codeLenAt s x) && (codeBitsAt s x).getD (32 * j + i) false)) ∧
    (∀ i < 511, (s.treeValid = false ∨ s.nnodes ≤ i) → ∀ k < 2,
      hostRead (0x2000 + 8 * i + 4 * k) 4 s = .next { s with
        reads := freeRead 4 s.freeCtr :: s.reads, freeCtr := s.freeCtr + 1 }) ∧
    (s.ctValid = false → ∀ off, (0x3000 ≤ off ∧ off ≤ 0x33FC ∨ 0x4000 ≤ off ∧ off ≤ 0x5FFC) →
      off % 4 = 0 → hostRead off 4 s = .next { s with
        reads := freeRead 4 s.freeCtr :: s.reads, freeCtr := s.freeCtr + 1 })

/-- 20_memory.md R50, R55 to R58: the HDR, CBUF, IBUF and OBUF windows while BUSY = 0.  That a
byte of OBUF at or beyond OUT_LEN reads a value drawn at that read is the model's
(notes/assumptions/12.md); R58 says that the read returns `OBUF[a]`, which holds an unspecified value. -/
def Obligations.BufferWindowReads : Prop :=
  ∀ (s : State), s.busy = false →
    (∀ j < 80, ∃ w : Word, hostRead (0x6000 + 4 * j) 4 s = .next { s with reads := w :: s.reads } ∧
      ∀ i < 32, w.getLsbD (31 - i) = (decide (32 * j + i < s.hbits) && hdrAt s (32 * j + i))) ∧
    (∀ j < 0x400000, ∃ w : Word,
      hostRead (0x3000000 + 4 * j) 4 s = .next { s with reads := w :: s.reads } ∧
      (j < (s.cbufBits + 31) / 32 →
        ∀ i < 32, w.getLsbD (31 - i) = (decide (32 * j + i < s.cbits) && cbufAt s (32 * j + i))) ∧
      ((s.cbufBits + 31) / 32 ≤ j → w = 0#32)) ∧
    (∀ a < 0x1000000, hostRead (0x1000000 + a) 1 s = .next { s with
      reads := (if a < s.ibufBytes then (ibufAt s a).setWidth 32 else 0#32) :: s.reads }) ∧
    (∀ a < 0x1000000, a < s.obufBytes → a < s.outLen → hostRead (0x2000000 + a) 1 s =
      .next { s with reads := (obufAt s a).setWidth 32 :: s.reads }) ∧
    (∀ a < 0x1000000, a < s.obufBytes → s.outLen ≤ a → hostRead (0x2000000 + a) 1 s =
      .next { s with reads := freeRead 1 s.freeCtr :: s.reads, freeCtr := s.freeCtr + 1 }) ∧
    (∀ a < 0x1000000, s.obufBytes ≤ a → hostRead (0x2000000 + a) 1 s =
      .next { s with reads := 0#32 :: s.reads })

/-- 10_state.md R22, R24, R25 and 20_memory.md R57: the host's writes while BUSY = 0. -/
def Obligations.IdleWrites : Prop :=
  ∀ (s : State) (v : Word), s.busy = false →
    hostWrite 0x014 4 v s = .next { s with inLen := min v.toNat s.ibufBytes } ∧
    hostWrite 0x010 4 v s = .next { s with doneIe := v.getLsbD 0, errIe := v.getLsbD 1 } ∧
    hostWrite 0x008 4 v s = .next (if v.getLsbD 1 then { s with done := false } else s) ∧
    (∀ a < 0x1000000, ∃ t, hostWrite (0x1000000 + a) 1 v s = .next t ∧
      t = { s with ibuf := t.ibuf } ∧
      ∀ b, ibufAt t b = if b = a ∧ a < s.ibufBytes then v.setWidth 8 else ibufAt s b)

/-- 20_memory.md R60, R50, 60_exceptions.md R145: the host's writes while BUSY = 1, and the writes that
have no effect at any time.  That a byte write at or beyond IBUF_BYTES is one of these also while
BUSY = 1 is the model's reading (notes/assumptions/9.md). -/
def Obligations.BusyWrites : Prop :=
  ∀ (s : State) (v : Word),
    (s.busy = true →
      (∀ off n, off = 0x004 ∧ n = 4 ∨ off = 0x014 ∧ n = 4 ∨
          (n = 1 ∧ 0x1000000 ≤ off ∧ off < 0x1000000 + s.ibufBytes ∧ off ≤ 0x1FFFFFF) →
        hostWrite off n v s = .next { s with ovr := true }) ∧
      hostWrite 0x010 4 v s = .next { s with doneIe := v.getLsbD 0, errIe := v.getLsbD 1 } ∧
      hostWrite 0x008 4 v s = .next (if v.getLsbD 1 then { s with done := false } else s)) ∧
    ∀ off n, ¬ inadmissible off n → off ∉ [0x004, 0x008, 0x010, 0x014] →
      ¬ (0x1000000 ≤ off ∧ off < 0x1000000 + s.ibufBytes ∧ off ≤ 0x1FFFFFF) →
      hostWrite off n v s = .next s

/-- 70_reset_and_hazards.md R157, 10_state.md R47: the hardware reset, at any time.  A pending command
is discarded, the registers take their reset values, and every array is drawn anew.  PEND is left
open. -/
def Obligations.HardwareReset : Prop :=
  ∀ (s : State) (rest : List Event), s.agenda = .reset :: rest →
    ∃ t, step s = .next t ∧
      t = { State.resetWith s.ibufBytes s.obufBytes s.cbufBits with
        pend := t.pend, node := t.node, codeLen := t.codeLen, codeBits := t.codeBits, hdr := t.hdr
        cbuf := t.cbuf, ibuf := t.ibuf, obuf := t.obuf, freeCtr := t.freeCtr, agenda := rest
        reads := s.reads } ∧
      (t.node.cells = [] ∧ t.codeLen.cells = [] ∧ t.codeBits.cells = [] ∧ t.hdr.cells = [] ∧
        t.cbuf.cells = [] ∧ t.ibuf.cells = [] ∧ t.obuf.cells = []) ∧
      ∀ g ∈ [t.node.gen, t.codeLen.gen, t.codeBits.gen, t.hdr.gen, t.cbuf.gen, t.ibuf.gen, t.obuf.gen],
        s.freeCtr ≤ g ∧ g < t.freeCtr

/-- 10_state.md R47, 70_reset_and_hazards.md R158: after reset, at any legal capacities, the block is
idle, reads STATUS 0x100, and meets every invariant of R46.  The capacities of `State.reset` are the
model's (notes/assumptions/2.md). -/
def Obligations.ResetMeetsTheInvariants : Prop :=
  (∀ ib ob cb, CapsLegal (State.resetWith ib ob cb) →
    Inv (State.resetWith ib ob cb) ∧ statusWord (State.resetWith ib ob cb) = 0x100#32 ∧
      irq (State.resetWith ib ob cb) = false ∧ (State.resetWith ib ob cb).busy = false) ∧
  CapsLegal State.reset

/-! ### Commands with one effect, and the SEQUENCE checks -/

/-- 40_control.md R87 to R89, 41_frequency_counter.md R93, 44_bitstream_encoder.md R110,
45_bitstream_decoder.md R117: NOP, SOFT_RESET, CLR_ERR, FC_CLEAR and ENC_BEGIN always complete, and
DEC_BEGIN completes where there is a tree.  PEND after SOFT_RESET is open.  That it keeps the executed
word after the others is the model's (notes/assumptions/5.md). -/
def Obligations.OneEffectCommandsComplete : Prop :=
  ∀ s : State,
    exec .nop s = .next (afterDone s) ∧
    exec .softReset s = .next { State.resetWith s.ibufBytes s.obufBytes s.cbufBits with
      done := true, pend := Config.freeWord s.freeCtr, node := s.node, codeLen := s.codeLen
      codeBits := s.codeBits, hdr := s.hdr, cbuf := s.cbuf, ibuf := s.ibuf, obuf := s.obuf
      freeCtr := s.freeCtr + 1, agenda := s.agenda, reads := s.reads } ∧
    exec .clrErr s = .next (afterDone { s with errCode := 0#8, errOp := 0#8, ovr := false }) ∧
    exec .fcClear s = .next (afterDone { s with
      freq := [], total := 0, nsym := 0, ftLock := false, treeValid := false, ctValid := false
      root := 0, nnodes := 0, decCur := 0 }) ∧
    exec .encBegin s = .next (afterDone { s with cbits := 0 }) ∧
    (s.treeValid = true →
      exec .decBegin s = .next (afterDone { s with decCur := s.root, outLen := 0 }))

/-- 60_exceptions.md R142: every case of SEQUENCE, with no effect but the error.  That PEND keeps the
executed word is the model's (notes/assumptions/5.md). -/
def Obligations.SequenceErrors : Prop :=
  ∀ (s : State) (b arg : Byte),
    (s.ftLock = true → exec (.fcPush b) s = .next (afterError 0x05#8 s) ∧
      exec .fcScan s = .next (afterError 0x05#8 s)) ∧
    (s.total = 0 → exec .tbBuild s = .next (afterError 0x05#8 s)) ∧
    (s.treeValid = false → ∀ i ∈ [Instr.ctDerive, .tsSerialize, .decBegin, .decBit arg, .decEnd, .decRun],
      exec i s = .next (afterError 0x05#8 s)) ∧
    (s.ctValid = false → exec (.encPush b) s = .next (afterError 0x05#8 s) ∧
      exec .encScan s = .next (afterError 0x05#8 s)) ∧
    (s.hbits = 0 → exec .pack s = .next (afterError 0x05#8 s))

/-- 40_control.md R90: XFER copies the output to the input buffer, or raises LIMIT.  That PEND keeps the
executed word is the model's (notes/assumptions/5.md). -/
def Obligations.XferCopiesTheOutput : Prop :=
  ∀ s : State,
    (s.outLen ≤ s.ibufBytes → ∃ t, exec .xfer s = .next t ∧
      t = afterDone { s with ibuf := t.ibuf, inLen := s.outLen } ∧
      ∀ a, ibufAt t a = if a < s.outLen then obufAt s a else ibufAt s a) ∧
    (s.ibufBytes < s.outLen → exec .xfer s = .next (afterError 0x06#8 s))

/-! ### Frequency counter -/

/-- 41_frequency_counter.md R92, R94: FC_PUSH counts its byte, or raises LIMIT.  That PEND keeps the
executed word is the model's (notes/assumptions/5.md). -/
def Obligations.FcPushCountsOneByte : Prop :=
  ∀ (s : State) (b : Byte), s.ftLock = false →
    (s.total ≠ 2 ^ 32 - 1 → ∃ t, exec (.fcPush b) s = .next t ∧
      t = afterDone { s with
        freq := t.freq, total := s.total + 1
        nsym := if freqAt s b.toNat = 0 then s.nsym + 1 else s.nsym } ∧
      ∀ x, freqAt t x = if x = b.toNat then freqAt s x + 1 else freqAt s x) ∧
    (s.total = 2 ^ 32 - 1 → exec (.fcPush b) s = .next (afterError 0x06#8 s))

/-- 41_frequency_counter.md R95, R96: FC_SCAN adds the number of occurrences of each byte in the input,
and keeps the counts exact; or, where the counts would pass `2^32 - 1`, it raises LIMIT and has no
effect.  That PEND keeps the executed word is the model's (notes/assumptions/5.md). -/
def Obligations.FcScanCountsTheInput : Prop :=
  ∀ s : State, s.ftLock = false →
    (s.total + s.inLen ≤ 2 ^ 32 - 1 → ∃ t, exec .fcScan s = .next t ∧
      t = afterDone { s with freq := t.freq, total := s.total + s.inLen, nsym := t.nsym } ∧
      (∀ x : Byte, freqAt t x.toNat = freqAt s x.toNat + (inputBytes s).count x) ∧
      (CountsExact s → CountsExact t)) ∧
    (s.total ≤ 2 ^ 32 - 1 → 2 ^ 32 - 1 < s.total + s.inLen →
      exec .fcScan s = .next (afterError 0x06#8 s))

/-! ### Tree builder and code table -/

/-- 42_tree_builder.md R99 to R101: from a table with a count TB_BUILD builds one full tree over the
symbols with a count.  ROOT is the last node, the leaves come first in ascending symbol order with
their counts as weights, every Internal node has a greater index than its children and the sum of
their weights, and the root's weight is TOTAL.  Every Leaf has LEFT = RIGHT = 0 and every Internal node
SYM = 0 (10_state.md R37).  That PEND keeps the executed word is the model's (notes/assumptions/5.md). -/
def Obligations.TbBuildBuildsOneFullTree : Prop :=
  ∀ s : State, CountsExact s → 0 < s.total → ∃ t tree, exec .tbBuild s = .next t ∧
    t = afterDone { s with
      node := t.node, root := 2 * s.nsym - 2, nnodes := 2 * s.nsym - 1, treeValid := true
      ctValid := false, ftLock := true, decCur := 2 * s.nsym - 2 } ∧
    HoldsTree t tree ∧ (∀ x : Byte, x ∈ tree.erase.symbols ↔ 0 < freqAt s x.toNat) ∧
    (nodeAt t t.root).weight = s.total ∧
    (∀ k < s.nsym, (nodeAt t k).kind = .leaf ∧
      (nodeAt t k).weight = freqAt s (nodeAt t k).sym.toNat ∧
      ∀ j < k, (nodeAt t j).sym < (nodeAt t k).sym) ∧
    (∀ k, s.nsym ≤ k → k < t.nnodes → (nodeAt t k).kind = .internal ∧
      (nodeAt t k).left < k ∧ (nodeAt t k).right < k ∧
      (nodeAt t k).weight =
        (nodeAt t (nodeAt t k).left).weight + (nodeAt t (nodeAt t k).right).weight) ∧
    (∀ k < t.nnodes, (nodeAt t k).UnusedZero) ∧
    ∀ k, t.nnodes ≤ k → nodeAt t k = nodeAt s k

/-- 42_tree_builder.md R97, R98: the tie-break and the child order.  By the key (weight, index), the
left child of a merge comes before the right one, and both come before the children of every later
merge. -/
def Obligations.MergesFollowTheKeyOrder : Prop :=
  ∀ s t : State, CountsExact s → 0 < s.total → exec .tbBuild s = .next t →
    ∀ k, s.nsym ≤ k → k < t.nnodes →
      keyLess t.node (nodeAt t k).left (nodeAt t k).right = true ∧
      ∀ k', k < k' → k' < t.nnodes →
        keyLess t.node (nodeAt t k).right (nodeAt t k').left = true

/-- 42_tree_builder.md R102: TB_BUILD is a function of FREQ alone. -/
def Obligations.TbBuildDependsOnFreqAlone : Prop :=
  ∀ s s' t t' : State, CountsExact s → CountsExact s' → 0 < s.total →
    (∀ x < 256, freqAt s x = freqAt s' x) → exec .tbBuild s = .next t → exec .tbBuild s' = .next t' →
    t.root = t'.root ∧ t.nnodes = t'.nnodes ∧ ∀ k < t.nnodes, nodeAt t k = nodeAt t' k

/-- 42_tree_builder.md R103: a symbol with a strictly higher count never has a strictly longer code. -/
def Obligations.HigherCountNoLongerCode : Prop :=
  ∀ (s t u : State) (x y : Byte), CountsExact s → 0 < s.total → exec .tbBuild s = .next t →
    exec .ctDerive t = .next u → 0 < freqAt s y.toNat → freqAt s y.toNat < freqAt s x.toNat →
    codeLenAt u x.toNat ≤ codeLenAt u y.toNat

/-- 43_code_table_deriver.md R104, R105: CT_DERIVE gives each leaf symbol its root-to-leaf path, the
one-bit code `0` in a degenerate tree, and every other symbol no code.  That PEND keeps the executed word
is the model's (notes/assumptions/5.md). -/
def Obligations.CtDeriveGivesThePaths : Prop :=
  ∀ (s : State) (tree : CodeTree), s.treeValid = true → HoldsTree s tree →
    ∃ t, exec .ctDerive s = .next t ∧
      t = afterDone { s with codeLen := t.codeLen, codeBits := t.codeBits, ctValid := true } ∧
      ∀ x : Byte, codeBitsAt t x.toNat = tree.erase.code x ∧
        codeLenAt t x.toNat = (tree.erase.code x).length ∧
        (0 < codeLenAt t x.toNat ↔ x ∈ tree.erase.symbols)

/-- 43_code_table_deriver.md R106: after CT_DERIVE no code is a prefix of another. -/
def Obligations.CodesArePrefixFree : Prop :=
  ∀ (s t : State) (tree : CodeTree), s.treeValid = true → HoldsTree s tree →
    exec .ctDerive s = .next t → ∀ x y : Byte, x ≠ y → 0 < codeLenAt t x.toNat →
    0 < codeLenAt t y.toNat → ¬ codeBitsAt t x.toNat <+: codeBitsAt t y.toNat

/-! ### Encoder -/

/-- 44_bitstream_encoder.md R108, R109, R111: ENC_PUSH appends the code of its byte, or raises
INVARIANT or LIMIT and has no effect.  That PEND keeps the executed word is the model's
(notes/assumptions/5.md). -/
def Obligations.EncPushAppendsOneCode : Prop :=
  ∀ (s : State) (b : Byte), s.ctValid = true →
    (codeLenAt s b.toNat = 0 → exec (.encPush b) s = .next (afterError 0x04#8 s)) ∧
    (codeLenAt s b.toNat ≠ 0 → s.cbufBits < s.cbits + (codeOf s b.toNat).length →
      exec (.encPush b) s = .next (afterError 0x06#8 s)) ∧
    (codeLenAt s b.toNat ≠ 0 → s.cbits + (codeOf s b.toNat).length ≤ s.cbufBits →
      ∃ t, exec (.encPush b) s = .next t ∧
        t = afterDone { s with cbuf := t.cbuf, cbits := s.cbits + (codeOf s b.toNat).length } ∧
        contentBits t = contentBits s ++ (codeBitsAt s b.toNat).take (codeLenAt s b.toNat) ∧
        ∀ k, k < s.cbits ∨ t.cbits ≤ k → cbufAt t k = cbufAt s k)

/-- 44_bitstream_encoder.md R112: ENC_SCAN appends the codes of the input in order.  The first byte that
fails decides the error, and the scan then has no effect.  That PEND keeps the executed word is the
model's (notes/assumptions/5.md). -/
def Obligations.EncScanAppendsTheInput : Prop :=
  ∀ s : State, s.ctValid = true →
    ((∀ b ∈ inputBytes s, codeLenAt s b.toNat ≠ 0) →
      s.cbits + ((inputBytes s).flatMap fun b => codeOf s b.toNat).length ≤ s.cbufBits →
      ∃ t, exec .encScan s = .next t ∧
        t = afterDone { s with cbuf := t.cbuf, cbits := t.cbits } ∧
        contentBits t = contentBits s ++ ((inputBytes s).flatMap fun b => codeOf s b.toNat) ∧
        ∀ k, k < s.cbits ∨ t.cbits ≤ k → cbufAt t k = cbufAt s k) ∧
    ∀ (before : List Byte) (b : Byte) (after : List Byte), inputBytes s = before ++ b :: after →
      (∀ c ∈ before, codeLenAt s c.toNat ≠ 0) →
      s.cbits + (before.flatMap fun c => codeOf s c.toNat).length ≤ s.cbufBits →
      (codeLenAt s b.toNat = 0 → exec .encScan s = .next (afterError 0x04#8 s)) ∧
      (codeLenAt s b.toNat ≠ 0 →
        s.cbufBits < s.cbits + ((before ++ [b]).flatMap fun c => codeOf s c.toNat).length →
        exec .encScan s = .next (afterError 0x06#8 s))

/-! ### Decoder -/

/-- 45_bitstream_decoder.md R115, R116, R118: DEC_BIT moves the cursor by one bit, emits the symbol of
a leaf it reaches, and returns the cursor to ROOT; in a degenerate tree either bit emits the one
symbol.  Where a symbol would be emitted into a full OBUF it raises LIMIT and nothing moves.  That PEND
keeps the executed word is the model's (notes/assumptions/5.md). -/
def Obligations.DecBitConsumesOneBit : Prop :=
  ∀ (s : State) (arg : Byte), s.treeValid = true →
    let next := if arg.getLsbD 0 then (nodeAt s s.decCur).right else (nodeAt s s.decCur).left
    ((nodeAt s s.root).kind = .leaf → s.outLen ≠ s.obufBytes →
      ∃ t, exec (.decBit arg) s = .next t ∧
        t = afterDone { s with obuf := t.obuf, outLen := s.outLen + 1 } ∧
        ∀ a, obufAt t a = if a = s.outLen then (nodeAt s s.root).sym else obufAt s a) ∧
    ((nodeAt s s.root).kind = .internal → (nodeAt s next).kind = .leaf → s.outLen ≠ s.obufBytes →
      ∃ t, exec (.decBit arg) s = .next t ∧
        t = afterDone { s with obuf := t.obuf, outLen := s.outLen + 1, decCur := s.root } ∧
        ∀ a, obufAt t a = if a = s.outLen then (nodeAt s next).sym else obufAt s a) ∧
    ((nodeAt s s.root).kind = .internal → (nodeAt s next).kind = .internal →
      exec (.decBit arg) s = .next (afterDone { s with decCur := next })) ∧
    (((nodeAt s s.root).kind = .leaf ∨ (nodeAt s next).kind = .leaf) → s.outLen = s.obufBytes →
      exec (.decBit arg) s = .next (afterError 0x06#8 s))

/-- 45_bitstream_decoder.md R119: DEC_END succeeds exactly with the cursor at ROOT; else it raises
TRUNCATED_CONTENT and withdraws the output.  That PEND keeps the executed word is the model's
(notes/assumptions/5.md). -/
def Obligations.DecEndChecksTheCursor : Prop :=
  ∀ s : State, s.treeValid = true →
    (s.decCur = s.root → exec .decEnd s = .next (afterDone s)) ∧
    (s.decCur ≠ s.root → exec .decEnd s =
      .next (afterError 0x02#8 { s with outLen := 0, decCur := s.root }))

/-- 45_bitstream_decoder.md R120, R121: DEC_RUN on the concatenated codes of a byte sequence gives the
sequence; on a degenerate tree any content gives one copy of the symbol per bit.  That PEND keeps the
executed word is the model's (notes/assumptions/5.md). -/
def Obligations.DecRunDecodesTheCodes : Prop :=
  ∀ (s : State) (tree : CodeTree) (bs : List Byte), s.treeValid = true → HoldsTree s tree →
    (contentBits s = tree.erase.encode bs ∧ (∀ b ∈ bs, b ∈ tree.erase.symbols) ∨
      ∃ x, tree.erase = .leaf x ∧ bs = List.replicate s.cbits x) →
    bs.length ≤ s.obufBytes →
    ∃ t, exec .decRun s = .next t ∧
      t = afterDone { s with obuf := t.obuf, outLen := bs.length, decCur := s.root } ∧
      outputBytes t = bs ∧ ∀ a, bs.length ≤ a → obufAt t a = obufAt s a

/-- 45_bitstream_decoder.md R120: DEC_RUN raises TRUNCATED_CONTENT where the content ends inside a code,
and LIMIT where the output does not fit OBUF, whatever bits follow; on a degenerate tree, where the content
has more bits than OBUF has bytes, whatever the bits are.  Either way the output is empty, the cursor is at
ROOT, and OBUF is drawn anew.  That PEND keeps the executed word is the model's (notes/assumptions/5.md). -/
def Obligations.DecRunErrors : Prop :=
  ∀ (s : State) (tree : CodeTree) (bs : List Byte) (p q rest : Bits) (x : Byte),
    s.treeValid = true → HoldsTree s tree → (∀ b ∈ bs, b ∈ tree.erase.symbols) →
    (bs.length ≤ s.obufBytes → tree.erase.code x = p ++ q → p ≠ [] → q ≠ [] →
      contentBits s = tree.erase.encode bs ++ p →
      exec .decRun s = .next (afterError 0x02#8 { s with
        outLen := 0, decCur := s.root, obuf := ⟨s.freeCtr, []⟩, freeCtr := s.freeCtr + 1 })) ∧
    (s.obufBytes < bs.length → contentBits s = tree.erase.encode bs ++ rest →
      exec .decRun s = .next (afterError 0x06#8 { s with
        outLen := 0, decCur := s.root, obuf := ⟨s.freeCtr, []⟩, freeCtr := s.freeCtr + 1 })) ∧
    (tree.erase = .leaf x → s.obufBytes < s.cbits →
      exec .decRun s = .next (afterError 0x06#8 { s with
        outLen := 0, decCur := s.root, obuf := ⟨s.freeCtr, []⟩, freeCtr := s.freeCtr + 1 }))

/-! ### Serializer -/

/-- 46_tree_serializer.md R122 to R124: TS_SERIALIZE writes the tree's header, `10·L - 1` bits.  That PEND
keeps the executed word is the model's (notes/assumptions/5.md). -/
def Obligations.TsSerializeWritesTheHeader : Prop :=
  ∀ (s : State) (tree : CodeTree), s.treeValid = true → HoldsTree s tree →
    ∃ t, exec .tsSerialize s = .next t ∧
      t = afterDone { s with hdr := t.hdr, hbits := 10 * tree.erase.symbols.length - 1 } ∧
      headerBits t = tree.erase.header ∧ ∀ k, t.hbits ≤ k → hdrAt t k = hdrAt s k

/-- 46_tree_serializer.md R125, R126: from the header of a tree with distinct leaf symbols
TS_DESERIALIZE rebuilds that tree, numbered in pre-order from 0, with weights 0 (R38), and with 0 in the
fields a node does not use (R37).  That PEND keeps the executed word is the model's (notes/assumptions/5.md). -/
def Obligations.TsDeserializeRebuildsTheTree : Prop :=
  ∀ (s : State) (tree : SymTree), headerBits s = tree.header → tree.symbols.Nodup →
    ∃ t, exec .tsDeserialize s = .next t ∧
      t = afterDone { s with
        node := t.node, root := 0, nnodes := 2 * tree.symbols.length - 1, treeValid := true
        ctValid := false, decCur := 0 } ∧
      HoldsTree t (tree.number 0) ∧ (∀ k < t.nnodes, (nodeAt t k).weight = 0 ∧ (nodeAt t k).UnusedZero) ∧
      ∀ k, t.nnodes ≤ k → nodeAt t k = nodeAt s k

/-- 46_tree_serializer.md R125, R126, 60_exceptions.md R138: every other header raises CORRUPT_HEADER,
and the previous tree is gone.  That PEND keeps the executed word is the model's (notes/assumptions/5.md). -/
def Obligations.TsDeserializeRejectsOtherHeaders : Prop :=
  ∀ s : State, (∀ tree : SymTree, tree.symbols.Nodup → headerBits s ≠ tree.header) →
    exec .tsDeserialize s = .next (afterError 0x01#8 { s with
      treeValid := false, ctValid := false, root := 0, nnodes := 0, decCur := 0
      node := ⟨s.freeCtr, []⟩, freeCtr := s.freeCtr + 1 })

/-- 46_tree_serializer.md R127: TS_SERIALIZE followed by TS_DESERIALIZE raises no error and rebuilds a
tree of the identical shape. -/
def Obligations.SerializeThenDeserialize : Prop :=
  ∀ (s : State) (tree : CodeTree), s.treeValid = true → HoldsTree s tree →
    ∃ t u tree', exec .tsSerialize s = .next t ∧ exec .tsDeserialize t = .next u ∧
      u.errCode = s.errCode ∧ u.treeValid = true ∧ HoldsTree u tree' ∧ tree'.erase = tree.erase

/-! ### Container and the top-level operations -/

/-- 47_container.md R129, 30_encoding.md R80: PACK writes the artifact of HDR and CBUF, or raises
LIMIT with OUT_LEN 0.  R78: bit `7 - i` of byte `k` of the packed header is header bit `8k + i`, or 0
beyond the header's end; so with the content.  That PEND keeps the executed word is the model's
(notes/assumptions/5.md). -/
def Obligations.PackWritesTheArtifact : Prop :=
  ∀ s : State, s.hbits ≠ 0 →
    (6 + ceil8 s.hbits + ceil8 s.cbits ≤ s.obufBytes → ∃ t, exec .pack s = .next t ∧
      t = afterDone { s with obuf := t.obuf, outLen := 6 + ceil8 s.hbits + ceil8 s.cbits } ∧
      outputBytes t = artifactOf (headerBits s) (contentBits s) ∧
      (∀ k < ceil8 s.hbits, ∀ i < 8, (obufAt t (6 + k)).getLsbD (7 - i) =
        (decide (8 * k + i < s.hbits) && hdrAt s (8 * k + i))) ∧
      (∀ k < ceil8 s.cbits, ∀ i < 8, (obufAt t (6 + ceil8 s.hbits + k)).getLsbD (7 - i) =
        (decide (8 * k + i < s.cbits) && cbufAt s (8 * k + i))) ∧
      ∀ a, t.outLen ≤ a → obufAt t a = obufAt s a) ∧
    (s.obufBytes < 6 + ceil8 s.hbits + ceil8 s.cbits →
      exec .pack s = .next (afterError 0x06#8 { s with outLen := 0 }))

/-- 47_container.md R130: UNPACK of a container whose fields are consistent.  The pad bits, whatever
they are, are ignored.  30_encoding.md R78: header bit `8k + i` is bit `7 - i` of the header's byte `k`; so
with the content.  That PEND keeps the executed word is the model's (notes/assumptions/5.md). -/
def Obligations.UnpackSplitsTheArtifact : Prop :=
  ∀ (s : State) (h n : Nat) (hb cb : List Byte),
    inputBytes s = lengthFields h n ++ hb ++ cb → hb.length = ceil8 h → cb.length = ceil8 n →
    1 ≤ h → h ≤ 2559 → n < 2 ^ 32 → n ≤ s.cbufBits →
    ∃ t, exec .unpack s = .next t ∧
      t = afterDone { s with hdr := t.hdr, cbuf := t.cbuf, hbits := h, cbits := n } ∧
      headerBits t = (hb.flatMap bits8).take h ∧ contentBits t = (cb.flatMap bits8).take n ∧
      (∀ k < h, hdrAt t k = (hb.getD (k / 8) 0#8).getLsbD (7 - k % 8)) ∧
      (∀ k < n, cbufAt t k = (cb.getD (k / 8) 0#8).getLsbD (7 - k % 8)) ∧
      (∀ k, h ≤ k → hdrAt t k = hdrAt s k) ∧ ∀ k, n ≤ k → cbufAt t k = cbufAt s k

/-- 47_container.md R130: UNPACK's errors in the order of its checks, each with HBITS and CBITS 0.  That
PEND keeps the executed word is the model's (notes/assumptions/5.md). -/
def Obligations.UnpackErrors : Prop :=
  ∀ (s : State), s.inLen ≠ 0 →
    let h := natOfBytes (ibufSlice s 0 2)
    let n := natOfBytes (ibufSlice s 2 4)
    let failed := fun code => Host.Outcome.next (afterError code { s with hbits := 0, cbits := 0 })
    (s.inLen < 6 → exec .unpack s = failed 0x01#8) ∧
    (6 ≤ s.inLen → h = 0 ∨ 2559 < h → exec .unpack s = failed 0x01#8) ∧
    (1 ≤ h → h ≤ 2559 → 6 ≤ s.inLen → s.inLen < 6 + ceil8 h → exec .unpack s = failed 0x01#8) ∧
    (1 ≤ h → h ≤ 2559 → 6 + ceil8 h ≤ s.inLen → s.inLen < 6 + ceil8 h + ceil8 n →
      exec .unpack s = failed 0x02#8) ∧
    (1 ≤ h → h ≤ 2559 → 6 + ceil8 h + ceil8 n < s.inLen → exec .unpack s = failed 0x01#8) ∧
    (1 ≤ h → h ≤ 2559 → s.inLen = 6 + ceil8 h + ceil8 n → s.cbufBits < n →
      exec .unpack s = failed 0x06#8)

/-- 60_exceptions.md R137, 30_encoding.md R81, 47_container.md R130 to R132: with IN_LEN = 0, COMPRESS
gives the empty artifact, DECOMPRESS the empty output and UNPACK an empty header, without an error.  That
PEND keeps the executed word is the model's (notes/assumptions/5.md). -/
def Obligations.EmptyInputIsNoError : Prop :=
  ∀ s : State, s.inLen = 0 →
    exec .compress s = .next (afterDone (cleared s)) ∧
    exec .decompress s = .next (afterDone (cleared s)) ∧
    exec .unpack s = .next (afterDone { s with hbits := 0, cbits := 0 })

/-- 47_container.md R131: on a non-empty input, with buffers large enough for any codes of 255 bits
(00_scope.md R8), COMPRESS raises no error and leaves what `Compressed` says: the counts of the input, the
tree TB_BUILD makes of them, its code table, and the artifact of the input under that tree.  That PEND
keeps the executed word is the model's (notes/assumptions/5.md). -/
def Obligations.CompressProducesTheArtifact : Prop :=
  ∀ s : State, CapsLegal s → LengthsInRange s → 0 < s.inLen → 255 * s.inLen ≤ s.cbufBits →
    326 + ceil8 (255 * s.inLen) ≤ s.obufBytes →
    ∃ t tree, exec .compress s = .next t ∧ Compressed s t tree

/-- 47_container.md R131: on a non-empty input COMPRESS raises no error exactly when, under the tree that
TB_BUILD makes of the counts of the input, the content fits CBUF and the artifact fits OBUF.  Otherwise it
raises LIMIT: the session is cleared, the lengths are 0, and NODE, CODE_LEN, CODE_BITS, HDR, CBUF and OBUF
are drawn anew.  That PEND keeps the executed word is the model's (notes/assumptions/5.md). -/
def Obligations.CompressFailsWithLimitOnly : Prop :=
  ∀ (s u v : State) (tree : CodeTree), CapsLegal s → LengthsInRange s → 0 < s.inLen →
    CountsAre u (inputBytes s) → exec .tbBuild u = .next v → HoldsTree v tree →
    ∃ t, exec .compress s = .next t ∧
      (CompressFits s tree.erase → Compressed s t tree) ∧
      (¬ CompressFits s tree.erase →
        t = afterError 0x06#8 { cleared s with
          node := t.node, codeLen := t.codeLen, codeBits := t.codeBits, hdr := t.hdr, cbuf := t.cbuf
          obuf := t.obuf, freeCtr := t.freeCtr } ∧
        (t.node.cells = [] ∧ t.codeLen.cells = [] ∧ t.codeBits.cells = [] ∧ t.hdr.cells = [] ∧
          t.cbuf.cells = [] ∧ t.obuf.cells = []) ∧
        ∀ g ∈ [t.node.gen, t.codeLen.gen, t.codeBits.gen, t.hdr.gen, t.cbuf.gen, t.obuf.gen],
          s.freeCtr ≤ g ∧ g < t.freeCtr)

/-- 47_container.md R132: DECOMPRESS of a container that holds the header of a tree with distinct leaf
symbols, and the codes of a byte sequence under that tree, gives the sequence; under a degenerate tree any
content of `n` bits gives `n` copies of the symbol.  The pad bits of header and content, whatever they are,
are ignored.  It leaves that tree, numbered in pre-order, and no counts.  That PEND keeps the executed
word is the model's (notes/assumptions/5.md). -/
def Obligations.DecompressReadsTheArtifact : Prop :=
  ∀ (s : State) (tree : SymTree) (bs : List Byte) (n : Nat) (hb cb : List Byte),
    tree.symbols.Nodup → inputBytes s = lengthFields tree.header.length n ++ hb ++ cb →
    hb.length = ceil8 tree.header.length → cb.length = ceil8 n →
    (hb.flatMap bits8).take tree.header.length = tree.header →
    ((cb.flatMap bits8).take n = tree.encode bs ∧ (∀ b ∈ bs, b ∈ tree.symbols) ∨
      ∃ x, tree = .leaf x ∧ bs = List.replicate n x) →
    n < 2 ^ 32 → n ≤ s.cbufBits → bs.length ≤ s.obufBytes →
    ∃ t, exec .decompress s = .next t ∧
      t = afterDone { cleared s with
        node := t.node, nnodes := 2 * tree.symbols.length - 1, treeValid := true, hdr := t.hdr
        hbits := tree.header.length, cbuf := t.cbuf, cbits := n, obuf := t.obuf
        outLen := bs.length } ∧
      HoldsTree t (tree.number 0) ∧ (∀ k < t.nnodes, (nodeAt t k).UnusedZero) ∧
      headerBits t = tree.header ∧ contentBits t = (cb.flatMap bits8).take n ∧ outputBytes t = bs

/-- 47_container.md R132: DECOMPRESS always answers a next state.  On a non-empty input it raises the error
of UNPACK on that input; where UNPACK raises none, that of TS_DESERIALIZE on what UNPACK leaves; where that
raises none, that of DEC_RUN on what TS_DESERIALIZE leaves; and where that raises none, no error.  The error
is CORRUPT_HEADER, TRUNCATED_CONTENT or LIMIT; then the session is cleared, the lengths are 0, and NODE,
HDR, CBUF and OBUF are drawn anew.  That PEND keeps the executed word is the model's
(notes/assumptions/5.md). -/
def Obligations.DecompressFailsCleanly : Prop :=
  ∀ s : State, s.errCode = 0#8 →
    ∃ t, exec .decompress s = .next t ∧
      (t.errCode = 0#8 ∨
        (∃ code ∈ [0x01#8, 0x02#8, 0x06#8], t = afterError code { cleared s with
          node := t.node, hdr := t.hdr, cbuf := t.cbuf, obuf := t.obuf, freeCtr := t.freeCtr }) ∧
        (t.node.cells = [] ∧ t.hdr.cells = [] ∧ t.cbuf.cells = [] ∧ t.obuf.cells = []) ∧
        ∀ g ∈ [t.node.gen, t.hdr.gen, t.cbuf.gen, t.obuf.gen], s.freeCtr ≤ g ∧ g < t.freeCtr) ∧
      (s.inLen = 0 → t.errCode = 0#8) ∧
      (s.inLen ≠ 0 → ∃ a b c, exec .unpack s = .next a ∧ exec .tsDeserialize a = .next b ∧
        exec .decRun b = .next c ∧
        t.errCode = if a.errCode ≠ 0#8 then a.errCode
          else if b.errCode ≠ 0#8 then b.errCode else c.errCode)

/-- 47_container.md R133: the round-trip law.  Where COMPRESS and then XFER raise no error, DECOMPRESS
gives the input back, or raises LIMIT exactly when the input is longer than OBUF. -/
def Obligations.CompressDecompressRoundTrip : Prop :=
  ∀ s a b : State, CapsLegal s → LengthsInRange s → s.errCode = 0#8 →
    exec .compress s = .next a → a.errCode = 0#8 → exec .xfer a = .next b → b.errCode = 0#8 →
    ∃ c, exec .decompress b = .next c ∧
      (s.inLen ≤ s.obufBytes → c.errCode = 0#8 ∧ c.outLen = s.inLen ∧ outputBytes c = inputBytes s) ∧
      (s.obufBytes < s.inLen → c.errCode = 0x06#8)

/-- 47_container.md R134: the result of COMPRESS depends only on the input bytes and on CBUF_BITS and
OBUF_BYTES. -/
def Obligations.CompressDependsOnTheInputAlone : Prop :=
  ∀ s s' t t' : State, CapsLegal s → LengthsInRange s → CapsLegal s' → LengthsInRange s' →
    s.errCode = 0#8 → s'.errCode = 0#8 → inputBytes s = inputBytes s' → s.cbufBits = s'.cbufBits →
    s.obufBytes = s'.obufBytes → exec .compress s = .next t → exec .compress s' = .next t' →
    t.errCode = t'.errCode ∧ outputBytes t = outputBytes t'

/-- 47_container.md R135: an artifact that COMPRESS produced from a non-empty input, less its last
byte, makes DECOMPRESS raise TRUNCATED_CONTENT. -/
def Obligations.TruncatedArtifactIsDetected : Prop :=
  ∀ s a d : State, CapsLegal s → LengthsInRange s → s.errCode = 0#8 → 0 < s.inLen →
    exec .compress s = .next a → a.errCode = 0#8 → inputBytes d = (outputBytes a).dropLast →
    ∃ e, exec .decompress d = .next e ∧ e.errCode = 0x02#8 ∧ e.outLen = 0

/-! ### Frames -/

/-- Frame of the control commands: what NOP, CLR_ERR, SOFT_RESET and XFER leave unchanged.  That PEND keeps
the executed word is the model's (notes/assumptions/5.md). -/
def Obligations.ControlCommandsFrame : Prop :=
  ∀ s t : State,
    (exec .nop s = .next t → t = { s with busy := t.busy, done := t.done }) ∧
    (exec .clrErr s = .next t → t = { s with
      busy := t.busy, done := t.done, errCode := t.errCode, errOp := t.errOp, ovr := t.ovr }) ∧
    (exec .softReset s = .next t → t.ibufBytes = s.ibufBytes ∧ t.obufBytes = s.obufBytes ∧
      t.cbufBits = s.cbufBits ∧ t.node = s.node ∧ t.codeLen = s.codeLen ∧ t.codeBits = s.codeBits ∧
      t.hdr = s.hdr ∧ t.cbuf = s.cbuf ∧ (∀ a, ibufAt t a = ibufAt s a) ∧
      (∀ a, obufAt t a = obufAt s a) ∧ t.agenda = s.agenda ∧ t.reads = s.reads) ∧
    (exec .xfer s = .next t → t = { s with
        busy := t.busy, done := t.done, errCode := t.errCode, errOp := t.errOp, inLen := t.inLen
        ibuf := t.ibuf } ∧
      ∀ a, s.outLen ≤ a → ibufAt t a = ibufAt s a)

/-- Frame of the frequency counter: FC_CLEAR, FC_PUSH and FC_SCAN.  That PEND keeps the executed word is the
model's (notes/assumptions/5.md). -/
def Obligations.FrequencyCounterFrame : Prop :=
  ∀ (s t : State) (b : Byte),
    (exec .fcClear s = .next t → t = { s with
      busy := t.busy, done := t.done, freq := t.freq, total := t.total, nsym := t.nsym
      ftLock := t.ftLock, treeValid := t.treeValid, ctValid := t.ctValid, root := t.root
      nnodes := t.nnodes, decCur := t.decCur }) ∧
    (exec (.fcPush b) s = .next t → t = { s with
        busy := t.busy, done := t.done, errCode := t.errCode, errOp := t.errOp, freq := t.freq
        total := t.total, nsym := t.nsym } ∧
      ∀ x, x ≠ b.toNat → freqAt t x = freqAt s x) ∧
    (exec .fcScan s = .next t → t = { s with
        busy := t.busy, done := t.done, errCode := t.errCode, errOp := t.errOp, freq := t.freq
        total := t.total, nsym := t.nsym } ∧
      ∀ x : Byte, x ∉ inputBytes s → freqAt t x.toNat = freqAt s x.toNat)

/-- Frame of the tree commands: TB_BUILD, CT_DERIVE, TS_SERIALIZE and TS_DESERIALIZE.  That PEND keeps the
executed word is the model's (notes/assumptions/5.md). -/
def Obligations.TreeCommandsFrame : Prop :=
  ∀ s t : State,
    (exec .tbBuild s = .next t → t = { s with
        busy := t.busy, done := t.done, errCode := t.errCode, errOp := t.errOp, node := t.node
        root := t.root, nnodes := t.nnodes, decCur := t.decCur, treeValid := t.treeValid
        ctValid := t.ctValid, ftLock := t.ftLock } ∧
      ∀ k, t.nnodes ≤ k → 0 < s.total → nodeAt t k = nodeAt s k) ∧
    (exec .ctDerive s = .next t → t = { s with
      busy := t.busy, done := t.done, errCode := t.errCode, errOp := t.errOp
      codeLen := t.codeLen, codeBits := t.codeBits, ctValid := t.ctValid }) ∧
    (exec .tsSerialize s = .next t → t = { s with
        busy := t.busy, done := t.done, errCode := t.errCode, errOp := t.errOp, hdr := t.hdr
        hbits := t.hbits } ∧
      (s.treeValid = false → t.hdr = s.hdr) ∧ ∀ k, t.hbits ≤ k → hdrAt t k = hdrAt s k) ∧
    (exec .tsDeserialize s = .next t → t = { s with
        busy := t.busy, done := t.done, errCode := t.errCode, errOp := t.errOp, node := t.node
        root := t.root, nnodes := t.nnodes, decCur := t.decCur, treeValid := t.treeValid
        ctValid := t.ctValid, freeCtr := t.freeCtr } ∧
      (t.treeValid = true → ∀ k, t.nnodes ≤ k → nodeAt t k = nodeAt s k))

/-- Frame of the encoder: ENC_BEGIN, ENC_PUSH and ENC_SCAN.  A failing one leaves CBUF as it was; a
succeeding one stores to `CBUF[CBITS before .. CBITS after - 1]`.  That PEND keeps the executed word is
the model's (notes/assumptions/5.md). -/
def Obligations.EncoderFrame : Prop :=
  ∀ (s t : State) (b : Byte),
    (exec .encBegin s = .next t → t = { s with busy := t.busy, done := t.done, cbits := t.cbits }) ∧
    ∀ i ∈ [Instr.encPush b, .encScan], exec i s = .next t →
      t = { s with
        busy := t.busy, done := t.done, errCode := t.errCode, errOp := t.errOp, cbuf := t.cbuf
        cbits := t.cbits } ∧
      s.cbits ≤ t.cbits ∧ ∀ k, k < s.cbits ∨ t.cbits ≤ k → cbufAt t k = cbufAt s k

/-- Frame of the decoder: DEC_BEGIN, DEC_BIT, DEC_END and DEC_RUN.  DEC_BIT stores to `OBUF[OUT_LEN]`
alone, DEC_END to no byte, and a DEC_RUN that raises no error to the bytes of its output.  That PEND
keeps the executed word is the model's (notes/assumptions/5.md). -/
def Obligations.DecoderFrame : Prop :=
  ∀ (s t : State) (arg : Byte),
    (∀ i ∈ [Instr.decBegin, .decBit arg, .decEnd, .decRun], exec i s = .next t → t = { s with
      busy := t.busy, done := t.done, errCode := t.errCode, errOp := t.errOp, obuf := t.obuf
      outLen := t.outLen, decCur := t.decCur, freeCtr := t.freeCtr }) ∧
    (∀ i ∈ [Instr.decBegin, .decEnd], exec i s = .next t →
      t.freeCtr = s.freeCtr ∧ ∀ a, obufAt t a = obufAt s a) ∧
    (exec (.decBit arg) s = .next t →
      t.freeCtr = s.freeCtr ∧ ∀ a, a ≠ s.outLen → obufAt t a = obufAt s a) ∧
    (exec .decRun s = .next t → s.errCode = 0#8 → t.errCode = 0#8 →
      t.freeCtr = s.freeCtr ∧ ∀ a, t.outLen ≤ a → obufAt t a = obufAt s a)

/-- Frame of the container commands: PACK, UNPACK, COMPRESS and DECOMPRESS.  Where no error is raised,
each stores to the first `OUT_LEN` bytes of OBUF, `HBITS` bits of HDR, `CBITS` bits of CBUF and
`NNODES` entries of NODE at most, and none stores to IBUF.  That PEND keeps the executed word is the
model's (notes/assumptions/5.md). -/
def Obligations.ContainerFrame : Prop :=
  ∀ s t : State,
    (exec .pack s = .next t → t = { s with
        busy := t.busy, done := t.done, errCode := t.errCode, errOp := t.errOp, obuf := t.obuf
        outLen := t.outLen } ∧
      ∀ a, 6 + ceil8 s.hbits + ceil8 s.cbits ≤ a → obufAt t a = obufAt s a) ∧
    (exec .unpack s = .next t → t = { s with
        busy := t.busy, done := t.done, errCode := t.errCode, errOp := t.errOp, hdr := t.hdr
        cbuf := t.cbuf, hbits := t.hbits, cbits := t.cbits } ∧
      (∀ k, natOfBytes (ibufSlice s 0 2) ≤ k → hdrAt t k = hdrAt s k) ∧
      ∀ k, natOfBytes (ibufSlice s 2 4) ≤ k → cbufAt t k = cbufAt s k) ∧
    (∀ i ∈ [Instr.compress, .decompress], exec i s = .next t →
      t.ibufBytes = s.ibufBytes ∧ t.obufBytes = s.obufBytes ∧ t.cbufBits = s.cbufBits ∧
      t.pend = s.pend ∧ t.ovr = s.ovr ∧ t.doneIe = s.doneIe ∧ t.errIe = s.errIe ∧
      t.inLen = s.inLen ∧ (∀ a, ibufAt t a = ibufAt s a) ∧ t.agenda = s.agenda ∧
      t.reads = s.reads ∧
      (i = .decompress → t.codeLen = s.codeLen ∧ t.codeBits = s.codeBits) ∧
      (s.errCode = 0#8 → t.errCode = 0#8 → t.freeCtr = s.freeCtr ∧
        (∀ a, t.outLen ≤ a → obufAt t a = obufAt s a) ∧
        (∀ k, t.hbits ≤ k → hdrAt t k = hdrAt s k) ∧ (∀ k, t.cbits ≤ k → cbufAt t k = cbufAt s k) ∧
        ∀ k, t.nnodes ≤ k → nodeAt t k = nodeAt s k))

/-! ### Invariants -/

/-- 10_state.md R46 item 6, 20_memory.md R64, 00_scope.md R13: from every state that meets the
invariants, a step keeps every length within its buffer and every array in order and within its
range. -/
def Obligations.StepKeepsLengthsAndArrays : Prop :=
  ∀ s t : State, Inv s → step s = .next t → CapsLegal t ∧ LengthsInRange t ∧ ArraysOk t

/-- 10_state.md R46 items 1, 2, 3 and 7, 60_exceptions.md R140: from every state that meets the
invariants, a step keeps TOTAL and NSYM exact, the session flags consistent, and ERR_CODE a code that
can be raised. -/
def Obligations.StepKeepsCountsFlagsAndErrors : Prop :=
  ∀ s t : State, Inv s → step s = .next t → CountsExact t ∧ SessionFlagsOk t ∧ ErrorsOk t

/-- 10_state.md R46 items 4 and 5, R35, R37: from every state that meets the invariants, after a step
TREE_VALID still means a full tree with the cursor on it and 0 in the fields its nodes do not use, and
CT_VALID still means its code table. -/
def Obligations.StepKeepsTheTree : Prop := ∀ s t : State, Inv s → step s = .next t → TreeOk t

/-- 60_exceptions.md R148, 70_reset_and_hazards.md R161: from a state that meets the invariants no step
is stuck, and the only refusals are the host's inadmissible accesses. -/
def Obligations.NoCommandIsStuck : Prop :=
  ∀ s : State, Inv s →
    (∃ t, step s = .next t) ∨ ∃ off n, inadmissible off n ∧
      step s = .refused (.inadmissibleAccess off n)

/-- 40_control.md R85, 60_exceptions.md R149: while an error is pending, a step leaves ERR_CODE and
ERR_OP as they are or clears both; so no error overwrites another. -/
def Obligations.ErrorsAreNeverOverwritten : Prop :=
  ∀ s t : State, ErrorsOk s → s.errCode ≠ 0#8 → step s = .next t →
    (t.errCode = s.errCode ∧ t.errOp = s.errOp) ∨ (t.errCode = 0#8 ∧ t.errOp = 0#8)
end

