-- ==== Sys2Proof/Laws/Bits.lean ====
section
/-!
SUPPORT. Bits and bytes: `bits8`, packing and unpacking, the container's length fields.
-/

namespace Sys2Proof.Machine

@[simp] theorem bits8_length (x : Byte) : (bits8 x).length = 8 := rfl

/-- The byte of eight bits has those bits. -/
theorem bits8_ofBits (a b c d e f g h : Bool) :
    bits8 (BitVec.ofNat 8 (natOfBits [a, b, c, d, e, f, g, h])) = [a, b, c, d, e, f, g, h] := by
  revert a b c d e f g h; decide

/-- The byte of the bits of a byte is that byte. -/
theorem ofBits_bits8 (x : Byte) : BitVec.ofNat 8 (natOfBits (bits8 x)) = x := by
  revert x; decide +kernel

theorem bits8_injective {x y : Byte} (h : bits8 x = bits8 y) : x = y := by
  rw [← ofBits_bits8 x, h, ofBits_bits8]

@[simp] theorem packBits_length (s : Bits) : (packBits s).length = ceil8 s.length := by
  simp [packBits]

@[simp] theorem packBits_nil : packBits [] = [] := rfl

theorem bits8_packByte (s : Bits) (k : Nat) :
    bits8 (packByte s k) = (List.range 8).map fun i => s.getD (8 * k + i) false := by
  have h : (List.range 8).map (fun i => s.getD (8 * k + i) false) =
      [s.getD (8 * k + 0) false, s.getD (8 * k + 1) false, s.getD (8 * k + 2) false,
       s.getD (8 * k + 3) false, s.getD (8 * k + 4) false, s.getD (8 * k + 5) false,
       s.getD (8 * k + 6) false, s.getD (8 * k + 7) false] := rfl
  rw [packByte, h, bits8_ofBits]

/-- Digit `i` from the left of a byte is its bit `7 - i`. -/
theorem bits8_getD (x : Byte) {i : Nat} (h : i < 8) : (bits8 x).getD i false = x.getLsbD (7 - i) := by
  match i, h with
  | 0, _ | 1, _ | 2, _ | 3, _ | 4, _ | 5, _ | 6, _ | 7, _ => rfl

/-- Bit `7 - i` of byte `k` of `pack(s)` is bit `8k + i` of `s`, 0 beyond its end (30_encoding.md R78). -/
theorem packByte_bit (s : Bits) (k : Nat) {i : Nat} (h : i < 8) :
    (packByte s k).getLsbD (7 - i) = s.getD (8 * k + i) false := by
  rw [← bits8_getD _ h, bits8_packByte, List.getD_eq_getElem _ _ (by simpa using h)]
  simp

theorem flatMap_bits8_length (bs : List Byte) : (bs.flatMap bits8).length = 8 * bs.length := by
  induction bs with
  | nil => rfl
  | cons b bs ih => simp only [List.flatMap_cons, List.length_append, ih, bits8_length, List.length_cons]; omega

/-- The bits of `n` packed bytes are the first `8·n` bits of the sequence, padded with 0. -/
theorem flatMap_bits8_packByte (s : Bits) (n : Nat) :
    ((List.range n).map (packByte s)).flatMap bits8 =
      (List.range (8 * n)).map fun j => s.getD j false := by
  induction n with
  | zero => rfl
  | succ n ih =>
    rw [List.range_succ, List.map_append, List.flatMap_append, ih, Nat.mul_succ, List.range_add,
      List.map_append]
    congr 1
    simp only [List.map_cons, List.map_nil, List.flatMap_cons, List.flatMap_nil, List.append_nil,
      bits8_packByte, List.map_map]
    rfl

theorem map_getD_range_take (s : Bits) {n : Nat} (h : s.length ≤ n) :
    ((List.range n).map fun j => s.getD j false).take s.length = s := by
  apply List.ext_getElem
  · simp; omega
  · intro k h1 h2
    simp [List.getD_eq_getElem?_getD, h2]

/-- Unpacking what was packed gives it back (30_encoding.md R78). -/
theorem unpackBits_packBits (s : Bits) : unpackBits (packBits s) s.length = s := by
  rw [unpackBits, packBits, flatMap_bits8_packByte]
  exact map_getD_range_take s (by unfold ceil8; omega)

/-- Bit `j` of a byte sequence is bit `7 - j % 8` of byte `j / 8` (30_encoding.md R78). -/
theorem flatMap_bits8_getD (bs : List Byte) {j : Nat} (h : j < 8 * bs.length) :
    (bs.flatMap bits8).getD j false = (bs.getD (j / 8) 0#8).getLsbD (7 - j % 8) := by
  induction bs generalizing j with
  | nil => simp at h
  | cons b bs ih =>
    rw [List.flatMap_cons]
    simp only [List.length_cons] at h
    by_cases hj : j < 8
    · rw [List.getD_append _ _ _ _ (by simpa using hj), bits8_getD _ hj, Nat.div_eq_of_lt hj,
        Nat.mod_eq_of_lt hj]
      rfl
    · rw [List.getD_append_right _ _ _ _ (by simp; omega), bits8_length, ih (by omega),
        show j / 8 = (j - 8) / 8 + 1 by omega, show j % 8 = (j - 8) % 8 by omega]
      rfl

theorem unpackBits_getD {bs : List Byte} {n j : Nat} (h : j < n) (hl : j < 8 * bs.length) :
    (unpackBits bs n).getD j false = (bs.getD (j / 8) 0#8).getLsbD (7 - j % 8) := by
  rw [← flatMap_bits8_getD bs hl, unpackBits, List.getD_eq_getElem?_getD, List.getD_eq_getElem?_getD,
    List.getElem?_take, if_pos h]

theorem unpackBits_length {bs : List Byte} {n : Nat} (h : n ≤ 8 * bs.length) :
    (unpackBits bs n).length = n := by
  rw [unpackBits, List.length_take, flatMap_bits8_length]; omega

theorem le_eight_ceil8 (n : Nat) : n ≤ 8 * ceil8 n := by unfold ceil8; omega

@[simp] theorem bytes16_length (n : Nat) : (bytes16 n).length = 2 := rfl

@[simp] theorem bytes32_length (n : Nat) : (bytes32 n).length = 4 := rfl

/-- The 16-bit field reads back. -/
theorem natOfBytes_bytes16 {n : Nat} (h : n < 2 ^ 16) : natOfBytes (bytes16 n) = n := by
  simp only [natOfBytes, bytes16, List.foldl_cons, List.foldl_nil, BitVec.toNat_ofNat]
  omega

/-- The 32-bit field reads back. -/
theorem natOfBytes_bytes32 {n : Nat} (h : n < 2 ^ 32) : natOfBytes (bytes32 n) = n := by
  simp only [natOfBytes, bytes32, List.foldl_cons, List.foldl_nil, BitVec.toNat_ofNat]
  omega

end Sys2Proof.Machine
end

