-- ==== Sys2Proof/Laws/Cells.lean ====
section
/-!
SUPPORT. What the array operations do: read after write, slices, and that every write keeps the
canonical form.
-/

namespace Sys2Proof.Machine

variable {α : Type}

@[simp] theorem cellGet_nil (a : Nat) : cellGet ([] : List (Nat × α)) a = none := rfl

@[simp] theorem cellGet_cellSet_same (cells : List (Nat × α)) (a : Nat) (v : α) :
    cellGet (cellSet cells a v) a = some v := by
  induction cells with
  | nil => simp [cellSet, cellGet]
  | cons c rest ih =>
    obtain ⟨k, w⟩ := c
    simp only [cellSet]
    split
    · simp [cellGet]
    · split
      · simp [cellGet]
      · simp_all [cellGet]

theorem cellGet_cellSet_other (cells : List (Nat × α)) {a b : Nat} (v : α) (h : b ≠ a) :
    cellGet (cellSet cells a v) b = cellGet cells b := by
  induction cells with
  | nil => simp [cellSet, cellGet, h]
  | cons c rest ih =>
    obtain ⟨k, w⟩ := c
    simp only [cellSet]
    split
    · simp [cellGet, h]
    · split
      · rename_i hk; subst hk; simp [cellGet, h]
      · simp [cellGet, ih]

theorem cellGet_cellSet (cells : List (Nat × α)) (a b : Nat) (v : α) :
    cellGet (cellSet cells a v) b = if b = a then some v else cellGet cells b := by
  split
  · rename_i h; subst h; simp
  · rename_i h; exact cellGet_cellSet_other cells v h

theorem mem_of_cellGet {cells : List (Nat × α)} {a : Nat} {v : α} (h : cellGet cells a = some v) :
    (a, v) ∈ cells := by
  induction cells with
  | nil => simp at h
  | cons c rest ih =>
    obtain ⟨k, w⟩ := c
    simp only [cellGet] at h
    split at h
    · simp_all
    · exact List.mem_cons_of_mem _ (ih h)

theorem mem_cellSet {cells : List (Nat × α)} {a : Nat} {v : α} {c : Nat × α}
    (h : c ∈ cellSet cells a v) : c = (a, v) ∨ c ∈ cells := by
  induction cells with
  | nil => simpa [cellSet] using h
  | cons d rest ih =>
    obtain ⟨k, w⟩ := d
    simp only [cellSet] at h
    split at h
    · simpa using h
    · split at h
      · simp only [List.mem_cons] at h ⊢; tauto
      · simp only [List.mem_cons] at h ⊢
        rcases h with h | h
        · exact .inr (.inl h)
        · rcases ih h with h | h
          · exact .inl h
          · exact .inr (.inr h)

theorem cellsOk_iff (cap : Nat) (cells : List (Nat × α)) :
    cellsOk cap cells = true ↔
      (cells.map Prod.fst).Pairwise (· < ·) ∧ ∀ c ∈ cells, c.1 < cap := by
  simp [cellsOk]

theorem cellSet_pairwise (cells : List (Nat × α)) (a : Nat) (v : α)
    (h : (cells.map Prod.fst).Pairwise (· < ·)) :
    ((cellSet cells a v).map Prod.fst).Pairwise (· < ·) := by
  induction cells with
  | nil => simp [cellSet]
  | cons c rest ih =>
    obtain ⟨k, w⟩ := c
    simp only [List.map_cons, List.pairwise_cons] at h
    simp only [cellSet]
    split
    · rename_i hak
      simp only [List.map_cons, List.pairwise_cons]
      refine ⟨?_, h⟩
      intro b hb
      rcases List.mem_cons.mp hb with hb | hb
      · omega
      · have := h.1 b hb; omega
    · split
      · rename_i hak; subst hak; simpa using h
      · rename_i h1 h2
        simp only [List.map_cons, List.pairwise_cons]
        refine ⟨?_, ih h.2⟩
        intro b hb
        obtain ⟨c, hc, rfl⟩ := List.mem_map.mp hb
        rcases mem_cellSet hc with hc | hc
        · subst hc; simp; omega
        · exact h.1 _ (List.mem_map.mpr ⟨c, hc, rfl⟩)

/-- A write below the capacity keeps the canonical form. -/
theorem cellsOk_cellSet {cap : Nat} {cells : List (Nat × α)} {a : Nat} (v : α)
    (h : cellsOk cap cells = true) (ha : a < cap) : cellsOk cap (cellSet cells a v) = true := by
  rw [cellsOk_iff] at h ⊢
  refine ⟨cellSet_pairwise cells a v h.1, fun c hc => ?_⟩
  rcases mem_cellSet hc with hc | hc
  · subst hc; exact ha
  · exact h.2 c hc

@[simp] theorem bufGet_nil (free : Nat → Nat → α) (g a : Nat) : bufGet free ⟨g, []⟩ a = free g a := rfl

@[simp] theorem bufSet_gen (b : Buf α) (a : Nat) (v : α) : (bufSet b a v).gen = b.gen := rfl

/-- Read after write. -/
theorem bufGet_bufSet (free : Nat → Nat → α) (b : Buf α) (a c : Nat) (v : α) :
    bufGet free (bufSet b a v) c = if c = a then v else bufGet free b c := by
  simp only [bufGet, bufSet, cellGet_cellSet]
  split
  · rename_i h
    split at h <;> simp_all
  · rename_i h
    split at h <;> simp_all

@[simp] theorem bufGet_bufSet_same (free : Nat → Nat → α) (b : Buf α) (a : Nat) (v : α) :
    bufGet free (bufSet b a v) a = v := by simp [bufGet_bufSet]

theorem bufGet_bufSet_other (free : Nat → Nat → α) (b : Buf α) {a c : Nat} (v : α) (h : c ≠ a) :
    bufGet free (bufSet b a v) c = bufGet free b c := by simp [bufGet_bufSet, h]

theorem bufOk_bufSet {cap : Nat} {b : Buf α} {a : Nat} (v : α) (h : bufOk cap b = true)
    (ha : a < cap) : bufOk cap (bufSet b a v) = true := cellsOk_cellSet v h ha

@[simp] theorem bufOk_fresh (cap g : Nat) : bufOk cap (⟨g, []⟩ : Buf α) = true := rfl

@[simp] theorem bufWrite_nil (b : Buf α) (a : Nat) : bufWrite b a [] = b := rfl

@[simp] theorem bufWrite_gen (b : Buf α) (a : Nat) (vs : List α) : (bufWrite b a vs).gen = b.gen := by
  induction vs generalizing b a with
  | nil => rfl
  | cons v vs ih => simp [bufWrite, ih]

/-- Read after a run of writes: inside the run the value written, outside it the old value. -/
theorem bufGet_bufWrite (free : Nat → Nat → α) (b : Buf α) (a c : Nat) (vs : List α) :
    bufGet free (bufWrite b a vs) c =
      if h : a ≤ c ∧ c - a < vs.length then vs[c - a]'h.2 else bufGet free b c := by
  induction vs generalizing b a with
  | nil => simp
  | cons v vs ih =>
    simp only [bufWrite, ih, bufGet_bufSet, List.length_cons]
    by_cases hc : c = a
    · subst hc
      simp
    · by_cases h1 : a + 1 ≤ c ∧ c - (a + 1) < vs.length
      · have h2 : a ≤ c ∧ c - a < vs.length + 1 := by omega
        rw [dif_pos h1, dif_pos h2]
        have h3 : c - a = (c - (a + 1)) + 1 := by omega
        simp only [h3, List.getElem_cons_succ]
      · have h2 : ¬ (a ≤ c ∧ c - a < vs.length + 1) := by omega
        rw [dif_neg h1, dif_neg h2, if_neg hc]

theorem bufGet_bufWrite_outside (free : Nat → Nat → α) (b : Buf α) {a c : Nat} {vs : List α}
    (h : c < a ∨ a + vs.length ≤ c) : bufGet free (bufWrite b a vs) c = bufGet free b c := by
  rw [bufGet_bufWrite, dif_neg (by omega)]

theorem bufOk_bufWrite {cap : Nat} {b : Buf α} {a : Nat} {vs : List α} (h : bufOk cap b = true)
    (ha : a + vs.length ≤ cap) : bufOk cap (bufWrite b a vs) = true := by
  induction vs generalizing b a with
  | nil => exact h
  | cons v vs ih =>
    simp only [List.length_cons] at ha
    exact ih (bufOk_bufSet v h (by omega)) (by omega)

theorem bufWrite_append (b : Buf α) (a : Nat) (vs ws : List α) :
    bufWrite b a (vs ++ ws) = bufWrite (bufWrite b a vs) (a + vs.length) ws := by
  induction vs generalizing b a with
  | nil => simp
  | cons v vs ih => simp [bufWrite, ih, Nat.add_comm, Nat.add_left_comm]

@[simp] theorem bufFill_gen (b : Buf α) (n : Nat) (v : α) : (bufFill b n v).gen = b.gen := rfl

/-- Read after a fill. -/
theorem bufGet_bufFill (free : Nat → Nat → α) (b : Buf α) (v : α) {n x : Nat} (hx : x < n) :
    bufGet free (bufFill b n v) x = v := by
  have key : ∀ l : List Nat, x ∈ l → cellGet (l.map fun k => (k, v)) x = some v := by
    intro l hl
    induction l with
    | nil => simp at hl
    | cons k l ih =>
      simp only [List.map_cons, cellGet]
      split
      · rfl
      · exact ih ((List.mem_cons.mp hl).resolve_left ‹_›)
  simp [bufGet, bufFill, key _ (List.mem_range.mpr hx)]

theorem bufOk_bufFill {cap n : Nat} (b : Buf α) (v : α) (h : n ≤ cap) :
    bufOk cap (bufFill b n v) = true := by
  rw [bufOk, cellsOk_iff]
  constructor
  · simpa [bufFill, Function.comp_def] using List.pairwise_lt_range
  · intro c hc
    obtain ⟨k, hk, rfl⟩ := List.mem_map.mp hc
    exact Nat.lt_of_lt_of_le (List.mem_range.mp hk) h

@[simp] theorem bufSlice_length (free : Nat → Nat → α) (b : Buf α) (a n : Nat) :
    (bufSlice free b a n).length = n := by simp [bufSlice]

@[simp] theorem bufSlice_zero (free : Nat → Nat → α) (b : Buf α) (a : Nat) :
    bufSlice free b a 0 = [] := rfl

@[simp] theorem bufSlice_getElem (free : Nat → Nat → α) (b : Buf α) (a n k : Nat)
    (h : k < (bufSlice free b a n).length) : (bufSlice free b a n)[k] = bufGet free b (a + k) := by
  simp [bufSlice]

theorem bufSlice_congr {free : Nat → Nat → α} {b c : Buf α} {a n : Nat}
    (h : ∀ k, k < n → bufGet free b (a + k) = bufGet free c (a + k)) :
    bufSlice free b a n = bufSlice free c a n := by
  simp only [bufSlice]
  exact List.map_congr_left fun k hk => h k (List.mem_range.mp hk)

theorem bufSlice_add (free : Nat → Nat → α) (b : Buf α) (a m n : Nat) :
    bufSlice free b a (m + n) = bufSlice free b a m ++ bufSlice free b (a + m) n := by
  simp [bufSlice, List.range_add, Nat.add_assoc]

/-- The slice a run of writes covers reads as the values written. -/
@[simp] theorem bufSlice_bufWrite (free : Nat → Nat → α) (b : Buf α) (a : Nat) (vs : List α) :
    bufSlice free (bufWrite b a vs) a vs.length = vs := by
  apply List.ext_getElem (by simp)
  intro k h1 h2
  rw [bufSlice_getElem, bufGet_bufWrite, dif_pos (by simp at h1 ⊢; omega)]
  simp

theorem bufSlice_bufWrite_before (free : Nat → Nat → α) (b : Buf α) {a c n : Nat} (vs : List α)
    (h : c + n ≤ a) : bufSlice free (bufWrite b a vs) c n = bufSlice free b c n :=
  bufSlice_congr fun k hk => bufGet_bufWrite_outside free b (by omega)

/-- Appending at the end of a slice from 0 appends to the slice. -/
theorem bufSlice_append (free : Nat → Nat → α) (b : Buf α) (n : Nat) (vs : List α) :
    bufSlice free (bufWrite b n vs) 0 (n + vs.length) = bufSlice free b 0 n ++ vs := by
  rw [bufSlice_add, Nat.zero_add, bufSlice_bufWrite, bufSlice_bufWrite_before free b vs (by omega)]

theorem bufSlice_prefix (free : Nat → Nat → α) (b : Buf α) (a : Nat) {m n : Nat} (h : m ≤ n) :
    bufSlice free b a m = (bufSlice free b a n).take m := by
  obtain ⟨k, rfl⟩ := Nat.exists_eq_add_of_le h
  rw [bufSlice_add]
  simp

end Sys2Proof.Machine
end

