-- ==== Sys2Proof/Laws/State.lean ====
section
/-!
SUPPORT. One lemma per field per named update of the state: what the field is after the update.
-/

namespace Sys2Proof.Machine

/-! ### `complete` -/

@[simp] theorem complete_ibufBytes (s : State) : (complete s).ibufBytes = s.ibufBytes := rfl
@[simp] theorem complete_obufBytes (s : State) : (complete s).obufBytes = s.obufBytes := rfl
@[simp] theorem complete_cbufBits (s : State) : (complete s).cbufBits = s.cbufBits := rfl
@[simp] theorem complete_pend (s : State) : (complete s).pend = s.pend := rfl
@[simp] theorem complete_busy (s : State) : (complete s).busy = false := rfl
@[simp] theorem complete_done (s : State) : (complete s).done = true := rfl
@[simp] theorem complete_ovr (s : State) : (complete s).ovr = s.ovr := rfl
@[simp] theorem complete_errCode (s : State) : (complete s).errCode = s.errCode := rfl
@[simp] theorem complete_errOp (s : State) : (complete s).errOp = s.errOp := rfl
@[simp] theorem complete_doneIe (s : State) : (complete s).doneIe = s.doneIe := rfl
@[simp] theorem complete_errIe (s : State) : (complete s).errIe = s.errIe := rfl
@[simp] theorem complete_inLen (s : State) : (complete s).inLen = s.inLen := rfl
@[simp] theorem complete_outLen (s : State) : (complete s).outLen = s.outLen := rfl
@[simp] theorem complete_total (s : State) : (complete s).total = s.total := rfl
@[simp] theorem complete_nsym (s : State) : (complete s).nsym = s.nsym := rfl
@[simp] theorem complete_root (s : State) : (complete s).root = s.root := rfl
@[simp] theorem complete_nnodes (s : State) : (complete s).nnodes = s.nnodes := rfl
@[simp] theorem complete_hbits (s : State) : (complete s).hbits = s.hbits := rfl
@[simp] theorem complete_cbits (s : State) : (complete s).cbits = s.cbits := rfl
@[simp] theorem complete_decCur (s : State) : (complete s).decCur = s.decCur := rfl
@[simp] theorem complete_ftLock (s : State) : (complete s).ftLock = s.ftLock := rfl
@[simp] theorem complete_treeValid (s : State) : (complete s).treeValid = s.treeValid := rfl
@[simp] theorem complete_ctValid (s : State) : (complete s).ctValid = s.ctValid := rfl
@[simp] theorem complete_freq (s : State) : (complete s).freq = s.freq := rfl
@[simp] theorem complete_node (s : State) : (complete s).node = s.node := rfl
@[simp] theorem complete_codeLen (s : State) : (complete s).codeLen = s.codeLen := rfl
@[simp] theorem complete_codeBits (s : State) : (complete s).codeBits = s.codeBits := rfl
@[simp] theorem complete_hdr (s : State) : (complete s).hdr = s.hdr := rfl
@[simp] theorem complete_cbuf (s : State) : (complete s).cbuf = s.cbuf := rfl
@[simp] theorem complete_ibuf (s : State) : (complete s).ibuf = s.ibuf := rfl
@[simp] theorem complete_obuf (s : State) : (complete s).obuf = s.obuf := rfl
@[simp] theorem complete_freeCtr (s : State) : (complete s).freeCtr = s.freeCtr := rfl
@[simp] theorem complete_agenda (s : State) : (complete s).agenda = s.agenda := rfl
@[simp] theorem complete_reads (s : State) : (complete s).reads = s.reads := rfl

/-! ### `errorEntry` -/

@[simp] theorem errorEntry_ibufBytes (e : ErrKind) (s : State) : (errorEntry e s).ibufBytes = s.ibufBytes := rfl
@[simp] theorem errorEntry_obufBytes (e : ErrKind) (s : State) : (errorEntry e s).obufBytes = s.obufBytes := rfl
@[simp] theorem errorEntry_cbufBits (e : ErrKind) (s : State) : (errorEntry e s).cbufBits = s.cbufBits := rfl
@[simp] theorem errorEntry_pend (e : ErrKind) (s : State) : (errorEntry e s).pend = s.pend := rfl
@[simp] theorem errorEntry_busy (e : ErrKind) (s : State) : (errorEntry e s).busy = s.busy := rfl
@[simp] theorem errorEntry_done (e : ErrKind) (s : State) : (errorEntry e s).done = s.done := rfl
@[simp] theorem errorEntry_ovr (e : ErrKind) (s : State) : (errorEntry e s).ovr = s.ovr := rfl
@[simp] theorem errorEntry_errCode (e : ErrKind) (s : State) : (errorEntry e s).errCode = errCodeOf e := rfl
@[simp] theorem errorEntry_errOp (e : ErrKind) (s : State) : (errorEntry e s).errOp = opField s.pend := rfl
@[simp] theorem errorEntry_doneIe (e : ErrKind) (s : State) : (errorEntry e s).doneIe = s.doneIe := rfl
@[simp] theorem errorEntry_errIe (e : ErrKind) (s : State) : (errorEntry e s).errIe = s.errIe := rfl
@[simp] theorem errorEntry_inLen (e : ErrKind) (s : State) : (errorEntry e s).inLen = s.inLen := rfl
@[simp] theorem errorEntry_outLen (e : ErrKind) (s : State) : (errorEntry e s).outLen = s.outLen := rfl
@[simp] theorem errorEntry_total (e : ErrKind) (s : State) : (errorEntry e s).total = s.total := rfl
@[simp] theorem errorEntry_nsym (e : ErrKind) (s : State) : (errorEntry e s).nsym = s.nsym := rfl
@[simp] theorem errorEntry_root (e : ErrKind) (s : State) : (errorEntry e s).root = s.root := rfl
@[simp] theorem errorEntry_nnodes (e : ErrKind) (s : State) : (errorEntry e s).nnodes = s.nnodes := rfl
@[simp] theorem errorEntry_hbits (e : ErrKind) (s : State) : (errorEntry e s).hbits = s.hbits := rfl
@[simp] theorem errorEntry_cbits (e : ErrKind) (s : State) : (errorEntry e s).cbits = s.cbits := rfl
@[simp] theorem errorEntry_decCur (e : ErrKind) (s : State) : (errorEntry e s).decCur = s.decCur := rfl
@[simp] theorem errorEntry_ftLock (e : ErrKind) (s : State) : (errorEntry e s).ftLock = s.ftLock := rfl
@[simp] theorem errorEntry_treeValid (e : ErrKind) (s : State) : (errorEntry e s).treeValid = s.treeValid := rfl
@[simp] theorem errorEntry_ctValid (e : ErrKind) (s : State) : (errorEntry e s).ctValid = s.ctValid := rfl
@[simp] theorem errorEntry_freq (e : ErrKind) (s : State) : (errorEntry e s).freq = s.freq := rfl
@[simp] theorem errorEntry_node (e : ErrKind) (s : State) : (errorEntry e s).node = s.node := rfl
@[simp] theorem errorEntry_codeLen (e : ErrKind) (s : State) : (errorEntry e s).codeLen = s.codeLen := rfl
@[simp] theorem errorEntry_codeBits (e : ErrKind) (s : State) : (errorEntry e s).codeBits = s.codeBits := rfl
@[simp] theorem errorEntry_hdr (e : ErrKind) (s : State) : (errorEntry e s).hdr = s.hdr := rfl
@[simp] theorem errorEntry_cbuf (e : ErrKind) (s : State) : (errorEntry e s).cbuf = s.cbuf := rfl
@[simp] theorem errorEntry_ibuf (e : ErrKind) (s : State) : (errorEntry e s).ibuf = s.ibuf := rfl
@[simp] theorem errorEntry_obuf (e : ErrKind) (s : State) : (errorEntry e s).obuf = s.obuf := rfl
@[simp] theorem errorEntry_freeCtr (e : ErrKind) (s : State) : (errorEntry e s).freeCtr = s.freeCtr := rfl
@[simp] theorem errorEntry_agenda (e : ErrKind) (s : State) : (errorEntry e s).agenda = s.agenda := rfl
@[simp] theorem errorEntry_reads (e : ErrKind) (s : State) : (errorEntry e s).reads = s.reads := rfl

/-! ### `errorReturn` -/

@[simp] theorem errorReturn_ibufBytes (s : State) : (errorReturn s).ibufBytes = s.ibufBytes := rfl
@[simp] theorem errorReturn_obufBytes (s : State) : (errorReturn s).obufBytes = s.obufBytes := rfl
@[simp] theorem errorReturn_cbufBits (s : State) : (errorReturn s).cbufBits = s.cbufBits := rfl
@[simp] theorem errorReturn_pend (s : State) : (errorReturn s).pend = s.pend := rfl
@[simp] theorem errorReturn_busy (s : State) : (errorReturn s).busy = s.busy := rfl
@[simp] theorem errorReturn_done (s : State) : (errorReturn s).done = s.done := rfl
@[simp] theorem errorReturn_ovr (s : State) : (errorReturn s).ovr = false := rfl
@[simp] theorem errorReturn_errCode (s : State) : (errorReturn s).errCode = 0#8 := rfl
@[simp] theorem errorReturn_errOp (s : State) : (errorReturn s).errOp = 0#8 := rfl
@[simp] theorem errorReturn_doneIe (s : State) : (errorReturn s).doneIe = s.doneIe := rfl
@[simp] theorem errorReturn_errIe (s : State) : (errorReturn s).errIe = s.errIe := rfl
@[simp] theorem errorReturn_inLen (s : State) : (errorReturn s).inLen = s.inLen := rfl
@[simp] theorem errorReturn_outLen (s : State) : (errorReturn s).outLen = s.outLen := rfl
@[simp] theorem errorReturn_total (s : State) : (errorReturn s).total = s.total := rfl
@[simp] theorem errorReturn_nsym (s : State) : (errorReturn s).nsym = s.nsym := rfl
@[simp] theorem errorReturn_root (s : State) : (errorReturn s).root = s.root := rfl
@[simp] theorem errorReturn_nnodes (s : State) : (errorReturn s).nnodes = s.nnodes := rfl
@[simp] theorem errorReturn_hbits (s : State) : (errorReturn s).hbits = s.hbits := rfl
@[simp] theorem errorReturn_cbits (s : State) : (errorReturn s).cbits = s.cbits := rfl
@[simp] theorem errorReturn_decCur (s : State) : (errorReturn s).decCur = s.decCur := rfl
@[simp] theorem errorReturn_ftLock (s : State) : (errorReturn s).ftLock = s.ftLock := rfl
@[simp] theorem errorReturn_treeValid (s : State) : (errorReturn s).treeValid = s.treeValid := rfl
@[simp] theorem errorReturn_ctValid (s : State) : (errorReturn s).ctValid = s.ctValid := rfl
@[simp] theorem errorReturn_freq (s : State) : (errorReturn s).freq = s.freq := rfl
@[simp] theorem errorReturn_node (s : State) : (errorReturn s).node = s.node := rfl
@[simp] theorem errorReturn_codeLen (s : State) : (errorReturn s).codeLen = s.codeLen := rfl
@[simp] theorem errorReturn_codeBits (s : State) : (errorReturn s).codeBits = s.codeBits := rfl
@[simp] theorem errorReturn_hdr (s : State) : (errorReturn s).hdr = s.hdr := rfl
@[simp] theorem errorReturn_cbuf (s : State) : (errorReturn s).cbuf = s.cbuf := rfl
@[simp] theorem errorReturn_ibuf (s : State) : (errorReturn s).ibuf = s.ibuf := rfl
@[simp] theorem errorReturn_obuf (s : State) : (errorReturn s).obuf = s.obuf := rfl
@[simp] theorem errorReturn_freeCtr (s : State) : (errorReturn s).freeCtr = s.freeCtr := rfl
@[simp] theorem errorReturn_agenda (s : State) : (errorReturn s).agenda = s.agenda := rfl
@[simp] theorem errorReturn_reads (s : State) : (errorReturn s).reads = s.reads := rfl

/-! ### `sessionClear` -/

@[simp] theorem sessionClear_ibufBytes (s : State) : (sessionClear s).ibufBytes = s.ibufBytes := rfl
@[simp] theorem sessionClear_obufBytes (s : State) : (sessionClear s).obufBytes = s.obufBytes := rfl
@[simp] theorem sessionClear_cbufBits (s : State) : (sessionClear s).cbufBits = s.cbufBits := rfl
@[simp] theorem sessionClear_pend (s : State) : (sessionClear s).pend = s.pend := rfl
@[simp] theorem sessionClear_busy (s : State) : (sessionClear s).busy = s.busy := rfl
@[simp] theorem sessionClear_done (s : State) : (sessionClear s).done = s.done := rfl
@[simp] theorem sessionClear_ovr (s : State) : (sessionClear s).ovr = s.ovr := rfl
@[simp] theorem sessionClear_errCode (s : State) : (sessionClear s).errCode = s.errCode := rfl
@[simp] theorem sessionClear_errOp (s : State) : (sessionClear s).errOp = s.errOp := rfl
@[simp] theorem sessionClear_doneIe (s : State) : (sessionClear s).doneIe = s.doneIe := rfl
@[simp] theorem sessionClear_errIe (s : State) : (sessionClear s).errIe = s.errIe := rfl
@[simp] theorem sessionClear_inLen (s : State) : (sessionClear s).inLen = s.inLen := rfl
@[simp] theorem sessionClear_outLen (s : State) : (sessionClear s).outLen = s.outLen := rfl
@[simp] theorem sessionClear_total (s : State) : (sessionClear s).total = 0 := rfl
@[simp] theorem sessionClear_nsym (s : State) : (sessionClear s).nsym = 0 := rfl
@[simp] theorem sessionClear_root (s : State) : (sessionClear s).root = 0 := rfl
@[simp] theorem sessionClear_nnodes (s : State) : (sessionClear s).nnodes = 0 := rfl
@[simp] theorem sessionClear_hbits (s : State) : (sessionClear s).hbits = s.hbits := rfl
@[simp] theorem sessionClear_cbits (s : State) : (sessionClear s).cbits = s.cbits := rfl
@[simp] theorem sessionClear_decCur (s : State) : (sessionClear s).decCur = 0 := rfl
@[simp] theorem sessionClear_ftLock (s : State) : (sessionClear s).ftLock = false := rfl
@[simp] theorem sessionClear_treeValid (s : State) : (sessionClear s).treeValid = false := rfl
@[simp] theorem sessionClear_ctValid (s : State) : (sessionClear s).ctValid = false := rfl
@[simp] theorem sessionClear_freq (s : State) : (sessionClear s).freq = [] := rfl
@[simp] theorem sessionClear_node (s : State) : (sessionClear s).node = s.node := rfl
@[simp] theorem sessionClear_codeLen (s : State) : (sessionClear s).codeLen = s.codeLen := rfl
@[simp] theorem sessionClear_codeBits (s : State) : (sessionClear s).codeBits = s.codeBits := rfl
@[simp] theorem sessionClear_hdr (s : State) : (sessionClear s).hdr = s.hdr := rfl
@[simp] theorem sessionClear_cbuf (s : State) : (sessionClear s).cbuf = s.cbuf := rfl
@[simp] theorem sessionClear_ibuf (s : State) : (sessionClear s).ibuf = s.ibuf := rfl
@[simp] theorem sessionClear_obuf (s : State) : (sessionClear s).obuf = s.obuf := rfl
@[simp] theorem sessionClear_freeCtr (s : State) : (sessionClear s).freeCtr = s.freeCtr := rfl
@[simp] theorem sessionClear_agenda (s : State) : (sessionClear s).agenda = s.agenda := rfl
@[simp] theorem sessionClear_reads (s : State) : (sessionClear s).reads = s.reads := rfl

/-! ### `rewind` -/

@[simp] theorem rewind_ibufBytes (s : State) : (rewind s).ibufBytes = s.ibufBytes := rfl
@[simp] theorem rewind_obufBytes (s : State) : (rewind s).obufBytes = s.obufBytes := rfl
@[simp] theorem rewind_cbufBits (s : State) : (rewind s).cbufBits = s.cbufBits := rfl
@[simp] theorem rewind_pend (s : State) : (rewind s).pend = s.pend := rfl
@[simp] theorem rewind_busy (s : State) : (rewind s).busy = s.busy := rfl
@[simp] theorem rewind_done (s : State) : (rewind s).done = s.done := rfl
@[simp] theorem rewind_ovr (s : State) : (rewind s).ovr = s.ovr := rfl
@[simp] theorem rewind_errCode (s : State) : (rewind s).errCode = s.errCode := rfl
@[simp] theorem rewind_errOp (s : State) : (rewind s).errOp = s.errOp := rfl
@[simp] theorem rewind_doneIe (s : State) : (rewind s).doneIe = s.doneIe := rfl
@[simp] theorem rewind_errIe (s : State) : (rewind s).errIe = s.errIe := rfl
@[simp] theorem rewind_inLen (s : State) : (rewind s).inLen = s.inLen := rfl
@[simp] theorem rewind_outLen (s : State) : (rewind s).outLen = 0 := rfl
@[simp] theorem rewind_total (s : State) : (rewind s).total = s.total := rfl
@[simp] theorem rewind_nsym (s : State) : (rewind s).nsym = s.nsym := rfl
@[simp] theorem rewind_root (s : State) : (rewind s).root = s.root := rfl
@[simp] theorem rewind_nnodes (s : State) : (rewind s).nnodes = s.nnodes := rfl
@[simp] theorem rewind_hbits (s : State) : (rewind s).hbits = s.hbits := rfl
@[simp] theorem rewind_cbits (s : State) : (rewind s).cbits = s.cbits := rfl
@[simp] theorem rewind_decCur (s : State) : (rewind s).decCur = s.root := rfl
@[simp] theorem rewind_ftLock (s : State) : (rewind s).ftLock = s.ftLock := rfl
@[simp] theorem rewind_treeValid (s : State) : (rewind s).treeValid = s.treeValid := rfl
@[simp] theorem rewind_ctValid (s : State) : (rewind s).ctValid = s.ctValid := rfl
@[simp] theorem rewind_freq (s : State) : (rewind s).freq = s.freq := rfl
@[simp] theorem rewind_node (s : State) : (rewind s).node = s.node := rfl
@[simp] theorem rewind_codeLen (s : State) : (rewind s).codeLen = s.codeLen := rfl
@[simp] theorem rewind_codeBits (s : State) : (rewind s).codeBits = s.codeBits := rfl
@[simp] theorem rewind_hdr (s : State) : (rewind s).hdr = s.hdr := rfl
@[simp] theorem rewind_cbuf (s : State) : (rewind s).cbuf = s.cbuf := rfl
@[simp] theorem rewind_ibuf (s : State) : (rewind s).ibuf = s.ibuf := rfl
@[simp] theorem rewind_obuf (s : State) : (rewind s).obuf = s.obuf := rfl
@[simp] theorem rewind_freeCtr (s : State) : (rewind s).freeCtr = s.freeCtr := rfl
@[simp] theorem rewind_agenda (s : State) : (rewind s).agenda = s.agenda := rfl
@[simp] theorem rewind_reads (s : State) : (rewind s).reads = s.reads := rfl

/-! ### `forgetPend` -/

@[simp] theorem forgetPend_ibufBytes (s : State) : (forgetPend s).ibufBytes = s.ibufBytes := rfl
@[simp] theorem forgetPend_obufBytes (s : State) : (forgetPend s).obufBytes = s.obufBytes := rfl
@[simp] theorem forgetPend_cbufBits (s : State) : (forgetPend s).cbufBits = s.cbufBits := rfl
@[simp] theorem forgetPend_pend (s : State) : (forgetPend s).pend = Config.freeWord s.freeCtr := rfl
@[simp] theorem forgetPend_busy (s : State) : (forgetPend s).busy = s.busy := rfl
@[simp] theorem forgetPend_done (s : State) : (forgetPend s).done = s.done := rfl
@[simp] theorem forgetPend_ovr (s : State) : (forgetPend s).ovr = s.ovr := rfl
@[simp] theorem forgetPend_errCode (s : State) : (forgetPend s).errCode = s.errCode := rfl
@[simp] theorem forgetPend_errOp (s : State) : (forgetPend s).errOp = s.errOp := rfl
@[simp] theorem forgetPend_doneIe (s : State) : (forgetPend s).doneIe = s.doneIe := rfl
@[simp] theorem forgetPend_errIe (s : State) : (forgetPend s).errIe = s.errIe := rfl
@[simp] theorem forgetPend_inLen (s : State) : (forgetPend s).inLen = s.inLen := rfl
@[simp] theorem forgetPend_outLen (s : State) : (forgetPend s).outLen = s.outLen := rfl
@[simp] theorem forgetPend_total (s : State) : (forgetPend s).total = s.total := rfl
@[simp] theorem forgetPend_nsym (s : State) : (forgetPend s).nsym = s.nsym := rfl
@[simp] theorem forgetPend_root (s : State) : (forgetPend s).root = s.root := rfl
@[simp] theorem forgetPend_nnodes (s : State) : (forgetPend s).nnodes = s.nnodes := rfl
@[simp] theorem forgetPend_hbits (s : State) : (forgetPend s).hbits = s.hbits := rfl
@[simp] theorem forgetPend_cbits (s : State) : (forgetPend s).cbits = s.cbits := rfl
@[simp] theorem forgetPend_decCur (s : State) : (forgetPend s).decCur = s.decCur := rfl
@[simp] theorem forgetPend_ftLock (s : State) : (forgetPend s).ftLock = s.ftLock := rfl
@[simp] theorem forgetPend_treeValid (s : State) : (forgetPend s).treeValid = s.treeValid := rfl
@[simp] theorem forgetPend_ctValid (s : State) : (forgetPend s).ctValid = s.ctValid := rfl
@[simp] theorem forgetPend_freq (s : State) : (forgetPend s).freq = s.freq := rfl
@[simp] theorem forgetPend_node (s : State) : (forgetPend s).node = s.node := rfl
@[simp] theorem forgetPend_codeLen (s : State) : (forgetPend s).codeLen = s.codeLen := rfl
@[simp] theorem forgetPend_codeBits (s : State) : (forgetPend s).codeBits = s.codeBits := rfl
@[simp] theorem forgetPend_hdr (s : State) : (forgetPend s).hdr = s.hdr := rfl
@[simp] theorem forgetPend_cbuf (s : State) : (forgetPend s).cbuf = s.cbuf := rfl
@[simp] theorem forgetPend_ibuf (s : State) : (forgetPend s).ibuf = s.ibuf := rfl
@[simp] theorem forgetPend_obuf (s : State) : (forgetPend s).obuf = s.obuf := rfl
@[simp] theorem forgetPend_freeCtr (s : State) : (forgetPend s).freeCtr = s.freeCtr + 1 := rfl
@[simp] theorem forgetPend_agenda (s : State) : (forgetPend s).agenda = s.agenda := rfl
@[simp] theorem forgetPend_reads (s : State) : (forgetPend s).reads = s.reads := rfl

/-! ### `forgetNode` -/

@[simp] theorem forgetNode_ibufBytes (s : State) : (forgetNode s).ibufBytes = s.ibufBytes := rfl
@[simp] theorem forgetNode_obufBytes (s : State) : (forgetNode s).obufBytes = s.obufBytes := rfl
@[simp] theorem forgetNode_cbufBits (s : State) : (forgetNode s).cbufBits = s.cbufBits := rfl
@[simp] theorem forgetNode_pend (s : State) : (forgetNode s).pend = s.pend := rfl
@[simp] theorem forgetNode_busy (s : State) : (forgetNode s).busy = s.busy := rfl
@[simp] theorem forgetNode_done (s : State) : (forgetNode s).done = s.done := rfl
@[simp] theorem forgetNode_ovr (s : State) : (forgetNode s).ovr = s.ovr := rfl
@[simp] theorem forgetNode_errCode (s : State) : (forgetNode s).errCode = s.errCode := rfl
@[simp] theorem forgetNode_errOp (s : State) : (forgetNode s).errOp = s.errOp := rfl
@[simp] theorem forgetNode_doneIe (s : State) : (forgetNode s).doneIe = s.doneIe := rfl
@[simp] theorem forgetNode_errIe (s : State) : (forgetNode s).errIe = s.errIe := rfl
@[simp] theorem forgetNode_inLen (s : State) : (forgetNode s).inLen = s.inLen := rfl
@[simp] theorem forgetNode_outLen (s : State) : (forgetNode s).outLen = s.outLen := rfl
@[simp] theorem forgetNode_total (s : State) : (forgetNode s).total = s.total := rfl
@[simp] theorem forgetNode_nsym (s : State) : (forgetNode s).nsym = s.nsym := rfl
@[simp] theorem forgetNode_root (s : State) : (forgetNode s).root = s.root := rfl
@[simp] theorem forgetNode_nnodes (s : State) : (forgetNode s).nnodes = s.nnodes := rfl
@[simp] theorem forgetNode_hbits (s : State) : (forgetNode s).hbits = s.hbits := rfl
@[simp] theorem forgetNode_cbits (s : State) : (forgetNode s).cbits = s.cbits := rfl
@[simp] theorem forgetNode_decCur (s : State) : (forgetNode s).decCur = s.decCur := rfl
@[simp] theorem forgetNode_ftLock (s : State) : (forgetNode s).ftLock = s.ftLock := rfl
@[simp] theorem forgetNode_treeValid (s : State) : (forgetNode s).treeValid = s.treeValid := rfl
@[simp] theorem forgetNode_ctValid (s : State) : (forgetNode s).ctValid = s.ctValid := rfl
@[simp] theorem forgetNode_freq (s : State) : (forgetNode s).freq = s.freq := rfl
@[simp] theorem forgetNode_node (s : State) : (forgetNode s).node = ⟨s.freeCtr, []⟩ := rfl
@[simp] theorem forgetNode_codeLen (s : State) : (forgetNode s).codeLen = s.codeLen := rfl
@[simp] theorem forgetNode_codeBits (s : State) : (forgetNode s).codeBits = s.codeBits := rfl
@[simp] theorem forgetNode_hdr (s : State) : (forgetNode s).hdr = s.hdr := rfl
@[simp] theorem forgetNode_cbuf (s : State) : (forgetNode s).cbuf = s.cbuf := rfl
@[simp] theorem forgetNode_ibuf (s : State) : (forgetNode s).ibuf = s.ibuf := rfl
@[simp] theorem forgetNode_obuf (s : State) : (forgetNode s).obuf = s.obuf := rfl
@[simp] theorem forgetNode_freeCtr (s : State) : (forgetNode s).freeCtr = s.freeCtr + 1 := rfl
@[simp] theorem forgetNode_agenda (s : State) : (forgetNode s).agenda = s.agenda := rfl
@[simp] theorem forgetNode_reads (s : State) : (forgetNode s).reads = s.reads := rfl

/-! ### `forgetCodes` -/

@[simp] theorem forgetCodes_ibufBytes (s : State) : (forgetCodes s).ibufBytes = s.ibufBytes := rfl
@[simp] theorem forgetCodes_obufBytes (s : State) : (forgetCodes s).obufBytes = s.obufBytes := rfl
@[simp] theorem forgetCodes_cbufBits (s : State) : (forgetCodes s).cbufBits = s.cbufBits := rfl
@[simp] theorem forgetCodes_pend (s : State) : (forgetCodes s).pend = s.pend := rfl
@[simp] theorem forgetCodes_busy (s : State) : (forgetCodes s).busy = s.busy := rfl
@[simp] theorem forgetCodes_done (s : State) : (forgetCodes s).done = s.done := rfl
@[simp] theorem forgetCodes_ovr (s : State) : (forgetCodes s).ovr = s.ovr := rfl
@[simp] theorem forgetCodes_errCode (s : State) : (forgetCodes s).errCode = s.errCode := rfl
@[simp] theorem forgetCodes_errOp (s : State) : (forgetCodes s).errOp = s.errOp := rfl
@[simp] theorem forgetCodes_doneIe (s : State) : (forgetCodes s).doneIe = s.doneIe := rfl
@[simp] theorem forgetCodes_errIe (s : State) : (forgetCodes s).errIe = s.errIe := rfl
@[simp] theorem forgetCodes_inLen (s : State) : (forgetCodes s).inLen = s.inLen := rfl
@[simp] theorem forgetCodes_outLen (s : State) : (forgetCodes s).outLen = s.outLen := rfl
@[simp] theorem forgetCodes_total (s : State) : (forgetCodes s).total = s.total := rfl
@[simp] theorem forgetCodes_nsym (s : State) : (forgetCodes s).nsym = s.nsym := rfl
@[simp] theorem forgetCodes_root (s : State) : (forgetCodes s).root = s.root := rfl
@[simp] theorem forgetCodes_nnodes (s : State) : (forgetCodes s).nnodes = s.nnodes := rfl
@[simp] theorem forgetCodes_hbits (s : State) : (forgetCodes s).hbits = s.hbits := rfl
@[simp] theorem forgetCodes_cbits (s : State) : (forgetCodes s).cbits = s.cbits := rfl
@[simp] theorem forgetCodes_decCur (s : State) : (forgetCodes s).decCur = s.decCur := rfl
@[simp] theorem forgetCodes_ftLock (s : State) : (forgetCodes s).ftLock = s.ftLock := rfl
@[simp] theorem forgetCodes_treeValid (s : State) : (forgetCodes s).treeValid = s.treeValid := rfl
@[simp] theorem forgetCodes_ctValid (s : State) : (forgetCodes s).ctValid = s.ctValid := rfl
@[simp] theorem forgetCodes_freq (s : State) : (forgetCodes s).freq = s.freq := rfl
@[simp] theorem forgetCodes_node (s : State) : (forgetCodes s).node = s.node := rfl
@[simp] theorem forgetCodes_codeLen (s : State) : (forgetCodes s).codeLen = ⟨s.freeCtr, []⟩ := rfl
@[simp] theorem forgetCodes_codeBits (s : State) : (forgetCodes s).codeBits = ⟨s.freeCtr + 1, []⟩ := rfl
@[simp] theorem forgetCodes_hdr (s : State) : (forgetCodes s).hdr = s.hdr := rfl
@[simp] theorem forgetCodes_cbuf (s : State) : (forgetCodes s).cbuf = s.cbuf := rfl
@[simp] theorem forgetCodes_ibuf (s : State) : (forgetCodes s).ibuf = s.ibuf := rfl
@[simp] theorem forgetCodes_obuf (s : State) : (forgetCodes s).obuf = s.obuf := rfl
@[simp] theorem forgetCodes_freeCtr (s : State) : (forgetCodes s).freeCtr = s.freeCtr + 2 := rfl
@[simp] theorem forgetCodes_agenda (s : State) : (forgetCodes s).agenda = s.agenda := rfl
@[simp] theorem forgetCodes_reads (s : State) : (forgetCodes s).reads = s.reads := rfl

/-! ### `forgetHdr` -/

@[simp] theorem forgetHdr_ibufBytes (s : State) : (forgetHdr s).ibufBytes = s.ibufBytes := rfl
@[simp] theorem forgetHdr_obufBytes (s : State) : (forgetHdr s).obufBytes = s.obufBytes := rfl
@[simp] theorem forgetHdr_cbufBits (s : State) : (forgetHdr s).cbufBits = s.cbufBits := rfl
@[simp] theorem forgetHdr_pend (s : State) : (forgetHdr s).pend = s.pend := rfl
@[simp] theorem forgetHdr_busy (s : State) : (forgetHdr s).busy = s.busy := rfl
@[simp] theorem forgetHdr_done (s : State) : (forgetHdr s).done = s.done := rfl
@[simp] theorem forgetHdr_ovr (s : State) : (forgetHdr s).ovr = s.ovr := rfl
@[simp] theorem forgetHdr_errCode (s : State) : (forgetHdr s).errCode = s.errCode := rfl
@[simp] theorem forgetHdr_errOp (s : State) : (forgetHdr s).errOp = s.errOp := rfl
@[simp] theorem forgetHdr_doneIe (s : State) : (forgetHdr s).doneIe = s.doneIe := rfl
@[simp] theorem forgetHdr_errIe (s : State) : (forgetHdr s).errIe = s.errIe := rfl
@[simp] theorem forgetHdr_inLen (s : State) : (forgetHdr s).inLen = s.inLen := rfl
@[simp] theorem forgetHdr_outLen (s : State) : (forgetHdr s).outLen = s.outLen := rfl
@[simp] theorem forgetHdr_total (s : State) : (forgetHdr s).total = s.total := rfl
@[simp] theorem forgetHdr_nsym (s : State) : (forgetHdr s).nsym = s.nsym := rfl
@[simp] theorem forgetHdr_root (s : State) : (forgetHdr s).root = s.root := rfl
@[simp] theorem forgetHdr_nnodes (s : State) : (forgetHdr s).nnodes = s.nnodes := rfl
@[simp] theorem forgetHdr_hbits (s : State) : (forgetHdr s).hbits = s.hbits := rfl
@[simp] theorem forgetHdr_cbits (s : State) : (forgetHdr s).cbits = s.cbits := rfl
@[simp] theorem forgetHdr_decCur (s : State) : (forgetHdr s).decCur = s.decCur := rfl
@[simp] theorem forgetHdr_ftLock (s : State) : (forgetHdr s).ftLock = s.ftLock := rfl
@[simp] theorem forgetHdr_treeValid (s : State) : (forgetHdr s).treeValid = s.treeValid := rfl
@[simp] theorem forgetHdr_ctValid (s : State) : (forgetHdr s).ctValid = s.ctValid := rfl
@[simp] theorem forgetHdr_freq (s : State) : (forgetHdr s).freq = s.freq := rfl
@[simp] theorem forgetHdr_node (s : State) : (forgetHdr s).node = s.node := rfl
@[simp] theorem forgetHdr_codeLen (s : State) : (forgetHdr s).codeLen = s.codeLen := rfl
@[simp] theorem forgetHdr_codeBits (s : State) : (forgetHdr s).codeBits = s.codeBits := rfl
@[simp] theorem forgetHdr_hdr (s : State) : (forgetHdr s).hdr = ⟨s.freeCtr, []⟩ := rfl
@[simp] theorem forgetHdr_cbuf (s : State) : (forgetHdr s).cbuf = s.cbuf := rfl
@[simp] theorem forgetHdr_ibuf (s : State) : (forgetHdr s).ibuf = s.ibuf := rfl
@[simp] theorem forgetHdr_obuf (s : State) : (forgetHdr s).obuf = s.obuf := rfl
@[simp] theorem forgetHdr_freeCtr (s : State) : (forgetHdr s).freeCtr = s.freeCtr + 1 := rfl
@[simp] theorem forgetHdr_agenda (s : State) : (forgetHdr s).agenda = s.agenda := rfl
@[simp] theorem forgetHdr_reads (s : State) : (forgetHdr s).reads = s.reads := rfl

/-! ### `forgetCbuf` -/

@[simp] theorem forgetCbuf_ibufBytes (s : State) : (forgetCbuf s).ibufBytes = s.ibufBytes := rfl
@[simp] theorem forgetCbuf_obufBytes (s : State) : (forgetCbuf s).obufBytes = s.obufBytes := rfl
@[simp] theorem forgetCbuf_cbufBits (s : State) : (forgetCbuf s).cbufBits = s.cbufBits := rfl
@[simp] theorem forgetCbuf_pend (s : State) : (forgetCbuf s).pend = s.pend := rfl
@[simp] theorem forgetCbuf_busy (s : State) : (forgetCbuf s).busy = s.busy := rfl
@[simp] theorem forgetCbuf_done (s : State) : (forgetCbuf s).done = s.done := rfl
@[simp] theorem forgetCbuf_ovr (s : State) : (forgetCbuf s).ovr = s.ovr := rfl
@[simp] theorem forgetCbuf_errCode (s : State) : (forgetCbuf s).errCode = s.errCode := rfl
@[simp] theorem forgetCbuf_errOp (s : State) : (forgetCbuf s).errOp = s.errOp := rfl
@[simp] theorem forgetCbuf_doneIe (s : State) : (forgetCbuf s).doneIe = s.doneIe := rfl
@[simp] theorem forgetCbuf_errIe (s : State) : (forgetCbuf s).errIe = s.errIe := rfl
@[simp] theorem forgetCbuf_inLen (s : State) : (forgetCbuf s).inLen = s.inLen := rfl
@[simp] theorem forgetCbuf_outLen (s : State) : (forgetCbuf s).outLen = s.outLen := rfl
@[simp] theorem forgetCbuf_total (s : State) : (forgetCbuf s).total = s.total := rfl
@[simp] theorem forgetCbuf_nsym (s : State) : (forgetCbuf s).nsym = s.nsym := rfl
@[simp] theorem forgetCbuf_root (s : State) : (forgetCbuf s).root = s.root := rfl
@[simp] theorem forgetCbuf_nnodes (s : State) : (forgetCbuf s).nnodes = s.nnodes := rfl
@[simp] theorem forgetCbuf_hbits (s : State) : (forgetCbuf s).hbits = s.hbits := rfl
@[simp] theorem forgetCbuf_cbits (s : State) : (forgetCbuf s).cbits = s.cbits := rfl
@[simp] theorem forgetCbuf_decCur (s : State) : (forgetCbuf s).decCur = s.decCur := rfl
@[simp] theorem forgetCbuf_ftLock (s : State) : (forgetCbuf s).ftLock = s.ftLock := rfl
@[simp] theorem forgetCbuf_treeValid (s : State) : (forgetCbuf s).treeValid = s.treeValid := rfl
@[simp] theorem forgetCbuf_ctValid (s : State) : (forgetCbuf s).ctValid = s.ctValid := rfl
@[simp] theorem forgetCbuf_freq (s : State) : (forgetCbuf s).freq = s.freq := rfl
@[simp] theorem forgetCbuf_node (s : State) : (forgetCbuf s).node = s.node := rfl
@[simp] theorem forgetCbuf_codeLen (s : State) : (forgetCbuf s).codeLen = s.codeLen := rfl
@[simp] theorem forgetCbuf_codeBits (s : State) : (forgetCbuf s).codeBits = s.codeBits := rfl
@[simp] theorem forgetCbuf_hdr (s : State) : (forgetCbuf s).hdr = s.hdr := rfl
@[simp] theorem forgetCbuf_cbuf (s : State) : (forgetCbuf s).cbuf = ⟨s.freeCtr, []⟩ := rfl
@[simp] theorem forgetCbuf_ibuf (s : State) : (forgetCbuf s).ibuf = s.ibuf := rfl
@[simp] theorem forgetCbuf_obuf (s : State) : (forgetCbuf s).obuf = s.obuf := rfl
@[simp] theorem forgetCbuf_freeCtr (s : State) : (forgetCbuf s).freeCtr = s.freeCtr + 1 := rfl
@[simp] theorem forgetCbuf_agenda (s : State) : (forgetCbuf s).agenda = s.agenda := rfl
@[simp] theorem forgetCbuf_reads (s : State) : (forgetCbuf s).reads = s.reads := rfl

/-! ### `forgetIbuf` -/

@[simp] theorem forgetIbuf_ibufBytes (s : State) : (forgetIbuf s).ibufBytes = s.ibufBytes := rfl
@[simp] theorem forgetIbuf_obufBytes (s : State) : (forgetIbuf s).obufBytes = s.obufBytes := rfl
@[simp] theorem forgetIbuf_cbufBits (s : State) : (forgetIbuf s).cbufBits = s.cbufBits := rfl
@[simp] theorem forgetIbuf_pend (s : State) : (forgetIbuf s).pend = s.pend := rfl
@[simp] theorem forgetIbuf_busy (s : State) : (forgetIbuf s).busy = s.busy := rfl
@[simp] theorem forgetIbuf_done (s : State) : (forgetIbuf s).done = s.done := rfl
@[simp] theorem forgetIbuf_ovr (s : State) : (forgetIbuf s).ovr = s.ovr := rfl
@[simp] theorem forgetIbuf_errCode (s : State) : (forgetIbuf s).errCode = s.errCode := rfl
@[simp] theorem forgetIbuf_errOp (s : State) : (forgetIbuf s).errOp = s.errOp := rfl
@[simp] theorem forgetIbuf_doneIe (s : State) : (forgetIbuf s).doneIe = s.doneIe := rfl
@[simp] theorem forgetIbuf_errIe (s : State) : (forgetIbuf s).errIe = s.errIe := rfl
@[simp] theorem forgetIbuf_inLen (s : State) : (forgetIbuf s).inLen = s.inLen := rfl
@[simp] theorem forgetIbuf_outLen (s : State) : (forgetIbuf s).outLen = s.outLen := rfl
@[simp] theorem forgetIbuf_total (s : State) : (forgetIbuf s).total = s.total := rfl
@[simp] theorem forgetIbuf_nsym (s : State) : (forgetIbuf s).nsym = s.nsym := rfl
@[simp] theorem forgetIbuf_root (s : State) : (forgetIbuf s).root = s.root := rfl
@[simp] theorem forgetIbuf_nnodes (s : State) : (forgetIbuf s).nnodes = s.nnodes := rfl
@[simp] theorem forgetIbuf_hbits (s : State) : (forgetIbuf s).hbits = s.hbits := rfl
@[simp] theorem forgetIbuf_cbits (s : State) : (forgetIbuf s).cbits = s.cbits := rfl
@[simp] theorem forgetIbuf_decCur (s : State) : (forgetIbuf s).decCur = s.decCur := rfl
@[simp] theorem forgetIbuf_ftLock (s : State) : (forgetIbuf s).ftLock = s.ftLock := rfl
@[simp] theorem forgetIbuf_treeValid (s : State) : (forgetIbuf s).treeValid = s.treeValid := rfl
@[simp] theorem forgetIbuf_ctValid (s : State) : (forgetIbuf s).ctValid = s.ctValid := rfl
@[simp] theorem forgetIbuf_freq (s : State) : (forgetIbuf s).freq = s.freq := rfl
@[simp] theorem forgetIbuf_node (s : State) : (forgetIbuf s).node = s.node := rfl
@[simp] theorem forgetIbuf_codeLen (s : State) : (forgetIbuf s).codeLen = s.codeLen := rfl
@[simp] theorem forgetIbuf_codeBits (s : State) : (forgetIbuf s).codeBits = s.codeBits := rfl
@[simp] theorem forgetIbuf_hdr (s : State) : (forgetIbuf s).hdr = s.hdr := rfl
@[simp] theorem forgetIbuf_cbuf (s : State) : (forgetIbuf s).cbuf = s.cbuf := rfl
@[simp] theorem forgetIbuf_ibuf (s : State) : (forgetIbuf s).ibuf = ⟨s.freeCtr, []⟩ := rfl
@[simp] theorem forgetIbuf_obuf (s : State) : (forgetIbuf s).obuf = s.obuf := rfl
@[simp] theorem forgetIbuf_freeCtr (s : State) : (forgetIbuf s).freeCtr = s.freeCtr + 1 := rfl
@[simp] theorem forgetIbuf_agenda (s : State) : (forgetIbuf s).agenda = s.agenda := rfl
@[simp] theorem forgetIbuf_reads (s : State) : (forgetIbuf s).reads = s.reads := rfl

/-! ### `forgetObuf` -/

@[simp] theorem forgetObuf_ibufBytes (s : State) : (forgetObuf s).ibufBytes = s.ibufBytes := rfl
@[simp] theorem forgetObuf_obufBytes (s : State) : (forgetObuf s).obufBytes = s.obufBytes := rfl
@[simp] theorem forgetObuf_cbufBits (s : State) : (forgetObuf s).cbufBits = s.cbufBits := rfl
@[simp] theorem forgetObuf_pend (s : State) : (forgetObuf s).pend = s.pend := rfl
@[simp] theorem forgetObuf_busy (s : State) : (forgetObuf s).busy = s.busy := rfl
@[simp] theorem forgetObuf_done (s : State) : (forgetObuf s).done = s.done := rfl
@[simp] theorem forgetObuf_ovr (s : State) : (forgetObuf s).ovr = s.ovr := rfl
@[simp] theorem forgetObuf_errCode (s : State) : (forgetObuf s).errCode = s.errCode := rfl
@[simp] theorem forgetObuf_errOp (s : State) : (forgetObuf s).errOp = s.errOp := rfl
@[simp] theorem forgetObuf_doneIe (s : State) : (forgetObuf s).doneIe = s.doneIe := rfl
@[simp] theorem forgetObuf_errIe (s : State) : (forgetObuf s).errIe = s.errIe := rfl
@[simp] theorem forgetObuf_inLen (s : State) : (forgetObuf s).inLen = s.inLen := rfl
@[simp] theorem forgetObuf_outLen (s : State) : (forgetObuf s).outLen = s.outLen := rfl
@[simp] theorem forgetObuf_total (s : State) : (forgetObuf s).total = s.total := rfl
@[simp] theorem forgetObuf_nsym (s : State) : (forgetObuf s).nsym = s.nsym := rfl
@[simp] theorem forgetObuf_root (s : State) : (forgetObuf s).root = s.root := rfl
@[simp] theorem forgetObuf_nnodes (s : State) : (forgetObuf s).nnodes = s.nnodes := rfl
@[simp] theorem forgetObuf_hbits (s : State) : (forgetObuf s).hbits = s.hbits := rfl
@[simp] theorem forgetObuf_cbits (s : State) : (forgetObuf s).cbits = s.cbits := rfl
@[simp] theorem forgetObuf_decCur (s : State) : (forgetObuf s).decCur = s.decCur := rfl
@[simp] theorem forgetObuf_ftLock (s : State) : (forgetObuf s).ftLock = s.ftLock := rfl
@[simp] theorem forgetObuf_treeValid (s : State) : (forgetObuf s).treeValid = s.treeValid := rfl
@[simp] theorem forgetObuf_ctValid (s : State) : (forgetObuf s).ctValid = s.ctValid := rfl
@[simp] theorem forgetObuf_freq (s : State) : (forgetObuf s).freq = s.freq := rfl
@[simp] theorem forgetObuf_node (s : State) : (forgetObuf s).node = s.node := rfl
@[simp] theorem forgetObuf_codeLen (s : State) : (forgetObuf s).codeLen = s.codeLen := rfl
@[simp] theorem forgetObuf_codeBits (s : State) : (forgetObuf s).codeBits = s.codeBits := rfl
@[simp] theorem forgetObuf_hdr (s : State) : (forgetObuf s).hdr = s.hdr := rfl
@[simp] theorem forgetObuf_cbuf (s : State) : (forgetObuf s).cbuf = s.cbuf := rfl
@[simp] theorem forgetObuf_ibuf (s : State) : (forgetObuf s).ibuf = s.ibuf := rfl
@[simp] theorem forgetObuf_obuf (s : State) : (forgetObuf s).obuf = ⟨s.freeCtr, []⟩ := rfl
@[simp] theorem forgetObuf_freeCtr (s : State) : (forgetObuf s).freeCtr = s.freeCtr + 1 := rfl
@[simp] theorem forgetObuf_agenda (s : State) : (forgetObuf s).agenda = s.agenda := rfl
@[simp] theorem forgetObuf_reads (s : State) : (forgetObuf s).reads = s.reads := rfl

/-! ### `softReset` -/

@[simp] theorem softReset_ibufBytes (s : State) : (softReset s).ibufBytes = s.ibufBytes := rfl
@[simp] theorem softReset_obufBytes (s : State) : (softReset s).obufBytes = s.obufBytes := rfl
@[simp] theorem softReset_cbufBits (s : State) : (softReset s).cbufBits = s.cbufBits := rfl
@[simp] theorem softReset_pend (s : State) : (softReset s).pend = Config.freeWord s.freeCtr := rfl
@[simp] theorem softReset_busy (s : State) : (softReset s).busy = s.busy := rfl
@[simp] theorem softReset_done (s : State) : (softReset s).done = false := rfl
@[simp] theorem softReset_ovr (s : State) : (softReset s).ovr = false := rfl
@[simp] theorem softReset_errCode (s : State) : (softReset s).errCode = 0#8 := rfl
@[simp] theorem softReset_errOp (s : State) : (softReset s).errOp = 0#8 := rfl
@[simp] theorem softReset_doneIe (s : State) : (softReset s).doneIe = false := rfl
@[simp] theorem softReset_errIe (s : State) : (softReset s).errIe = false := rfl
@[simp] theorem softReset_inLen (s : State) : (softReset s).inLen = 0 := rfl
@[simp] theorem softReset_outLen (s : State) : (softReset s).outLen = 0 := rfl
@[simp] theorem softReset_total (s : State) : (softReset s).total = 0 := rfl
@[simp] theorem softReset_nsym (s : State) : (softReset s).nsym = 0 := rfl
@[simp] theorem softReset_root (s : State) : (softReset s).root = 0 := rfl
@[simp] theorem softReset_nnodes (s : State) : (softReset s).nnodes = 0 := rfl
@[simp] theorem softReset_hbits (s : State) : (softReset s).hbits = 0 := rfl
@[simp] theorem softReset_cbits (s : State) : (softReset s).cbits = 0 := rfl
@[simp] theorem softReset_decCur (s : State) : (softReset s).decCur = 0 := rfl
@[simp] theorem softReset_ftLock (s : State) : (softReset s).ftLock = false := rfl
@[simp] theorem softReset_treeValid (s : State) : (softReset s).treeValid = false := rfl
@[simp] theorem softReset_ctValid (s : State) : (softReset s).ctValid = false := rfl
@[simp] theorem softReset_freq (s : State) : (softReset s).freq = [] := rfl
@[simp] theorem softReset_node (s : State) : (softReset s).node = s.node := rfl
@[simp] theorem softReset_codeLen (s : State) : (softReset s).codeLen = s.codeLen := rfl
@[simp] theorem softReset_codeBits (s : State) : (softReset s).codeBits = s.codeBits := rfl
@[simp] theorem softReset_hdr (s : State) : (softReset s).hdr = s.hdr := rfl
@[simp] theorem softReset_cbuf (s : State) : (softReset s).cbuf = s.cbuf := rfl
@[simp] theorem softReset_ibuf (s : State) : (softReset s).ibuf = s.ibuf := rfl
@[simp] theorem softReset_obuf (s : State) : (softReset s).obuf = s.obuf := rfl
@[simp] theorem softReset_freeCtr (s : State) : (softReset s).freeCtr = s.freeCtr + 1 := rfl
@[simp] theorem softReset_agenda (s : State) : (softReset s).agenda = s.agenda := rfl
@[simp] theorem softReset_reads (s : State) : (softReset s).reads = s.reads := rfl

/-! ### `hardReset` -/

@[simp] theorem hardReset_ibufBytes (s : State) : (hardReset s).ibufBytes = s.ibufBytes := rfl
@[simp] theorem hardReset_obufBytes (s : State) : (hardReset s).obufBytes = s.obufBytes := rfl
@[simp] theorem hardReset_cbufBits (s : State) : (hardReset s).cbufBits = s.cbufBits := rfl
@[simp] theorem hardReset_pend (s : State) : (hardReset s).pend = Config.freeWord s.freeCtr := rfl
@[simp] theorem hardReset_busy (s : State) : (hardReset s).busy = false := rfl
@[simp] theorem hardReset_done (s : State) : (hardReset s).done = false := rfl
@[simp] theorem hardReset_ovr (s : State) : (hardReset s).ovr = false := rfl
@[simp] theorem hardReset_errCode (s : State) : (hardReset s).errCode = 0#8 := rfl
@[simp] theorem hardReset_errOp (s : State) : (hardReset s).errOp = 0#8 := rfl
@[simp] theorem hardReset_doneIe (s : State) : (hardReset s).doneIe = false := rfl
@[simp] theorem hardReset_errIe (s : State) : (hardReset s).errIe = false := rfl
@[simp] theorem hardReset_inLen (s : State) : (hardReset s).inLen = 0 := rfl
@[simp] theorem hardReset_outLen (s : State) : (hardReset s).outLen = 0 := rfl
@[simp] theorem hardReset_total (s : State) : (hardReset s).total = 0 := rfl
@[simp] theorem hardReset_nsym (s : State) : (hardReset s).nsym = 0 := rfl
@[simp] theorem hardReset_root (s : State) : (hardReset s).root = 0 := rfl
@[simp] theorem hardReset_nnodes (s : State) : (hardReset s).nnodes = 0 := rfl
@[simp] theorem hardReset_hbits (s : State) : (hardReset s).hbits = 0 := rfl
@[simp] theorem hardReset_cbits (s : State) : (hardReset s).cbits = 0 := rfl
@[simp] theorem hardReset_decCur (s : State) : (hardReset s).decCur = 0 := rfl
@[simp] theorem hardReset_ftLock (s : State) : (hardReset s).ftLock = false := rfl
@[simp] theorem hardReset_treeValid (s : State) : (hardReset s).treeValid = false := rfl
@[simp] theorem hardReset_ctValid (s : State) : (hardReset s).ctValid = false := rfl
@[simp] theorem hardReset_freq (s : State) : (hardReset s).freq = [] := rfl
@[simp] theorem hardReset_node (s : State) : (hardReset s).node = ⟨s.freeCtr + 1, []⟩ := rfl
@[simp] theorem hardReset_codeLen (s : State) : (hardReset s).codeLen = ⟨s.freeCtr + 2, []⟩ := rfl
@[simp] theorem hardReset_codeBits (s : State) : (hardReset s).codeBits = ⟨s.freeCtr + 3, []⟩ := rfl
@[simp] theorem hardReset_hdr (s : State) : (hardReset s).hdr = ⟨s.freeCtr + 4, []⟩ := rfl
@[simp] theorem hardReset_cbuf (s : State) : (hardReset s).cbuf = ⟨s.freeCtr + 5, []⟩ := rfl
@[simp] theorem hardReset_ibuf (s : State) : (hardReset s).ibuf = ⟨s.freeCtr + 6, []⟩ := rfl
@[simp] theorem hardReset_obuf (s : State) : (hardReset s).obuf = ⟨s.freeCtr + 7, []⟩ := rfl
@[simp] theorem hardReset_freeCtr (s : State) : (hardReset s).freeCtr = s.freeCtr + 8 := rfl
@[simp] theorem hardReset_agenda (s : State) : (hardReset s).agenda = s.agenda := rfl
@[simp] theorem hardReset_reads (s : State) : (hardReset s).reads = s.reads := rfl

/-! ### The resets as one update -/

/-- What SOFT_RESET does before it completes, as one update. -/
theorem softReset_eq (s : State) : softReset s =
    { s with
      freq := [], total := 0, nsym := 0, ftLock := false, treeValid := false, ctValid := false
      root := 0, nnodes := 0, decCur := 0, done := false, ovr := false, errCode := 0#8, errOp := 0#8
      doneIe := false, errIe := false, inLen := 0, outLen := 0, hbits := 0, cbits := 0
      pend := Config.freeWord s.freeCtr, freeCtr := s.freeCtr + 1 } := by
  simp only [softReset, sessionClear, forgetPend]

/-- Hardware reset, as one update. -/
theorem hardReset_eq (s : State) : hardReset s =
    { State.resetWith s.ibufBytes s.obufBytes s.cbufBits with
      pend := Config.freeWord s.freeCtr, node := ⟨s.freeCtr + 1, []⟩, codeLen := ⟨s.freeCtr + 2, []⟩
      codeBits := ⟨s.freeCtr + 3, []⟩, hdr := ⟨s.freeCtr + 4, []⟩, cbuf := ⟨s.freeCtr + 5, []⟩
      ibuf := ⟨s.freeCtr + 6, []⟩, obuf := ⟨s.freeCtr + 7, []⟩, freeCtr := s.freeCtr + 8
      agenda := s.agenda, reads := s.reads } := by
  simp only [hardReset, softReset, sessionClear, forgetObuf, forgetIbuf, forgetCbuf, forgetHdr,
    forgetCodes, forgetNode, forgetPend, State.resetWith]

end Sys2Proof.Machine
end

