-- ==== Sys2Proof/Laws/Command.lean ====
section
/-!
SUPPORT. What the end of a command can do, and what a sequence of bodies can do.
-/

namespace Sys2Proof.Machine

@[simp] theorem runCommand_ok (s0 s1 : State) (f : ErrKind → State → State) :
    runCommand s0 (.ok s1) f = .next (complete s1) := rfl

@[simp] theorem runCommand_raise (s0 : State) (e : ErrKind) (f : ErrKind → State → State) :
    runCommand s0 (.error (.raise e)) f = .next (complete (errorEntry e (f e s0))) := rfl

@[simp] theorem runCommand_stuck (s0 : State) (x : Fault) (f : ErrKind → State → State) :
    runCommand s0 (.error (.stuck x)) f = .fault x := rfl

/-- The end without an error, as claims name it. -/
theorem complete_eq (s : State) : complete s = afterDone s := rfl

/-- The end with an error, as claims name it. -/
theorem complete_errorEntry (e : ErrKind) (s : State) :
    complete (errorEntry e s) = afterError (errCodeOf e) s := rfl

/-- A command answers a next state exactly when its body ends or raises an error. -/
theorem runCommand_next_iff {s0 t : State} {b : Body} {f : ErrKind → State → State} :
    runCommand s0 b f = .next t ↔
      (∃ s1, b = .ok s1 ∧ t = complete s1) ∨
        (∃ e, b = .error (.raise e) ∧ t = complete (errorEntry e (f e s0))) := by
  match b with
  | .ok s1 => simp [eq_comm]
  | .error (.raise e) => simp [eq_comm]
  | .error (.stuck x) => simp

/-- A command faults exactly when its body is stuck. -/
theorem runCommand_fault_iff {s0 : State} {b : Body} {f : ErrKind → State → State} {x : Fault} :
    runCommand s0 b f = .fault x ↔ b = .error (.stuck x) := by
  match b with
  | .ok s1 => simp
  | .error (.raise e) => simp
  | .error (.stuck y) => simp

/-- No command is refused. -/
theorem runCommand_not_refused {s0 : State} {b : Body} {f : ErrKind → State → State} {r : Refusal} :
    runCommand s0 b f ≠ .refused r := by
  match b with
  | .ok s1 => simp
  | .error (.raise e) => simp
  | .error (.stuck y) => simp

@[simp] theorem thenBody_ok (s : State) (f : State → Body) : thenBody (.ok s) f = f s := rfl

@[simp] theorem thenBody_error (e : Stop) (f : State → Body) : thenBody (.error e) f = .error e := rfl

/-- A sequence ends exactly when both bodies do. -/
theorem thenBody_eq_ok {r : Body} {f : State → Body} {t : State} :
    thenBody r f = .ok t ↔ ∃ s, r = .ok s ∧ f s = .ok t := by
  cases r <;> simp

/-- A sequence stops exactly when one of the bodies does. -/
theorem thenBody_eq_error {r : Body} {f : State → Body} {e : Stop} :
    thenBody r f = .error e ↔ r = .error e ∨ ∃ s, r = .ok s ∧ f s = .error e := by
  cases r <;> simp

@[simp] theorem guarded_true (b : Body) : guarded true b = b := rfl

@[simp] theorem guarded_false (b : Body) : guarded false b = .error (.raise .sequence) := rfl

theorem guarded_eq_ok {c : Bool} {b : Body} {t : State} :
    guarded c b = .ok t ↔ c = true ∧ b = .ok t := by cases c <;> simp

theorem guarded_eq_error {c : Bool} {b : Body} {e : Stop} :
    guarded c b = .error e ↔
      (c = false ∧ e = .raise .sequence) ∨ (c = true ∧ b = .error e) := by
  cases c <;> simp [eq_comm]

end Sys2Proof.Machine
end

