-- ==== Sys2Proof/Laws/Counter.lean ====
section
/-!
SUPPORT. What counting does: `count1` and `countAll` (41_frequency_counter.md R92, R96).
-/

namespace Sys2Proof.Machine

/-- The state after counting one byte. -/
theorem count1_eq {b : Byte} {s : State} (h : s.total ≠ 2 ^ 32 - 1) :
    count1 b s = .ok { s with
      nsym := if freqAt s b.toNat = 0 then s.nsym + 1 else s.nsym
      freq := cellSet s.freq b.toNat (freqAt s b.toNat + 1)
      total := s.total + 1 } := by
  rw [count1, if_neg h]

/-- Everything `count1` can do. -/
theorem count1_ok_iff {b : Byte} {s t : State} :
    count1 b s = .ok t ↔ s.total ≠ 2 ^ 32 - 1 ∧ t = { s with
      nsym := if freqAt s b.toNat = 0 then s.nsym + 1 else s.nsym
      freq := cellSet s.freq b.toNat (freqAt s b.toNat + 1)
      total := s.total + 1 } := by
  unfold count1
  split <;> simp_all [eq_comm]

theorem count1_error {b : Byte} {s : State} {e : Stop} (h : count1 b s = .error e) :
    e = .raise .limit := by
  unfold count1 at h
  split at h <;> simp_all

theorem countAll_error {bs : List Byte} {s : State} {e : Stop} (h : countAll bs s = .error e) :
    e = .raise .limit := by
  induction bs generalizing s with
  | nil => simp [countAll] at h
  | cons b bs ih =>
    rcases thenBody_eq_error.mp h with h | ⟨s1, -, h⟩
    · exact count1_error h
    · exact ih h

/-- Counting changes FREQ, TOTAL and NSYM only. -/
theorem countAll_frame {bs : List Byte} {s t : State} (h : countAll bs s = .ok t) :
    t = { s with nsym := t.nsym, freq := t.freq, total := t.total } := by
  induction bs generalizing s with
  | nil => simp only [countAll, Except.ok.injEq] at h; subst h; rfl
  | cons b bs ih =>
    obtain ⟨s1, h1, h2⟩ := thenBody_eq_ok.mp h
    obtain ⟨-, rfl⟩ := count1_ok_iff.mp h1
    have h3 := ih h2
    exact h3

@[simp] theorem freqAt_cellSet (s : State) (a x n : Nat) (k m : Nat) :
    freqAt { s with nsym := k, freq := cellSet s.freq a n, total := m } x =
      if x = a then n else freqAt s x := by
  simp only [freqAt, cellGet_cellSet]
  split
  · rename_i h
    split at h <;> simp_all
  · rename_i h
    split at h <;> simp_all

/-- The counts after counting a byte sequence, and TOTAL. -/
theorem countAll_counts {bs : List Byte} {s t : State} (h : countAll bs s = .ok t) :
    t.total = s.total + bs.length ∧ ∀ x : Byte, freqAt t x.toNat = freqAt s x.toNat + bs.count x := by
  induction bs generalizing s with
  | nil => simp only [countAll, Except.ok.injEq] at h; subst h; simp
  | cons b bs ih =>
    obtain ⟨s1, h1, h2⟩ := thenBody_eq_ok.mp h
    obtain ⟨-, rfl⟩ := count1_ok_iff.mp h1
    obtain ⟨ht, hf⟩ := ih h2
    refine ⟨by simp only [ht, List.length_cons]; omega, fun x => ?_⟩
    rw [hf, freqAt_cellSet, List.count_cons]
    by_cases hx : x = b
    · subst hx; simp; omega
    · have : x.toNat ≠ b.toNat := fun hh => hx (BitVec.eq_of_toNat_eq hh)
      simp [this, Ne.symm hx]

/-- Counting ends whenever the counts stay below `2^32`. -/
theorem countAll_ends {bs : List Byte} {s : State} (h : s.total + bs.length ≤ 2 ^ 32 - 1) :
    ∃ t, countAll bs s = .ok t := by
  induction bs generalizing s with
  | nil => exact ⟨s, rfl⟩
  | cons b bs ih =>
    simp only [List.length_cons] at h
    rw [countAll, count1_eq (by omega)]
    exact ih (by simp only; omega)

/-- Counting that ends has kept TOTAL within its 32 bits. -/
theorem countAll_total_le {bs : List Byte} {s t : State} (h : countAll bs s = .ok t)
    (hs : s.total ≤ 2 ^ 32 - 1) : t.total ≤ 2 ^ 32 - 1 := by
  induction bs generalizing s with
  | nil => cases h; exact hs
  | cons b bs ih =>
    obtain ⟨s1, h1, h2⟩ := thenBody_eq_ok.mp h
    obtain ⟨h3, rfl⟩ := count1_ok_iff.mp h1
    exact ih h2 (by show s.total + 1 ≤ _; omega)

theorem sum_map_range_update (f : Nat → Nat) (a n m : Nat) (ha : a < n) :
    ((List.range n).map fun x => if x = a then m else f x).sum + f a =
      ((List.range n).map f).sum + m := by
  induction n with
  | zero => omega
  | succ n ih =>
    simp only [List.range_succ, List.map_append, List.map_cons, List.map_nil, List.sum_append,
      List.sum_cons, List.sum_nil, Nat.add_zero]
    by_cases h : a = n
    · subst h
      have : ((List.range a).map fun x => if x = a then m else f x) = (List.range a).map f := by
        apply List.map_congr_left
        intro x hx
        have := List.mem_range.mp hx
        rw [if_neg (by omega)]
      rw [this]; simp; omega
    · have := ih (by omega)
      rw [if_neg (Ne.symm h)]
      omega

theorem length_filter_range_update (f : Nat → Nat) (a n m : Nat) (ha : a < n) (hm : 0 < m) :
    ((List.range n).filter fun x => decide (0 < if x = a then m else f x)).length =
      ((List.range n).filter fun x => decide (0 < f x)).length + if f a = 0 then 1 else 0 := by
  induction n with
  | zero => omega
  | succ n ih =>
    simp only [List.range_succ, List.filter_append, List.length_append]
    by_cases h : a = n
    · subst h
      have : ((List.range a).filter fun x => decide (0 < if x = a then m else f x)) =
          (List.range a).filter fun x => decide (0 < f x) := by
        apply List.filter_congr
        intro x hx
        have := List.mem_range.mp hx
        rw [if_neg (by omega)]
      rw [this]
      by_cases h0 : f a = 0
      · simp [h0, hm]
      · simp [h0, hm, Nat.pos_of_ne_zero h0]
    · have := ih (by omega)
      have h' : (if n = a then m else f n) = f n := if_neg (Ne.symm h)
      simp only [List.filter_cons, List.filter_nil, h', this]
      omega

/-- Counting one byte keeps the counts exact (10_state.md R46 item 1). -/
theorem count1_keeps_counts {b : Byte} {s t : State} (h : count1 b s = .ok t) (hs : CountsExact s) :
    CountsExact t := by
  obtain ⟨hne, rfl⟩ := count1_ok_iff.mp h
  obtain ⟨h1, h2, h3, h4, h5⟩ := hs
  have hb : b.toNat < 256 := b.isLt
  refine ⟨?_, ?_, ?_, ?_, ?_⟩
  · have := sum_map_range_update (freqAt s) b.toNat 256 (freqAt s b.toNat + 1) hb
    have hf : ∀ k m, freqAt { s with
        nsym := k, freq := cellSet s.freq b.toNat (freqAt s b.toNat + 1), total := m } =
        fun x => if x = b.toNat then freqAt s b.toNat + 1 else freqAt s x :=
      fun k m => funext fun x => freqAt_cellSet s b.toNat x _ k m
    rw [hf]
    simp only
    omega
  · simp only [freqAt_cellSet]
    rw [length_filter_range_update (freqAt s) b.toNat 256 _ hb (by omega), ← h2]
    split <;> rfl
  · simp only; omega
  · exact cellsOk_cellSet _ h4 hb
  · intro c hc
    rcases mem_cellSet hc with hc | hc
    · subst hc; simp
    · exact h5 c hc

/-- Counting keeps the counts exact (10_state.md R46 item 1). -/
theorem countAll_keeps_counts {bs : List Byte} {s t : State} (h : countAll bs s = .ok t)
    (hs : CountsExact s) : CountsExact t := by
  induction bs generalizing s with
  | nil => simp only [countAll, Except.ok.injEq] at h; subst h; exact hs
  | cons b bs ih =>
    obtain ⟨s1, h1, h2⟩ := thenBody_eq_ok.mp h
    exact ih h2 (count1_keeps_counts h1 hs)

theorem freqAt_nil {s : State} (h : s.freq = []) (x : Nat) : freqAt s x = 0 := by simp [freqAt, h]

theorem countsExact_of_empty {s : State} (hf : s.freq = []) (ht : s.total = 0) (hn : s.nsym = 0) :
    CountsExact s := by
  have h0 : freqAt s = fun _ => 0 := funext (freqAt_nil hf)
  refine ⟨?_, ?_, ?_, ?_, ?_⟩
  · rw [ht, h0, List.map_const', List.sum_replicate, nsmul_zero]
  · rw [hn, h0]
    simp only [Nat.lt_irrefl, decide_false, List.filter_false, List.length_nil]
  · omega
  · rw [hf]; rfl
  · rw [hf]; simp

/-- A cleared session's counts are exact. -/
theorem sessionClear_counts (s : State) : CountsExact (sessionClear s) :=
  countsExact_of_empty rfl rfl rfl

end Sys2Proof.Machine
end

