-- ==== Sys2Proof/Laws/Tree.lean ====
section
/-!
SUPPORT. Trees: their size, their reading from an arena, what the derivation and the serialization of
an arena's tree give, and that codes are prefix-free.
-/

namespace Sys2Proof.Machine

/-! ### Size -/

@[simp] theorem CodeTree.index_leaf (i : Nat) (x : Byte) : (CodeTree.leaf i x).index = i := rfl

@[simp] theorem CodeTree.index_node (i : Nat) (l r : CodeTree) : (CodeTree.node i l r).index = i := rfl

theorem SymTree.symbols_pos (t : SymTree) : 1 ≤ t.symbols.length := by
  induction t with
  | leaf x => simp [SymTree.symbols]
  | node l r hl hr => simp only [SymTree.symbols, List.length_append]; omega

/-- A header has `10·L - 1` bits (46_tree_serializer.md R123). -/
theorem SymTree.header_length (t : SymTree) : t.header.length + 1 = 10 * t.symbols.length := by
  induction t with
  | leaf x => simp [SymTree.header, SymTree.symbols]
  | node l r hl hr =>
    simp only [SymTree.header, SymTree.symbols, List.length_cons, List.length_append]; omega

theorem CodeTree.indices_length (t : CodeTree) :
    t.indices.length + 1 = 2 * t.erase.symbols.length := by
  induction t with
  | leaf i x => simp [CodeTree.indices, CodeTree.erase, SymTree.symbols]
  | node i l r hl hr =>
    simp only [CodeTree.indices, CodeTree.erase, SymTree.symbols, List.length_cons,
      List.length_append]; omega

theorem CodeTree.index_mem (t : CodeTree) : t.index ∈ t.indices := by
  cases t <;> simp [CodeTree.index, CodeTree.indices]

theorem CodeTree.internals_sub {t : CodeTree} {i : Nat} (h : i ∈ t.internals) : i ∈ t.indices := by
  induction t with
  | leaf j x => simp [CodeTree.internals] at h
  | node j l r hl hr =>
    simp only [CodeTree.internals, List.mem_cons, List.mem_append] at h
    simp only [CodeTree.indices, List.mem_cons, List.mem_append]
    rcases h with h | h | h
    · exact .inl h
    · exact .inr (.inl (hl h))
    · exact .inr (.inr (hr h))

theorem SymTree.paths_symbols (t : SymTree) : t.paths.map Prod.fst = t.symbols := by
  induction t with
  | leaf x => rfl
  | node l r hl hr =>
    simp only [SymTree.paths, SymTree.symbols, List.map_append, List.map_map]
    rw [← hl, ← hr]; rfl

theorem SymTree.codes_symbols (t : SymTree) : t.codes.map Prod.fst = t.symbols := by
  cases t with
  | leaf x => rfl
  | node l r => exact SymTree.paths_symbols _

/-- A path is shorter than the tree has leaves (42_tree_builder.md R101). -/
theorem SymTree.path_length {t : SymTree} {p : Byte × Bits} (h : p ∈ t.paths) :
    p.2.length + 1 ≤ t.symbols.length := by
  induction t generalizing p with
  | leaf x => simp only [SymTree.paths, List.mem_singleton] at h; subst h; simp [SymTree.symbols]
  | node l r hl hr =>
    have h1 := l.symbols_pos
    have h2 := r.symbols_pos
    simp only [SymTree.paths, List.mem_append, List.mem_map] at h
    simp only [SymTree.symbols, List.length_append]
    rcases h with ⟨q, hq, rfl⟩ | ⟨q, hq, rfl⟩
    · have := hl hq; simp only [List.length_cons]; omega
    · have := hr hq; simp only [List.length_cons]; omega

theorem SymTree.code_bounds {t : SymTree} {p : Byte × Bits} (h : p ∈ t.codes) :
    1 ≤ p.2.length ∧ p.2.length ≤ max 1 (t.symbols.length - 1) := by
  cases t with
  | leaf x => simp only [SymTree.codes, List.mem_singleton] at h; subst h; simp
  | node l r =>
    have h0 := SymTree.path_length h
    refine ⟨?_, by omega⟩
    simp only [SymTree.codes, SymTree.paths, List.mem_append, List.mem_map] at h
    rcases h with ⟨q, -, rfl⟩ | ⟨q, -, rfl⟩ <;> simp

/-! ### The code of a symbol -/

/-- The first entry with a given symbol is the one entry with it. -/
theorem find_of_nodup {ps : List (Byte × Bits)} (hn : (ps.map Prod.fst).Nodup) {p : Byte × Bits}
    (hp : p ∈ ps) : ps.find? (fun q => decide (q.1 = p.1)) = some p := by
  induction ps with
  | nil => simp at hp
  | cons q ps ih =>
    simp only [List.map_cons, List.nodup_cons] at hn
    rcases List.mem_cons.mp hp with h | h
    · subst h; simp
    · have : q.1 ≠ p.1 := fun hq => hn.1 (hq ▸ List.mem_map.mpr ⟨p, h, rfl⟩)
      rw [List.find?_cons_of_neg (by simpa using this), ih hn.2 h]

theorem SymTree.code_of_mem {t : SymTree} (hn : t.symbols.Nodup) {p : Byte × Bits} (hp : p ∈ t.codes) :
    t.code p.1 = p.2 := by
  rw [SymTree.code, find_of_nodup (by rwa [SymTree.codes_symbols]) hp]

theorem SymTree.code_of_not_mem {t : SymTree} {x : Byte} (hx : x ∉ t.symbols) : t.code x = [] := by
  have : t.codes.find? (fun p => decide (p.1 = x)) = none := by
    rw [List.find?_eq_none]
    intro p hp
    have : p.1 ∈ t.symbols := by
      rw [← SymTree.codes_symbols]; exact List.mem_map.mpr ⟨p, hp, rfl⟩
    simp only [decide_eq_true_eq]
    exact fun hq => hx (hq ▸ this)
  rw [SymTree.code, this]

theorem SymTree.exists_code {t : SymTree} {x : Byte} (hx : x ∈ t.symbols) :
    ∃ p ∈ t.codes, p.1 = x := by
  rw [← SymTree.codes_symbols] at hx
  obtain ⟨p, hp, h⟩ := List.mem_map.mp hx
  exact ⟨p, hp, h⟩

/-- A symbol has a code exactly when it is a leaf of the tree. -/
theorem SymTree.code_length_pos {t : SymTree} (hn : t.symbols.Nodup) (x : Byte) :
    0 < (t.code x).length ↔ x ∈ t.symbols := by
  constructor
  · intro h
    by_contra hx
    simp [SymTree.code_of_not_mem hx] at h
  · intro hx
    obtain ⟨p, hp, rfl⟩ := SymTree.exists_code hx
    rw [SymTree.code_of_mem hn hp]
    exact (SymTree.code_bounds hp).1

theorem SymTree.code_length_le (t : SymTree) (hn : t.symbols.Nodup) (hl : t.symbols.length ≤ 256)
    (x : Byte) : (t.code x).length ≤ 255 := by
  by_cases hx : x ∈ t.symbols
  · obtain ⟨p, hp, rfl⟩ := SymTree.exists_code hx
    rw [SymTree.code_of_mem hn hp]
    have := (SymTree.code_bounds hp).2
    omega
  · simp [SymTree.code_of_not_mem hx]

/-! ### Prefix-freedom (43_code_table_deriver.md R106) -/

theorem SymTree.paths_prefix_free {t : SymTree} {p q : Byte × Bits} (hp : p ∈ t.paths)
    (hq : q ∈ t.paths) (h : p.2 <+: q.2) (hn : t.symbols.Nodup) : p = q := by
  induction t generalizing p q with
  | leaf x =>
    simp only [SymTree.paths, List.mem_singleton] at hp hq
    rw [hp, hq]
  | node l r hl hr =>
    simp only [SymTree.symbols, List.nodup_append] at hn
    simp only [SymTree.paths, List.mem_append, List.mem_map] at hp hq
    rcases hp with ⟨p', hp', rfl⟩ | ⟨p', hp', rfl⟩ <;> rcases hq with ⟨q', hq', rfl⟩ | ⟨q', hq', rfl⟩
    · simp only [List.cons_prefix_cons, true_and] at h
      have := hl hp' hq' h hn.1
      rw [this]
    · simp at h
    · simp at h
    · simp only [List.cons_prefix_cons, true_and] at h
      have := hr hp' hq' h hn.2.1
      rw [this]

/-! ### Reading an arena's tree -/

theorem treeIn_leaf {nodes : Buf Node} {i : Nat} {x : Byte} :
    treeIn nodes (.leaf i x) = true ↔ (arenaAt nodes i).kind = .leaf ∧ (arenaAt nodes i).sym = x := by
  simp [treeIn]

theorem treeIn_node {nodes : Buf Node} {i : Nat} {l r : CodeTree} :
    treeIn nodes (.node i l r) = true ↔
      (arenaAt nodes i).kind = .internal ∧ (arenaAt nodes i).left = l.index ∧
        (arenaAt nodes i).right = r.index ∧ treeIn nodes l = true ∧ treeIn nodes r = true := by
  simp [treeIn, and_assoc]

/-- Whether an arena holds a tree depends on the entries of the tree alone. -/
theorem treeIn_congr {nodes nodes' : Buf Node} {t : CodeTree}
    (h : ∀ i ∈ t.indices, arenaAt nodes' i = arenaAt nodes i) : treeIn nodes' t = treeIn nodes t := by
  induction t with
  | leaf i x => simp only [treeIn, h i (by simp [CodeTree.indices])]
  | node i l r hl hr =>
    simp only [treeIn, h i (by simp [CodeTree.indices]),
      hl fun j hj => h j (by simp [CodeTree.indices, hj]),
      hr fun j hj => h j (by simp [CodeTree.indices, hj])]

theorem treeIn_bufSet {nodes : Buf Node} {t : CodeTree} {i : Nat} {n : Node} (h : i ∉ t.indices) :
    treeIn (bufSet nodes i n) t = treeIn nodes t :=
  treeIn_congr fun _ hj => bufGet_bufSet_other _ _ _ (fun hh => h (hh ▸ hj))

/-- `ser` of the tree an arena holds is the tree's header. -/
theorem serBits_of_tree {nodes : Buf Node} {t : CodeTree} {fuel : Nat} (ht : treeIn nodes t = true)
    (hf : t.erase.symbols.length ≤ fuel) : serBits nodes fuel t.index = some t.erase.header := by
  induction t generalizing fuel with
  | leaf i x =>
    obtain ⟨h1, h2⟩ := treeIn_leaf.mp ht
    obtain ⟨fuel, rfl⟩ := Nat.exists_eq_add_of_le' (Nat.le_trans (SymTree.symbols_pos _) hf)
    simp [serBits, CodeTree.erase, SymTree.header, h1, h2]
  | node i l r hl hr =>
    obtain ⟨h1, h2, h3, h4, h5⟩ := treeIn_node.mp ht
    simp only [CodeTree.erase, SymTree.symbols, List.length_append] at hf
    have pl := l.erase.symbols_pos
    have pr := r.erase.symbols_pos
    obtain ⟨fuel, rfl⟩ := Nat.exists_eq_add_of_le' (show 1 ≤ fuel by omega)
    simp [serBits, h1, h2, h3, hl h4 (fuel := fuel) (by omega),
      hr h5 (fuel := fuel) (by omega), CodeTree.erase, SymTree.header]

/-- The walk of the tree an arena holds gives the tree's paths. -/
theorem walkCodes_of_tree {nodes : Buf Node} {t : CodeTree} {fuel : Nat} (path : Bits)
    (ht : treeIn nodes t = true) (hf : t.erase.symbols.length ≤ fuel) :
    walkCodes nodes fuel t.index path = some (t.erase.paths.map fun p => (p.1, path ++ p.2)) := by
  induction t generalizing fuel path with
  | leaf i x =>
    obtain ⟨h1, h2⟩ := treeIn_leaf.mp ht
    obtain ⟨fuel, rfl⟩ := Nat.exists_eq_add_of_le' (Nat.le_trans (SymTree.symbols_pos _) hf)
    simp [walkCodes, CodeTree.erase, SymTree.paths, h1, h2]
  | node i l r hl hr =>
    obtain ⟨h1, h2, h3, h4, h5⟩ := treeIn_node.mp ht
    simp only [CodeTree.erase, SymTree.symbols, List.length_append] at hf
    have pl := l.erase.symbols_pos
    have pr := r.erase.symbols_pos
    obtain ⟨fuel, rfl⟩ := Nat.exists_eq_add_of_le' (show 1 ≤ fuel by omega)
    simp [walkCodes, h1, h2, h3, hl _ h4 (fuel := fuel) (by omega),
      hr _ h5 (fuel := fuel) (by omega), CodeTree.erase, SymTree.paths, Function.comp_def]

/-- The codes `derive()` records for the tree an arena holds (43_code_table_deriver.md R104). -/
theorem treeCodes_of_tree {nodes : Buf Node} {t : CodeTree} (ht : treeIn nodes t = true)
    (hl : t.erase.symbols.length ≤ 256) : treeCodes nodes t.index = some t.erase.codes := by
  cases t with
  | leaf i x =>
    obtain ⟨h1, h2⟩ := treeIn_leaf.mp ht
    simp [treeCodes, CodeTree.erase, SymTree.codes, h1, h2]
  | node i l r =>
    have hw := walkCodes_of_tree (fuel := walkFuel) [] ht (by unfold walkFuel; omega)
    obtain ⟨h1, -⟩ := treeIn_node.mp ht
    have : (arenaAt nodes (CodeTree.node i l r).index).kind ≠ .leaf := by simp [h1]
    rw [treeCodes, if_neg this, hw]
    simp [CodeTree.erase, SymTree.codes]

/-! ### Writing the code table -/

theorem bufGet_writeLengths (b : Buf Nat) (codes : List (Byte × Bits))
    (hn : (codes.map Prod.fst).Nodup) (x : Nat) :
    bufGet freeCodeLen (writeLengths b codes) x =
      match codes.find? fun p => decide (p.1.toNat = x) with
      | some p => p.2.length
      | none => bufGet freeCodeLen b x := by
  induction codes generalizing b with
  | nil => rfl
  | cons p codes ih =>
    obtain ⟨y, path⟩ := p
    simp only [List.map_cons, List.nodup_cons] at hn
    rw [writeLengths, ih _ hn.2]
    by_cases hx : y.toNat = x
    · have : codes.find? (fun p => decide (p.1.toNat = x)) = none := by
        rw [List.find?_eq_none]
        intro q hq
        simp only [decide_eq_true_eq]
        intro hh
        apply hn.1
        have : q.1 = y := BitVec.eq_of_toNat_eq (hh.trans hx.symm)
        exact this ▸ List.mem_map.mpr ⟨q, hq, rfl⟩
      simp [this, hx]
    · simp [hx, bufGet_bufSet_other _ _ _ (Ne.symm hx)]

theorem bufGet_writeCodes (b : Buf Bits) (codes : List (Byte × Bits))
    (hn : (codes.map Prod.fst).Nodup) (x : Nat) :
    bufGet freeCodeBits (writeCodes b codes) x =
      match codes.find? fun p => decide (p.1.toNat = x) with
      | some p => p.2
      | none => bufGet freeCodeBits b x := by
  induction codes generalizing b with
  | nil => rfl
  | cons p codes ih =>
    obtain ⟨y, path⟩ := p
    simp only [List.map_cons, List.nodup_cons] at hn
    rw [writeCodes, ih _ hn.2]
    by_cases hx : y.toNat = x
    · have : codes.find? (fun p => decide (p.1.toNat = x)) = none := by
        rw [List.find?_eq_none]
        intro q hq
        simp only [decide_eq_true_eq]
        intro hh
        apply hn.1
        have : q.1 = y := BitVec.eq_of_toNat_eq (hh.trans hx.symm)
        exact this ▸ List.mem_map.mpr ⟨q, hq, rfl⟩
      simp [this, hx]
    · simp [hx, bufGet_bufSet_other _ _ _ (Ne.symm hx)]

theorem find_toNat (codes : List (Byte × Bits)) (x : Byte) :
    (codes.find? fun p => decide (p.1.toNat = x.toNat)) = codes.find? fun p => decide (p.1 = x) := by
  congr 1
  funext p
  simp only [decide_eq_decide]
  exact ⟨BitVec.eq_of_toNat_eq, fun h => congrArg _ h⟩

theorem bufGet_noLengths (b : Buf Nat) {x : Nat} (hx : x < 256) :
    bufGet freeCodeLen (noLengths b) x = 0 := bufGet_bufFill _ _ _ hx

theorem bufGet_noCodes (b : Buf Bits) {x : Nat} (hx : x < 256) :
    bufGet freeCodeBits (noCodes b) x = [] := bufGet_bufFill _ _ _ hx

/-- The code table of a tree, as CT_DERIVE leaves it (43_code_table_deriver.md R104). -/
theorem codeTable_of_tree (bl : Buf Nat) (bc : Buf Bits) {t : SymTree} (hn : t.symbols.Nodup)
    (x : Byte) :
    bufGet freeCodeBits (writeCodes (noCodes bc) t.codes) x.toNat = t.code x ∧
      bufGet freeCodeLen (writeLengths (noLengths bl) t.codes) x.toNat = (t.code x).length := by
  have hn' : (t.codes.map Prod.fst).Nodup := by rwa [SymTree.codes_symbols]
  rw [bufGet_writeCodes _ _ hn', bufGet_writeLengths _ _ hn', find_toNat, SymTree.code]
  cases t.codes.find? fun p => decide (p.1 = x) with
  | some p => simp
  | none => simp [bufGet_noCodes bc x.isLt, bufGet_noLengths bl x.isLt]

end Sys2Proof.Machine
end

