-- ==== Sys2Proof/Laws/Build.lean ====
section
/-!
SUPPORT. The tree builder: seeding, extraction by least key, and the merge loop, which ends in one
tree over all the symbols with a count (42_tree_builder.md R97 to R101).
-/

namespace Sys2Proof.Machine

/-! ### Seeding -/

/-- The symbols with a count, in ascending order. -/
def present (freq : Nat → Nat) : List Nat := (List.range 256).filter fun x => decide (0 < freq x)

/-- Seeding numbers one Leaf per symbol with a count, in order, and touches nothing else. -/
theorem seedLeaves_spec (freq : Nat → Nat) (xs : List Nat) (n : Nat) (nodes : Buf Node) :
    (seedLeaves freq xs n nodes).1 = n + (xs.filter fun x => decide (0 < freq x)).length ∧
      (∀ k (h : k < (xs.filter fun x => decide (0 < freq x)).length),
        arenaAt (seedLeaves freq xs n nodes).2 (n + k) =
          leafNode (BitVec.ofNat 8 (xs.filter fun x => decide (0 < freq x))[k])
            (freq (xs.filter fun x => decide (0 < freq x))[k])) ∧
      ∀ i, i < n ∨ (seedLeaves freq xs n nodes).1 ≤ i →
        arenaAt (seedLeaves freq xs n nodes).2 i = arenaAt nodes i := by
  induction xs generalizing n nodes with
  | nil => exact ⟨rfl, fun k h => absurd h (by simp), fun i _ => rfl⟩
  | cons x xs ih =>
    rw [seedLeaves]
    by_cases hx : freq x > 0
    · rw [if_pos hx]
      obtain ⟨h1, h2, h3⟩ := ih (n + 1) (bufSet nodes n (leafNode (BitVec.ofNat 8 x) (freq x)))
      have hf : ((x :: xs).filter fun x => decide (0 < freq x)) =
          x :: xs.filter fun x => decide (0 < freq x) := by simp [hx]
      refine ⟨by rw [h1, hf, List.length_cons]; omega, fun k h => ?_, fun i hi => ?_⟩
      · simp only [hf, List.length_cons] at h ⊢
        match k with
        | 0 =>
          have e := h3 n (.inl (by omega))
          simp only [Nat.add_zero, e, List.getElem_cons_zero]
          simp [arenaAt]
        | k + 1 =>
          have := h2 k (by omega)
          rw [show n + (k + 1) = n + 1 + k by omega, this]
          rfl
      · rw [h3 i (by omega)]
        exact bufGet_bufSet_other _ _ _ (by omega)
    · rw [if_neg hx]
      have hf : ((x :: xs).filter fun x => decide (0 < freq x)) =
          xs.filter fun x => decide (0 < freq x) := by simp [hx]
      simp only [hf]
      exact ih n nodes

/-! ### Extraction -/

theorem leastKey_mem (nodes : Buf Node) (m : Nat) (q : List Nat) : leastKey nodes m q ∈ m :: q := by
  induction q generalizing m with
  | nil => simp [leastKey]
  | cons i q ih =>
    rw [leastKey]
    split
    · exact List.mem_cons_of_mem _ (ih i)
    · rcases List.mem_cons.mp (ih m) with h | h
      · rw [h]; exact List.mem_cons_self
      · exact List.mem_cons_of_mem _ (List.mem_cons_of_mem _ h)

theorem keyLess_iff (nodes : Buf Node) (i j : Nat) :
    keyLess nodes i j = true ↔ (arenaAt nodes i).weight < (arenaAt nodes j).weight ∨
      ((arenaAt nodes i).weight = (arenaAt nodes j).weight ∧ i < j) := by
  simp [keyLess]

/-- The extracted element has the least key (42_tree_builder.md R97). -/
theorem leastKey_least (nodes : Buf Node) (m : Nat) (q : List Nat) :
    ∀ i ∈ m :: q, keyLess nodes i (leastKey nodes m q) = false := by
  have irrefl : ∀ i, keyLess nodes i i = false := by
    intro i
    rw [Bool.eq_false_iff, Ne, keyLess_iff]
    omega
  have trans : ∀ i j k, keyLess nodes i j = true → keyLess nodes j k = true →
      keyLess nodes i k = true := by
    intro i j k
    simp only [keyLess_iff]
    omega
  have total : ∀ i j, keyLess nodes i j = false → i = j ∨ keyLess nodes j i = true := by
    intro i j h
    rw [Bool.eq_false_iff, Ne, keyLess_iff] at h
    rw [keyLess_iff]
    omega
  induction q generalizing m with
  | nil =>
    intro i hi
    simp only [List.mem_singleton] at hi
    subst hi
    exact irrefl i
  | cons j q ih =>
    intro i hi
    rw [leastKey]
    split
    · rename_i hj
      rcases List.mem_cons.mp hi with h | h
      · subst h
        rw [Bool.eq_false_iff]
        intro hc
        have h1 := ih j j List.mem_cons_self
        rw [trans _ _ _ hj hc] at h1
        exact Bool.noConfusion h1
      · exact ih j i h
    · rename_i hj
      have hj' : keyLess nodes j m = false := by simpa using hj
      rcases List.mem_cons.mp hi with h | h
      · exact ih m i (h ▸ List.mem_cons_self)
      · rcases List.mem_cons.mp h with h | h
        · subst h
          rcases total _ _ hj' with h | h
          · subst h; exact ih i i List.mem_cons_self
          · rw [Bool.eq_false_iff]
            intro hc
            have h1 := ih m m List.mem_cons_self
            rw [trans _ _ _ h hc] at h1
            exact Bool.noConfusion h1
        · exact ih m i (List.mem_cons_of_mem _ h)

theorem extractLeast_perm (nodes : Buf Node) (m : Nat) (q : List Nat) :
    (m :: q).Perm ((extractLeast nodes m q).1 :: (extractLeast nodes m q).2) :=
  List.perm_cons_erase (leastKey_mem nodes m q)

/-! ### The merge loop -/

/-- The sum of the counts of the leaves of a tree. -/
def treeCount (freq : Nat → Nat) (t : CodeTree) : Nat := (t.erase.symbols.map fun x => freq x.toNat).sum

/-- The forest of the merge loop: the trees whose roots are in the set Q, over the entries below
`next`. -/
structure Forest (freq : Nat → Nat) (nodes : Buf Node) (q : List Nat) (next : Nat)
    (ts : List CodeTree) : Prop where
  queue : q.Perm (ts.map CodeTree.index)
  arena : ∀ t ∈ ts, treeIn nodes t = true
  once : (ts.flatMap CodeTree.indices).Perm (List.range next)
  weights : ∀ t ∈ ts, (arenaAt nodes t.index).weight = treeCount freq t
  children : ∀ i < next, (arenaAt nodes i).kind = .internal →
    (arenaAt nodes i).left < i ∧ (arenaAt nodes i).right < i ∧
      (arenaAt nodes i).weight =
        (arenaAt nodes (arenaAt nodes i).left).weight +
          (arenaAt nodes (arenaAt nodes i).right).weight
  last : next - 1 ∈ q
  unused : ∀ i < next, (arenaAt nodes i).UnusedZero

/-- What one merge of the trees `ta` and `tb` gives. -/
theorem Forest.merge {freq : Nat → Nat} {nodes : Buf Node} {q : List Nat} {next : Nat}
    {ts ts2 : List CodeTree} {ta tb : CodeTree} {q2 : List Nat} (h : Forest freq nodes q next ts)
    (hts : ts.Perm (ta :: tb :: ts2)) (hq2 : q2.Perm (ts2.map CodeTree.index)) :
    Forest freq
      (bufSet nodes next
        (internalNode ((arenaAt nodes ta.index).weight + (arenaAt nodes tb.index).weight)
          ta.index tb.index))
      (q2 ++ [next]) (next + 1) (.node next ta tb :: ts2) := by
  have hmem : ∀ t ∈ ta :: tb :: ts2, t ∈ ts := fun t ht => hts.mem_iff.mpr ht
  have hbelow : ∀ t ∈ ts, ∀ i ∈ t.indices, i < next := by
    intro t ht i hi
    exact List.mem_range.mp (h.once.mem_iff.mp (List.mem_flatMap.mpr ⟨t, ht, hi⟩))
  have hfresh : ∀ t ∈ ts, next ∉ t.indices := fun t ht hi => Nat.lt_irrefl _ (hbelow t ht _ hi)
  have hold : ∀ i, i < next → ∀ n, arenaAt (bufSet nodes next n) i = arenaAt nodes i :=
    fun i hi n => bufGet_bufSet_other _ _ _ (by omega)
  have hta := hmem ta (by simp)
  have htb := hmem tb (by simp)
  have la := hbelow ta hta _ ta.index_mem
  have lb := hbelow tb htb _ tb.index_mem
  refine ⟨?_, ?_, ?_, ?_, ?_, by simp, ?_⟩
  · rw [List.map_cons, CodeTree.index_node]
    exact (List.perm_append_comm (l₁ := q2) (l₂ := [next])).trans (hq2.cons next)
  · intro t ht
    rcases List.mem_cons.mp ht with rfl | ht
    · rw [treeIn_node]
      refine ⟨by simp [arenaAt, internalNode], by simp [arenaAt, internalNode],
        by simp [arenaAt, internalNode], ?_, ?_⟩
      · rw [treeIn_bufSet (hfresh ta hta)]; exact h.arena ta hta
      · rw [treeIn_bufSet (hfresh tb htb)]; exact h.arena tb htb
    · have := hmem t (by simp [ht])
      rw [treeIn_bufSet (hfresh t this)]; exact h.arena t this
  · have h1 : (ts.flatMap CodeTree.indices).Perm ((ta :: tb :: ts2).flatMap CodeTree.indices) :=
      hts.flatMap_right _
    have h2 := h1.symm.trans h.once
    simp only [List.flatMap_cons, CodeTree.indices] at h2 ⊢
    rw [List.range_succ]
    refine List.Perm.trans ?_ (List.perm_append_comm (l₁ := [next]))
    simp only [List.cons_append, List.nil_append, List.append_assoc]
    exact List.Perm.cons next h2
  · intro t ht
    rcases List.mem_cons.mp ht with rfl | ht
    · simp only [CodeTree.index_node, arenaAt, bufGet_bufSet_same, internalNode, treeCount,
        CodeTree.erase, SymTree.symbols, List.map_append, List.sum_append]
      have e1 := h.weights ta hta
      have e2 := h.weights tb htb
      simp only [arenaAt, treeCount] at e1 e2
      rw [e1, e2]
    · have := hmem t (by simp [ht])
      rw [hold _ (hbelow t this _ t.index_mem)]
      exact h.weights t this
  · intro i hi hk
    by_cases hin : i = next
    · subst hin
      have e : arenaAt (bufSet nodes i
          (internalNode ((arenaAt nodes ta.index).weight + (arenaAt nodes tb.index).weight)
            ta.index tb.index)) i = internalNode ((arenaAt nodes ta.index).weight +
              (arenaAt nodes tb.index).weight) ta.index tb.index := by
        simp [arenaAt]
      rw [e]
      simp only [internalNode, hold _ la, hold _ lb]
      exact ⟨la, lb, trivial⟩
    · have hi' : i < next := by omega
      rw [hold i hi'] at hk ⊢
      obtain ⟨c1, c2, c3⟩ := h.children i hi' hk
      rw [hold _ (by omega), hold _ (by omega)]
      exact ⟨c1, c2, c3⟩
  · intro i hi
    by_cases hin : i = next
    · subst hin
      simp [arenaAt, internalNode, Node.UnusedZero]
    · rw [hold i (by omega)]
      exact h.unused i (by omega)

/-- One turn of the merge loop, on a set of two or more: the two trees with the least keys are
merged. -/
theorem Forest.turn {freq : Nat → Nat} {nodes : Buf Node} {m m' : Nat} {q : List Nat} {next : Nat}
    {ts : List CodeTree} (h : Forest freq nodes (m :: m' :: q) next ts) :
    ∃ (a : Nat) (m1 : Nat) (q1 : List Nat) (b : Nat) (q2 : List Nat) (ta tb : CodeTree)
      (ts2 : List CodeTree),
      extractLeast nodes m (m' :: q) = (a, m1 :: q1) ∧ extractLeast nodes m1 q1 = (b, q2) ∧
      q2.length = q.length ∧ ts.Perm (ta :: tb :: ts2) ∧ a = ta.index ∧ b = tb.index ∧
      (m :: m' :: q).Perm (a :: b :: q2) ∧
      Forest freq
        (bufSet nodes next
          (internalNode ((arenaAt nodes a).weight + (arenaAt nodes b).weight) a b))
        (q2 ++ [next]) (next + 1) (.node next ta tb :: ts2) := by
  rcases hab : extractLeast nodes m (m' :: q) with ⟨a, r⟩
  have p1 := extractLeast_perm nodes m (m' :: q)
  rw [hab] at p1
  have l1 := p1.length_eq
  simp only [List.length_cons] at l1
  match r, hab, p1, l1 with
  | [], _, _, l1 => simp at l1
  | m1 :: q1, hab, p1, l1 =>
    rcases hb : extractLeast nodes m1 q1 with ⟨b, q2⟩
    have p2 := extractLeast_perm nodes m1 q1
    rw [hb] at p2
    have l2 := p2.length_eq
    simp only [List.length_cons] at l1 l2
    have p3 : (m :: m' :: q).Perm (a :: b :: q2) := p1.trans (p2.cons a)
    have p4 := p3.symm.trans h.queue
    have ha : a ∈ ts.map CodeTree.index := p4.mem_iff.mp (by simp)
    obtain ⟨ta, hta, rfl⟩ := List.mem_map.mp ha
    obtain ⟨ts1, hts1⟩ : ∃ ts1, ts.Perm (ta :: ts1) := ⟨_, List.perm_cons_erase hta⟩
    have p5 : (b :: q2).Perm (ts1.map CodeTree.index) := by
      have := p4.trans (hts1.map CodeTree.index)
      simp only [List.map_cons] at this
      exact (List.perm_cons _).mp this
    have hbm : b ∈ ts1.map CodeTree.index := p5.mem_iff.mp (by simp)
    obtain ⟨tb, htb, rfl⟩ := List.mem_map.mp hbm
    obtain ⟨ts2, hts2⟩ : ∃ ts2, ts1.Perm (tb :: ts2) := ⟨_, List.perm_cons_erase htb⟩
    have p6 : q2.Perm (ts2.map CodeTree.index) := by
      have := p5.trans (hts2.map CodeTree.index)
      simp only [List.map_cons] at this
      exact (List.perm_cons _).mp this
    have hts : ts.Perm (ta :: tb :: ts2) := hts1.trans (hts2.cons ta)
    exact ⟨_, m1, q1, _, q2, ta, tb, ts2, rfl, hb, by omega, hts, rfl, rfl, p3, h.merge hts p6⟩

theorem Forest.symbols_perm {ts ts2 : List CodeTree} {ta tb : CodeTree} (next : Nat)
    (h : ts.Perm (ta :: tb :: ts2)) :
    ((CodeTree.node next ta tb :: ts2).flatMap fun t => t.erase.symbols).Perm
      (ts.flatMap fun t => t.erase.symbols) := by
  have := (h.flatMap_right fun t => t.erase.symbols).symm
  simpa [List.flatMap_cons, CodeTree.erase, SymTree.symbols, List.append_assoc] using this

/-- The merge loop ends with one tree over all the leaves. -/
theorem mergeLoop_spec {freq : Nat → Nat} {fuel : Nat} {nodes : Buf Node} {q : List Nat} {next : Nat}
    {ts : List CodeTree} (h : Forest freq nodes q next ts) (hq : 1 ≤ q.length)
    (hf : q.length ≤ fuel + 1) :
    ∃ nodes' t next', mergeLoop fuel nodes q next = (nodes', [t.index], next') ∧
      Forest freq nodes' [t.index] next' [t] ∧
      t.erase.symbols.Perm (ts.flatMap fun t => t.erase.symbols) ∧
      next ≤ next' ∧ nodes'.gen = nodes.gen ∧
      ∀ i, i < next ∨ next' ≤ i → arenaAt nodes' i = arenaAt nodes i := by
  have single : ∀ r, q = [r] → ∃ t, ts = [t] ∧ r = t.index := by
    intro r hr
    have hp := h.queue
    rw [hr] at hp
    have hl := hp.length_eq
    simp only [List.length_singleton, List.length_map] at hl
    match ts, hl with
    | [t], _ => exact ⟨t, rfl, by simpa using hp⟩
  induction fuel generalizing nodes q next ts with
  | zero =>
    match q, hq, hf with
    | [r], _, _ =>
      obtain ⟨t, rfl, rfl⟩ := single r rfl
      exact ⟨nodes, t, next, rfl, h, by simp, Nat.le_refl _, rfl, fun _ _ => rfl⟩
  | succ fuel ih =>
    match q, hq, hf with
    | [r], _, _ =>
      obtain ⟨t, rfl, rfl⟩ := single r rfl
      exact ⟨nodes, t, next, rfl, h, by simp, Nat.le_refl _, rfl, fun _ _ => rfl⟩
    | m :: m' :: q, _, hf =>
      obtain ⟨a, m1, q1, b, q2, ta, tb, ts2, e1, e2, hl, hts, -, -, -, h'⟩ := h.turn
      have hl' : (q2 ++ [next]).length = q.length + 1 := by simp [hl]
      simp only [List.length_cons] at hf
      have single' : ∀ r, q2 ++ [next] = [r] →
          ∃ t, (CodeTree.node next ta tb :: ts2) = [t] ∧ r = t.index := by
        intro r hr
        have hp := h'.queue
        rw [hr] at hp
        have hll := hp.length_eq
        simp only [List.length_map, List.length_cons, List.length_nil] at hll
        have : ts2 = [] := List.length_eq_zero_iff.mp (by omega)
        subst this
        exact ⟨_, rfl, by simpa using hp⟩
      obtain ⟨nodes', t, next', g1, g2, g3, g4, g5, g6⟩ :=
        ih h' (by omega) (by omega) single'
      refine ⟨nodes', t, next', ?_, g2, g3.trans (Forest.symbols_perm next hts), by omega, ?_, ?_⟩
      · rw [mergeLoop, e1]
        simp only [e2]
        exact g1
      · rw [g5]; rfl
      · intro i hi
        rw [g6 i (by omega)]
        exact bufGet_bufSet_other _ _ _ (by omega)

/-! ### The whole of TB_BUILD -/

/-- The one-leaf trees the builder starts from. -/
def seedTrees (freq : Nat → Nat) : List CodeTree :=
  (List.range (present freq).length).map fun k => .leaf k (BitVec.ofNat 8 ((present freq).getD k 0))

theorem present_lt {freq : Nat → Nat} {x : Nat} (h : x ∈ present freq) : x < 256 ∧ 0 < freq x := by
  simp only [present, List.mem_filter, List.mem_range, decide_eq_true_eq] at h
  exact h

theorem present_length_le (freq : Nat → Nat) : (present freq).length ≤ 256 := by
  have := List.length_filter_le (fun x => decide (0 < freq x)) (List.range 256)
  rwa [List.length_range] at this

theorem seedTrees_index (freq : Nat → Nat) :
    (seedTrees freq).map CodeTree.index = List.range (present freq).length := by
  simp [seedTrees, Function.comp_def]

theorem seedTrees_indices (freq : Nat → Nat) :
    (seedTrees freq).flatMap CodeTree.indices = List.range (present freq).length := by
  simp [seedTrees, List.flatMap_map, CodeTree.indices]

theorem seedTrees_symbols (freq : Nat → Nat) :
    ((seedTrees freq).flatMap fun t => t.erase.symbols) = (present freq).map (BitVec.ofNat 8) := by
  have single : ∀ (f : Nat → Byte) (xs : List Nat), (xs.flatMap fun k => [f k]) = xs.map f := by
    intro f xs
    induction xs with
    | nil => rfl
    | cons x xs ih => simp [ih]
  simp only [seedTrees, List.flatMap_map, CodeTree.erase, SymTree.symbols]
  rw [single]
  apply List.ext_getElem (by simp)
  intro k h1 h2
  simp only [List.length_map] at h2
  simp [List.getD_eq_getElem?_getD, h2]

/-- The forest the builder starts from. -/
theorem seed_forest (freq : Nat → Nat) (nodes : Buf Node) (hp : present freq ≠ []) :
    Forest freq (seedLeaves freq (List.range 256) 0 nodes).2
      (List.range (present freq).length) (present freq).length (seedTrees freq) := by
  obtain ⟨h1, h2, h3⟩ := seedLeaves_spec freq (List.range 256) 0 nodes
  have hleaf : ∀ k, (h : k < (present freq).length) →
      arenaAt (seedLeaves freq (List.range 256) 0 nodes).2 k =
        leafNode (BitVec.ofNat 8 (present freq)[k]) (freq (present freq)[k]) := by
    intro k h
    have := h2 k h
    rw [Nat.zero_add] at this
    exact this
  have hpos := List.length_pos_iff.mpr hp
  refine ⟨by rw [seedTrees_index], ?_, by rw [seedTrees_indices], ?_, ?_, ?_, ?_⟩
  · intro t ht
    obtain ⟨k, hk, rfl⟩ := List.mem_map.mp ht
    have hk := List.mem_range.mp hk
    rw [treeIn_leaf, hleaf k hk]
    simp [leafNode, List.getD_eq_getElem?_getD, hk]
  · intro t ht
    obtain ⟨k, hk, rfl⟩ := List.mem_map.mp ht
    have hk := List.mem_range.mp hk
    have hx := present_lt (List.getElem_mem hk)
    have hm : (present freq)[k] % 256 = (present freq)[k] := Nat.mod_eq_of_lt hx.1
    simp only [CodeTree.index_leaf, hleaf k hk, leafNode, treeCount, CodeTree.erase, SymTree.symbols]
    simp [List.getD_eq_getElem?_getD, hk, hm]
  · intro i hi hk
    rw [hleaf i hi] at hk
    simp [leafNode] at hk
  · exact List.mem_range.mpr (by omega)
  · intro i hi
    rw [hleaf i hi]
    simp [leafNode, Node.UnusedZero]

theorem sum_present (freq : Nat → Nat) :
    ((present freq).map freq).sum = ((List.range 256).map freq).sum := by
  unfold present
  induction List.range 256 with
  | nil => rfl
  | cons x xs ih =>
    by_cases hx : 0 < freq x
    · simp [hx, ih]
    · have : freq x = 0 := by omega
      simp [this, ih]

theorem present_symbols_nodup (freq : Nat → Nat) : ((present freq).map (BitVec.ofNat 8)).Nodup := by
  apply List.Nodup.map_on
  · intro x hx y hy h
    have h1 := (present_lt hx).1
    have h2 := (present_lt hy).1
    have := congrArg BitVec.toNat h
    simp only [BitVec.toNat_ofNat] at this
    omega
  · exact List.nodup_range.filter _

theorem mem_present_symbols (freq : Nat → Nat) (x : Byte) :
    x ∈ (present freq).map (BitVec.ofNat 8) ↔ 0 < freq x.toNat := by
  constructor
  · intro h
    obtain ⟨y, hy, rfl⟩ := List.mem_map.mp h
    have := present_lt hy
    rw [BitVec.toNat_ofNat, Nat.mod_eq_of_lt this.1]
    exact this.2
  · intro h
    refine List.mem_map.mpr ⟨x.toNat, ?_, by simp⟩
    simp only [present, List.mem_filter, List.mem_range, decide_eq_true_eq]
    exact ⟨x.isLt, h⟩

theorem present_count_sum (freq : Nat → Nat) :
    (((present freq).map (BitVec.ofNat 8)).map fun x : Byte => freq x.toNat).sum =
      ((List.range 256).map freq).sum := by
  rw [← sum_present, List.map_map]
  congr 1
  apply List.map_congr_left
  intro x hx
  have := (present_lt hx).1
  simp only [Function.comp, BitVec.toNat_ofNat]
  rw [Nat.mod_eq_of_lt this]

theorem Forest.total {freq : Nat → Nat} {nodes : Buf Node} {q : List Nat} {next : Nat} {t : CodeTree}
    (h : Forest freq nodes q next [t]) : next + 1 = 2 * t.erase.symbols.length := by
  have := h.once.length_eq
  simp only [List.flatMap_cons, List.flatMap_nil, List.append_nil, List.length_range] at this
  rw [← CodeTree.indices_length, this]

/-- What the builder leaves: the tree `t` over the symbols with a count, in the arena `nodes`
(42_tree_builder.md R99, R101). -/
structure Built (s : State) (nodes : Buf Node) (t : CodeTree) : Prop where
  forest : Forest (freqAt s) nodes [t.index] (2 * (present (freqAt s)).length - 1) [t]
  symbols : t.erase.symbols.Perm ((present (freqAt s)).map (BitVec.ofNat 8))
  root : t.index = 2 * (present (freqAt s)).length - 2
  leaves : ∀ k (h : k < (present (freqAt s)).length), arenaAt nodes k =
    leafNode (BitVec.ofNat 8 (present (freqAt s))[k]) (freqAt s (present (freqAt s))[k])
  rest : ∀ i, 2 * (present (freqAt s)).length - 1 ≤ i → arenaAt nodes i = nodeAt s i
  gen : nodes.gen = s.node.gen

/-- Everything the body of TB_BUILD does when some symbol has a count. -/
theorem buildTree_spec {s : State} (hp : present (freqAt s) ≠ []) :
    ∃ nodes t, buildTree s = .ok { s with
        node := nodes, root := t.index, nnodes := 2 * (present (freqAt s)).length - 1
        treeValid := true, ctValid := false, ftLock := true, decCur := t.index } ∧
      Built s nodes t := by
  have hpos := List.length_pos_iff.mpr hp
  have hf := seed_forest (freqAt s) s.node hp
  obtain ⟨h1, h2, h3⟩ := seedLeaves_spec (freqAt s) (List.range 256) 0 s.node
  have hg : ∀ xs n nodes, (seedLeaves (freqAt s) xs n nodes).2.gen = nodes.gen := by
    intro xs
    induction xs with
    | nil => intro n nodes; rfl
    | cons x xs ih =>
      intro n nodes
      rw [seedLeaves]
      split
      · rw [ih]; rfl
      · exact ih n nodes
  obtain ⟨nodes', t, next', g1, g2, g3, g4, g5, g6⟩ :=
    mergeLoop_spec (fuel := (present (freqAt s)).length) hf (by rw [List.length_range]; exact hpos) (by simp)
  rw [seedTrees_symbols] at g3
  have hn : next' = 2 * (present (freqAt s)).length - 1 := by
    have := g2.total
    rw [g3.length_eq, List.length_map] at this
    omega
  have hn1 : (seedLeaves (freqAt s) (List.range 256) 0 s.node).1 = (present (freqAt s)).length := by
    rw [h1, Nat.zero_add]; rfl
  refine ⟨nodes', t, ?_, ?_, g3, ?_, ?_, ?_, ?_⟩
  · rw [buildTree]
    rcases hse : seedLeaves (freqAt s) (List.range 256) 0 s.node with ⟨n, leaves⟩
    rw [hse] at hn1 g1
    simp only at hn1 g1
    subst hn1
    simp only [g1]
    rw [← hn]
  · rw [← hn]; exact g2
  · have := g2.last
    simp only [List.mem_singleton] at this
    omega
  · intro k hk
    rw [g6 k (.inl hk)]
    have := h2 k hk
    rw [Nat.zero_add] at this
    exact this
  · intro i hi
    rw [g6 i (.inr (by omega))]
    exact h3 i (.inr (by omega))
  · rw [g5, hg]

/-- The built tree is one the invariants of R46 speak of. -/
theorem Built.holdsTree {s s' : State} {nodes : Buf Node} {t : CodeTree} (h : Built s nodes t)
    (hp : present (freqAt s) ≠ []) (hnode : s'.node = nodes) (hroot : s'.root = t.index)
    (hnn : s'.nnodes = 2 * (present (freqAt s)).length - 1) : HoldsTree s' t where
  root := hroot.symm
  arena := by rw [hnode]; exact h.forest.arena t (by simp)
  once := by
    have := h.forest.once
    simp only [List.flatMap_cons, List.flatMap_nil, List.append_nil] at this
    rw [hnn]; exact this
  distinct := h.symbols.nodup_iff.mpr (present_symbols_nodup _)
  count := by rw [hnn, h.symbols.length_eq, List.length_map]
  leaves := by
    rw [h.symbols.length_eq, List.length_map]
    exact ⟨List.length_pos_iff.mpr hp, present_length_le _⟩

theorem Built.mem_symbols {s : State} {nodes : Buf Node} {t : CodeTree} (h : Built s nodes t) (x : Byte) :
    x ∈ t.erase.symbols ↔ 0 < freqAt s x.toNat := by
  rw [h.symbols.mem_iff, mem_present_symbols]

/-- The root's weight is TOTAL (42_tree_builder.md R101). -/
theorem Built.root_weight {s : State} {nodes : Buf Node} {t : CodeTree} (h : Built s nodes t) :
    (arenaAt nodes t.index).weight = ((List.range 256).map (freqAt s)).sum := by
  rw [h.forest.weights t (by simp), treeCount, ← present_count_sum]
  exact (h.symbols.map _).sum_eq

theorem present_ne_nil {s : State} (hs : CountsExact s) (ht : 0 < s.total) :
    present (freqAt s) ≠ [] := by
  intro h
  have := sum_present (freqAt s)
  rw [h] at this
  have h1 := hs.1
  simp at this
  omega

theorem present_length {s : State} (hs : CountsExact s) : (present (freqAt s)).length = s.nsym :=
  hs.2.1.symm

end Sys2Proof.Machine
end

