-- ==== Sys2Proof/Laws/Bus.lean ====
section
/-!
SUPPORT. What a host access can do: the region of each offset, the accesses admitted, the words of the
windows bit by bit, the frame of a read, the cases of a write.
-/

namespace Sys2Proof.Machine

/-! ### The address map -/

/-- The first row that holds the offset decides. -/
theorem regionOf_row {off : Nat} {before after : List Region} {r : Region}
    (hm : addressMap = before ++ r :: after) (hb : ∀ q ∈ before, ¬ (q.base ≤ off ∧ off ≤ q.last))
    (hr : r.base ≤ off ∧ off ≤ r.last) : regionOf off = r.kind := by
  have : (addressMap.find? fun r => decide (r.base ≤ off ∧ off ≤ r.last)) = some r := by
    rw [hm, List.find?_append, List.find?_eq_none.mpr (fun q hq => by simpa using hb q hq),
      Option.none_or, List.find?_cons_of_pos (by simpa using hr)]
  rw [regionOf, this]

theorem regionOf_regs {off : Nat} (h : off ≤ 0xFFF) :
    regionOf off = .regs :=
  regionOf_row (before := addressMap.take 0) (after := addressMap.drop 1)
    (r := ⟨0x0, 0xFFF, .regs⟩) rfl
    (fun _ h => absurd h List.not_mem_nil) ⟨Nat.zero_le _, h⟩

theorem regionOf_freq {off : Nat} (h : 0x1000 ≤ off) (h' : off ≤ 0x13FF) :
    regionOf off = .freq :=
  regionOf_row (before := addressMap.take 1) (after := addressMap.drop 2)
    (r := ⟨0x1000, 0x13FF, .freq⟩) rfl
    (by
      simp only [addressMap, List.take, List.forall_mem_cons, List.not_mem_nil, IsEmpty.forall_iff,
        implies_true, and_true]
      omega) ⟨h, h'⟩

theorem regionOf_node {off : Nat} (h : 0x2000 ≤ off) (h' : off ≤ 0x2FFF) :
    regionOf off = .node :=
  regionOf_row (before := addressMap.take 2) (after := addressMap.drop 3)
    (r := ⟨0x2000, 0x2FFF, .node⟩) rfl
    (by
      simp only [addressMap, List.take, List.forall_mem_cons, List.not_mem_nil, IsEmpty.forall_iff,
        implies_true, and_true]
      omega) ⟨h, h'⟩

theorem regionOf_codeLen {off : Nat} (h : 0x3000 ≤ off) (h' : off ≤ 0x33FF) :
    regionOf off = .codeLen :=
  regionOf_row (before := addressMap.take 3) (after := addressMap.drop 4)
    (r := ⟨0x3000, 0x33FF, .codeLen⟩) rfl
    (by
      simp only [addressMap, List.take, List.forall_mem_cons, List.not_mem_nil, IsEmpty.forall_iff,
        implies_true, and_true]
      omega) ⟨h, h'⟩

theorem regionOf_codeBits {off : Nat} (h : 0x4000 ≤ off) (h' : off ≤ 0x5FFF) :
    regionOf off = .codeBits :=
  regionOf_row (before := addressMap.take 4) (after := addressMap.drop 5)
    (r := ⟨0x4000, 0x5FFF, .codeBits⟩) rfl
    (by
      simp only [addressMap, List.take, List.forall_mem_cons, List.not_mem_nil, IsEmpty.forall_iff,
        implies_true, and_true]
      omega) ⟨h, h'⟩

theorem regionOf_hdr {off : Nat} (h : 0x6000 ≤ off) (h' : off ≤ 0x613F) :
    regionOf off = .hdr :=
  regionOf_row (before := addressMap.take 5) (after := addressMap.drop 6)
    (r := ⟨0x6000, 0x613F, .hdr⟩) rfl
    (by
      simp only [addressMap, List.take, List.forall_mem_cons, List.not_mem_nil, IsEmpty.forall_iff,
        implies_true, and_true]
      omega) ⟨h, h'⟩

theorem regionOf_ibuf {off : Nat} (h : 0x1000000 ≤ off) (h' : off ≤ 0x1FFFFFF) :
    regionOf off = .ibuf :=
  regionOf_row (before := addressMap.take 6) (after := addressMap.drop 7)
    (r := ⟨0x1000000, 0x1FFFFFF, .ibuf⟩) rfl
    (by
      simp only [addressMap, List.take, List.forall_mem_cons, List.not_mem_nil, IsEmpty.forall_iff,
        implies_true, and_true]
      omega) ⟨h, h'⟩

theorem regionOf_obuf {off : Nat} (h : 0x2000000 ≤ off) (h' : off ≤ 0x2FFFFFF) :
    regionOf off = .obuf :=
  regionOf_row (before := addressMap.take 7) (after := addressMap.drop 8)
    (r := ⟨0x2000000, 0x2FFFFFF, .obuf⟩) rfl
    (by
      simp only [addressMap, List.take, List.forall_mem_cons, List.not_mem_nil, IsEmpty.forall_iff,
        implies_true, and_true]
      omega) ⟨h, h'⟩

theorem regionOf_cbuf {off : Nat} (h : 0x3000000 ≤ off) (h' : off ≤ 0x3FFFFFF) :
    regionOf off = .cbuf :=
  regionOf_row (before := addressMap.take 8) (after := addressMap.drop 9)
    (r := ⟨0x3000000, 0x3FFFFFF, .cbuf⟩) rfl
    (by
      simp only [addressMap, List.take, List.forall_mem_cons, List.not_mem_nil, IsEmpty.forall_iff,
        implies_true, and_true]
      omega) ⟨h, h'⟩

/-- Every offset lies in one of the nine regions or is unmapped. -/
theorem regionOf_cases (off : Nat) :
    (regionOf off = .regs ∧ 0x0 ≤ off ∧ off ≤ 0xFFF) ∨
    (regionOf off = .freq ∧ 0x1000 ≤ off ∧ off ≤ 0x13FF) ∨
    (regionOf off = .node ∧ 0x2000 ≤ off ∧ off ≤ 0x2FFF) ∨
    (regionOf off = .codeLen ∧ 0x3000 ≤ off ∧ off ≤ 0x33FF) ∨
    (regionOf off = .codeBits ∧ 0x4000 ≤ off ∧ off ≤ 0x5FFF) ∨
    (regionOf off = .hdr ∧ 0x6000 ≤ off ∧ off ≤ 0x613F) ∨
    (regionOf off = .ibuf ∧ 0x1000000 ≤ off ∧ off ≤ 0x1FFFFFF) ∨
    (regionOf off = .obuf ∧ 0x2000000 ≤ off ∧ off ≤ 0x2FFFFFF) ∨
    (regionOf off = .cbuf ∧ 0x3000000 ≤ off ∧ off ≤ 0x3FFFFFF) ∨
    (regionOf off = .unmapped ∧ ∀ r ∈ addressMap, ¬ (r.base ≤ off ∧ off ≤ r.last)) := by
  by_cases h0 : 0x0 ≤ off ∧ off ≤ 0xFFF
  · exact .inl ⟨regionOf_regs h0.2, h0⟩
  by_cases h1 : 0x1000 ≤ off ∧ off ≤ 0x13FF
  · exact .inr (.inl ⟨regionOf_freq h1.1 h1.2, h1⟩)
  by_cases h2 : 0x2000 ≤ off ∧ off ≤ 0x2FFF
  · exact .inr (.inr (.inl ⟨regionOf_node h2.1 h2.2, h2⟩))
  by_cases h3 : 0x3000 ≤ off ∧ off ≤ 0x33FF
  · exact .inr (.inr (.inr (.inl ⟨regionOf_codeLen h3.1 h3.2, h3⟩)))
  by_cases h4 : 0x4000 ≤ off ∧ off ≤ 0x5FFF
  · exact .inr (.inr (.inr (.inr (.inl ⟨regionOf_codeBits h4.1 h4.2, h4⟩))))
  by_cases h5 : 0x6000 ≤ off ∧ off ≤ 0x613F
  · exact .inr (.inr (.inr (.inr (.inr (.inl ⟨regionOf_hdr h5.1 h5.2, h5⟩)))))
  by_cases h6 : 0x1000000 ≤ off ∧ off ≤ 0x1FFFFFF
  · exact .inr (.inr (.inr (.inr (.inr (.inr (.inl ⟨regionOf_ibuf h6.1 h6.2, h6⟩))))))
  by_cases h7 : 0x2000000 ≤ off ∧ off ≤ 0x2FFFFFF
  · exact .inr (.inr (.inr (.inr (.inr (.inr (.inr (.inl ⟨regionOf_obuf h7.1 h7.2, h7⟩)))))))
  by_cases h8 : 0x3000000 ≤ off ∧ off ≤ 0x3FFFFFF
  · exact .inr (.inr (.inr (.inr (.inr (.inr (.inr (.inr (.inl ⟨regionOf_cbuf h8.1 h8.2, h8⟩))))))))
  · have h : ∀ r ∈ addressMap, ¬ (r.base ≤ off ∧ off ≤ r.last) := by
      simp only [addressMap, List.forall_mem_cons, List.not_mem_nil, IsEmpty.forall_iff,
        implies_true, and_true]
      exact ⟨h0, h1, h2, h3, h4, h5, h6, h7, h8⟩
    have hf : (addressMap.find? fun r => decide (r.base ≤ off ∧ off ≤ r.last)) = none :=
      List.find?_eq_none.mpr fun q hq => by simpa using h q hq
    exact .inr (.inr (.inr (.inr (.inr (.inr (.inr (.inr (.inr ⟨by rw [regionOf, hf], h⟩))))))))

/-- Offsets from 0x044 on hold no register. -/
theorem regAt_reserved {off : Nat} (h : 0x044 ≤ off) : regAt off = none := by
  simp only [regAt, List.find?_eq_none, decide_eq_true_eq]
  intro r _ hr
  cases r <;> simp only [regOffset] at hr <;> omega

/-- The register at its own offset. -/
theorem regAt_regOffset (r : Reg) : regAt (regOffset r) = some r := by cases r <;> rfl

/-- The block admits an access exactly when it is not one of the refused ones (20_memory.md R62). -/
theorem admitted_iff (off n : Nat) : admitted off n = true ↔ ¬ inadmissible off n := by
  unfold admitted inadmissible wordRegion byteRegion
  rcases regionOf_cases off with h | h | h | h | h | h | h | h | h | h
  all_goals (obtain ⟨h, h'⟩ := h; rw [h])
  case inr.inr.inr.inr.inr.inr.inr.inr.inr =>
    simp only [addressMap, List.forall_mem_cons, List.not_mem_nil, IsEmpty.forall_iff, implies_true,
      and_true] at h'
    simp only [Bool.and_eq_true, Bool.or_eq_true, decide_eq_true_eq]
    omega
  all_goals
    simp only [Bool.and_eq_true, decide_eq_true_eq]
    omega

/-! ### Words by their bits -/

theorem natOfBits_foldl (s : Bits) (a : Nat) :
    s.foldl (fun acc b => 2 * acc + b.toNat) a = a * 2 ^ s.length + natOfBits s := by
  induction s generalizing a with
  | nil => simp [natOfBits]
  | cons b s ih =>
    simp only [natOfBits, List.foldl_cons, List.length_cons] at ih ⊢
    rw [ih, ih (2 * 0 + b.toNat), pow_succ]
    ring

theorem natOfBits_cons (b : Bool) (s : Bits) :
    natOfBits (b :: s) = b.toNat * 2 ^ s.length + natOfBits s := by
  rw [natOfBits, List.foldl_cons, natOfBits_foldl]
  simp

theorem natOfBits_lt (s : Bits) : natOfBits s < 2 ^ s.length := by
  induction s with
  | nil => simp [natOfBits]
  | cons b s ih =>
    rw [natOfBits_cons, List.length_cons, pow_succ]
    cases b <;> simp <;> omega

/-- Digit `i` from the left is bit `length - 1 - i`. -/
theorem testBit_natOfBits (s : Bits) {i : Nat} (h : i < s.length) :
    (natOfBits s).testBit (s.length - 1 - i) = s[i] := by
  induction s generalizing i with
  | nil => simp at h
  | cons b s ih =>
    rw [natOfBits_cons]
    cases i with
    | zero =>
      simp only [List.length_cons, Nat.add_sub_cancel, Nat.sub_zero, List.getElem_cons_zero]
      rw [Nat.mul_comm, Nat.testBit_two_pow_mul_add _ (natOfBits_lt s)]
      cases b <;> simp
    | succ i =>
      simp only [List.length_cons, List.getElem_cons_succ] at h ⊢
      rw [Nat.mul_comm, Nat.testBit_two_pow_mul_add _ (natOfBits_lt s),
        if_pos (by omega), ← ih (by omega)]
      congr 1
      omega

/-- Stream bit `i` of a window word is word bit `31 - i` (20_memory.md R54 to R56). -/
theorem windowWord_bit (f : Nat → Bool) {i : Nat} (h : i < 32) :
    (windowWord f).getLsbD (31 - i) = f i := by
  have := testBit_natOfBits ((List.range 32).map f) (i := i) (by simpa using h)
  simp only [List.length_map, List.length_range, List.getElem_map, List.getElem_range] at this
  rw [windowWord, BitVec.getLsbD_ofNat, show (32 - 1 - i) = 31 - i by omega] at *
  rw [this]
  simp
  omega

/-- A number whose binary digits are listed least significant first. -/
theorem testBit_natOfBits_reverse (l : Bits) (k : Nat) :
    (natOfBits l.reverse).testBit k = l.getD k false := by
  by_cases hk : k < l.length
  · have h := testBit_natOfBits l.reverse (i := l.length - 1 - k) (by simp; omega)
    simp only [List.length_reverse, List.getElem_reverse] at h
    have hk' : l.length - 1 - (l.length - 1 - k) = k := by omega
    simp only [hk'] at h
    rw [h, List.getD_eq_getElem _ _ hk]
  · rw [List.getD_eq_default _ _ (by omega), Nat.testBit_lt_two_pow]
    calc natOfBits l.reverse < 2 ^ l.reverse.length := natOfBits_lt _
      _ ≤ 2 ^ k := Nat.pow_le_pow_right (by decide) (by simp; omega)

/-- Bit `k` of STATUS is element `k` of its list of bits. -/
theorem statusWord_bit (s : State) (k : Nat) :
    (statusWord s).getLsbD k = (statusBits s).getD k false := by
  rw [statusWord, BitVec.getLsbD_ofNat, testBit_natOfBits_reverse]
  by_cases hk : k < 32
  · simp [hk]
  · rw [List.getD_eq_default _ _ (by simp [statusBits]; omega), Bool.and_false]

/-! ### Reads and writes -/

/-- A read whose value the spec fixes. -/
theorem busRead_some {off n : Nat} {s : State} {w : Word} (h : readValue s off = some w) :
    busRead off n s = { s with reads := w :: s.reads } := by simp [busRead, h]

/-- A read of `any`. -/
theorem busRead_none {off n : Nat} {s : State} (h : readValue s off = none) :
    busRead off n s = { s with
      reads := freeRead n s.freeCtr :: s.reads, freeCtr := s.freeCtr + 1 } := by simp [busRead, h]

/-- An admitted read answers. -/
theorem hostRead_next {off n : Nat} (s : State) (h : ¬ inadmissible off n) :
    hostRead off n s = .next (busRead off n s) := by
  rw [hostRead, if_pos ((admitted_iff off n).mpr h)]

/-- An admitted write answers. -/
theorem hostWrite_next {off n : Nat} (v : Word) (s : State) (h : ¬ inadmissible off n) :
    hostWrite off n v s = .next (busWrite off v s) := by
  rw [hostWrite, if_pos ((admitted_iff off n).mpr h)]

/-- A read of a register while BUSY = 0. -/
theorem readValue_idle_reg {s : State} (h : s.busy = false) (r : Reg) :
    readValue s (regOffset r) = some (regRead r s) := by
  have hr : regionOf (regOffset r) = .regs := regionOf_regs (by cases r <;> decide)
  simp [readValue, h, idleRead, hr, regAt_regOffset]

/-- A read of a register while BUSY = 1 (20_memory.md R59). -/
theorem readValue_busy_reg {s : State} (h : s.busy = true) (r : Reg) :
    readValue s (regOffset r) = if exactWhileBusy r then some (regRead r s) else none := by
  have hr : regionOf (regOffset r) = .regs := regionOf_regs (by cases r <;> decide)
  simp [readValue, h, busyRead, hr, regAt_regOffset]

/-- A write to a register. -/
theorem busWrite_reg (r : Reg) (v : Word) (s : State) :
    busWrite (regOffset r) v s = regWrite r v s := by
  have hr : regionOf (regOffset r) = .regs := regionOf_regs (by cases r <;> decide)
  simp [busWrite, hr, regAt_regOffset]

/-- The frame of a read: the block is as it was (20_memory.md R63). -/
theorem busRead_frame (off n : Nat) (s : State) :
    busRead off n s = { s with
      reads := (busRead off n s).reads, freeCtr := (busRead off n s).freeCtr } := by
  unfold busRead
  cases readValue s off <;> rfl

/-- Everything a write can do. -/
theorem busWrite_cases (off : Nat) (v : Word) (s : State) :
    busWrite off v s = s ∨ busWrite off v s = { s with ovr := true } ∨
      busWrite off v s = { s with done := false } ∨
      busWrite off v s = { s with doneIe := v.getLsbD 0, errIe := v.getLsbD 1 } ∨
      (s.busy = false ∧ busWrite off v s = { s with inLen := min v.toNat s.ibufBytes }) ∨
      (s.busy = false ∧ (s.errCode = 0#8 ∨ v = 0x00000001#32 ∨ v = 0x00000002#32) ∧
        busWrite off v s = { s with pend := v, busy := true, done := false }) ∨
      ∃ a, a < s.ibufBytes ∧ s.busy = false ∧
        busWrite off v s = { s with ibuf := bufSet s.ibuf a (v.setWidth 8) } := by
  unfold busWrite
  cases regionOf off with
  | regs =>
    simp only
    cases regAt off with
    | none => exact .inl rfl
    | some r =>
      cases r <;> simp only [regWrite]
      case cmd =>
        unfold offerCommand
        split
        · exact .inr (.inl rfl)
        · split
          · exact .inl rfl
          · rename_i h1 h2
            refine .inr (.inr (.inr (.inr (.inr (.inl ⟨by simpa using h1, ?_, rfl⟩)))))
            tauto
      case status =>
        split
        · exact .inr (.inr (.inl rfl))
        · exact .inl rfl
      case irqEn => exact .inr (.inr (.inr (.inl trivial)))
      case inLen =>
        split
        · exact .inr (.inl rfl)
        · rename_i h
          exact .inr (.inr (.inr (.inr (.inl ⟨by simpa using h, rfl⟩))))
      all_goals exact .inl trivial
  | ibuf =>
    simp only [ibufWrite]
    split
    · rename_i ha
      split
      · exact .inr (.inl rfl)
      · rename_i h
        exact .inr (.inr (.inr (.inr (.inr (.inr ⟨_, ha, by simpa using h, rfl⟩)))))
    · exact .inl rfl
  | _ => exact .inl rfl

end Sys2Proof.Machine
end

