-- ==== Sys2Proof/Laws/Decoder.lean ====
section
/-!
SUPPORT. What decoding does: `emit`, `decStep` and `decAll` (45_bitstream_decoder.md R115, R116).
-/

namespace Sys2Proof.Machine

@[simp] theorem outputBytes_length (s : State) : (outputBytes s).length = s.outLen := by
  simp [outputBytes]

/-- Everything `emit` can do. -/
theorem emit_ok_iff {x : Byte} {s t : State} :
    emit x s = .ok t ↔ s.outLen ≠ s.obufBytes ∧
      t = { s with obuf := bufSet s.obuf s.outLen x, outLen := s.outLen + 1 } := by
  unfold emit
  split <;> simp_all [eq_comm]

theorem emit_error {x : Byte} {s : State} {e : Stop} (h : emit x s = .error e) :
    e = .raise .limit ∧ s.outLen = s.obufBytes := by
  unfold emit at h
  split at h <;> simp_all

theorem outputBytes_emit (s : State) (x : Byte) :
    outputBytes { s with obuf := bufSet s.obuf s.outLen x, outLen := s.outLen + 1 } =
      outputBytes s ++ [x] := bufSlice_append Config.freeByte s.obuf s.outLen [x]

/-- Everything `decStep` can do when it ends: it emits a symbol or it moves the cursor. -/
theorem decStep_cases {b : Bool} {s t : State} (h : decStep b s = .ok t) :
    (∃ x c, s.outLen ≠ s.obufBytes ∧
      t = { s with obuf := bufSet s.obuf s.outLen x, outLen := s.outLen + 1, decCur := c } ∧
      (((nodeAt s s.root).kind = .leaf ∧ c = s.decCur ∧ x = (nodeAt s s.root).sym) ∨
        ((nodeAt s s.root).kind ≠ .leaf ∧ c = s.root ∧
          (nodeAt s (childOf (nodeAt s s.decCur) b)).kind = .leaf ∧
          x = (nodeAt s (childOf (nodeAt s s.decCur) b)).sym))) ∨
    ((nodeAt s s.root).kind ≠ .leaf ∧ (nodeAt s (childOf (nodeAt s s.decCur) b)).kind ≠ .leaf ∧
      t = { s with decCur := childOf (nodeAt s s.decCur) b }) := by
  unfold decStep at h
  split at h
  · rename_i h1
    obtain ⟨h2, rfl⟩ := emit_ok_iff.mp h
    exact .inl ⟨_, s.decCur, h2, rfl, .inl ⟨h1, rfl, rfl⟩⟩
  · rename_i h1
    split at h
    · rename_i h2
      obtain ⟨s1, h3, h4⟩ := thenBody_eq_ok.mp h
      obtain ⟨h5, rfl⟩ := emit_ok_iff.mp h3
      simp only [Except.ok.injEq] at h4
      subst h4
      exact .inl ⟨_, s.root, h5, rfl, .inr ⟨h1, rfl, h2, rfl⟩⟩
    · rename_i h2
      simp only [Except.ok.injEq] at h
      exact .inr ⟨h1, h2, h.symm⟩

theorem decStep_error {b : Bool} {s : State} {e : Stop} (h : decStep b s = .error e) :
    e = .raise .limit ∧ s.outLen = s.obufBytes := by
  unfold decStep at h
  split at h
  · exact emit_error h
  · split at h
    · rcases thenBody_eq_error.mp h with h | ⟨s1, -, h⟩
      · exact emit_error h
      · simp at h
    · simp at h

theorem decAll_error {bs : Bits} {s : State} {e : Stop} (h : decAll bs s = .error e) :
    e = .raise .limit := by
  induction bs generalizing s with
  | nil => simp [decAll] at h
  | cons b bs ih =>
    rcases thenBody_eq_error.mp h with h | ⟨s1, -, h⟩
    · exact (decStep_error h).1
    · exact ih h

theorem decStep_frame {b : Bool} {s t : State} (h : decStep b s = .ok t) :
    t = { s with obuf := t.obuf, outLen := t.outLen, decCur := t.decCur } := by
  rcases decStep_cases h with ⟨x, c, -, rfl, -⟩ | ⟨-, -, rfl⟩ <;> rfl

/-- Decoding changes OBUF, OUT_LEN and DEC_CUR only. -/
theorem decAll_frame {bs : Bits} {s t : State} (h : decAll bs s = .ok t) :
    t = { s with obuf := t.obuf, outLen := t.outLen, decCur := t.decCur } := by
  induction bs generalizing s with
  | nil => simp only [decAll, Except.ok.injEq] at h; subst h; rfl
  | cons b bs ih =>
    obtain ⟨s1, h1, h2⟩ := thenBody_eq_ok.mp h
    have := ih h2
    rw [decStep_frame h1] at this
    exact this

theorem decAll_append (bs cs : Bits) (s : State) :
    decAll (bs ++ cs) s = thenBody (decAll bs s) (decAll cs) := by
  induction bs generalizing s with
  | nil => rfl
  | cons b bs ih =>
    simp only [List.cons_append, decAll]
    cases decStep b s with
    | error e => rfl
    | ok s1 => exact ih s1

/-- One step keeps the output within OBUF, appends to it, and keeps OBUF's canonical form. -/
theorem decStep_obuf {b : Bool} {s t : State} (h : decStep b s = .ok t) (hl : s.outLen ≤ s.obufBytes)
    (ho : bufOk s.obufBytes s.obuf = true) :
    s.outLen ≤ t.outLen ∧ t.outLen ≤ s.obufBytes ∧ bufOk s.obufBytes t.obuf = true ∧
      ∀ a, a < s.outLen ∨ t.outLen ≤ a → obufAt t a = obufAt s a := by
  rcases decStep_cases h with ⟨x, c, hne, rfl, -⟩ | ⟨-, -, rfl⟩
  · refine ⟨by simp, by simp only; omega, bufOk_bufSet x ho (by omega), fun a ha => ?_⟩
    exact bufGet_bufSet_other _ _ _ (by simp only at ha; omega)
  · simp [hl, ho, obufAt]

/-- Decoding keeps the output within OBUF, appends to it, and keeps OBUF's canonical form. -/
theorem decAll_obuf {bs : Bits} {s t : State} (h : decAll bs s = .ok t) (hl : s.outLen ≤ s.obufBytes)
    (ho : bufOk s.obufBytes s.obuf = true) :
    s.outLen ≤ t.outLen ∧ t.outLen ≤ s.obufBytes ∧ bufOk s.obufBytes t.obuf = true ∧
      ∀ a, a < s.outLen ∨ t.outLen ≤ a → obufAt t a = obufAt s a := by
  induction bs generalizing s with
  | nil => simp only [decAll, Except.ok.injEq] at h; subst h; simp [hl, ho]
  | cons b bs ih =>
    obtain ⟨s1, h1, h2⟩ := thenBody_eq_ok.mp h
    obtain ⟨h3, h4, h5, h6⟩ := decStep_obuf h1 hl ho
    have hb : s1.obufBytes = s.obufBytes := by rw [decStep_frame h1]
    obtain ⟨g3, g4, g5, g6⟩ := ih h2 (by omega) (by rw [hb]; exact h5)
    rw [hb] at g4 g5
    refine ⟨by omega, g4, g5, fun a ha => ?_⟩
    rw [g6 a (by omega), h6 a (by omega)]

/-- Decoding writes to no byte of OBUF but those between OUT_LEN before and OUT_LEN after. -/
theorem decAll_writes {bs : Bits} {s t : State} (h : decAll bs s = .ok t) :
    s.outLen ≤ t.outLen ∧ t.outLen ≤ s.outLen + bs.length ∧
      ∀ a, a < s.outLen ∨ t.outLen ≤ a → obufAt t a = obufAt s a := by
  induction bs generalizing s with
  | nil => cases h; exact ⟨Nat.le_refl _, Nat.le_refl _, fun _ _ => rfl⟩
  | cons b bs ih =>
    obtain ⟨s1, h1, h2⟩ := thenBody_eq_ok.mp h
    obtain ⟨i1, i2, i3⟩ := ih h2
    have k : s.outLen ≤ s1.outLen ∧ s1.outLen ≤ s.outLen + 1 ∧
        ∀ a, a < s.outLen ∨ s1.outLen ≤ a → obufAt s1 a = obufAt s a := by
      rcases decStep_cases h1 with ⟨x, c, -, rfl, -⟩ | ⟨-, -, rfl⟩
      · refine ⟨Nat.le_succ _, Nat.le_refl _, fun a ha => bufGet_bufSet_other _ _ _ ?_⟩
        have ha : a < s.outLen ∨ s.outLen + 1 ≤ a := ha
        omega
      · exact ⟨Nat.le_refl _, Nat.le_succ _, fun _ _ => rfl⟩
    refine ⟨by omega, by simp only [List.length_cons]; omega, fun a ha => ?_⟩
    rw [i3 a (by omega), k.2.2 a (by omega)]

end Sys2Proof.Machine
end

