-- ==== Sys2Proof/Laws/Decode.lean ====
section
/-!
SUPPORT. Decoding over a tree: the cursor stays on the tree's Internal nodes, and decoding the codes
of a byte sequence gives the sequence (45_bitstream_decoder.md R116, R121).
-/

namespace Sys2Proof.Machine

/-- The state after emitting the bytes `bs` with the cursor at `c`. -/
def emitted (s : State) (bs : List Byte) (c : Nat) : State :=
  { s with obuf := bufWrite s.obuf s.outLen bs, outLen := s.outLen + bs.length, decCur := c }

theorem emitted_emitted (s : State) (bs cs : List Byte) (c d : Nat) :
    emitted (emitted s bs c) cs d = emitted s (bs ++ cs) d := by
  simp only [emitted, bufWrite_append, List.length_append, Nat.add_assoc]

theorem outputBytes_emitted (s : State) (bs : List Byte) (c : Nat) :
    outputBytes (emitted s bs c) = outputBytes s ++ bs := bufSlice_append _ _ _ _

/-! ### The cursor -/

/-- The children of an Internal node of a tree are nodes of the tree. -/
theorem child_mem {nodes : Buf Node} {t : CodeTree} (ht : treeIn nodes t = true) {i : Nat}
    (hi : i ∈ t.internals) (b : Bool) : childOf (arenaAt nodes i) b ∈ t.indices := by
  induction t with
  | leaf j x => simp [CodeTree.internals] at hi
  | node j l r hl hr =>
    obtain ⟨-, h2, h3, h4, h5⟩ := treeIn_node.mp ht
    simp only [CodeTree.internals, List.mem_cons, List.mem_append] at hi
    simp only [CodeTree.indices, List.mem_cons, List.mem_append]
    rcases hi with rfl | hi | hi
    · cases b
      · exact .inr (.inl (by simp [childOf, h2, l.index_mem]))
      · exact .inr (.inr (by simp [childOf, h3, r.index_mem]))
    · exact .inr (.inl (hl h4 hi))
    · exact .inr (.inr (hr h5 hi))

/-- A node of a tree that is no Leaf is one of its Internal nodes. -/
theorem mem_internals {nodes : Buf Node} {t : CodeTree} (ht : treeIn nodes t = true) {i : Nat}
    (hi : i ∈ t.indices) (hk : (arenaAt nodes i).kind ≠ .leaf) : i ∈ t.internals := by
  induction t with
  | leaf j x =>
    simp only [CodeTree.indices, List.mem_singleton] at hi
    subst hi
    exact absurd (treeIn_leaf.mp ht).1 hk
  | node j l r hl hr =>
    obtain ⟨-, -, -, h4, h5⟩ := treeIn_node.mp ht
    simp only [CodeTree.indices, List.mem_cons, List.mem_append] at hi
    simp only [CodeTree.internals, List.mem_cons, List.mem_append]
    rcases hi with h | h | h
    · exact .inl h
    · exact .inr (.inl (hl h4 h))
    · exact .inr (.inr (hr h5 h))

/-- The cursor is at ROOT or at an Internal node of the tree (10_state.md R46 item 5). -/
def CursorOk (s : State) (t : CodeTree) : Prop := s.decCur = s.root ∨ s.decCur ∈ t.internals

/-- A decoder step keeps the cursor at ROOT or at an Internal node. -/
theorem decStep_cursor {s s' : State} {t : CodeTree} {b : Bool} (ht : treeIn s.node t = true)
    (hr : t.index = s.root) (hc : CursorOk s t) (h : decStep b s = .ok s') : CursorOk s' t := by
  rcases decStep_cases h with ⟨x, c, -, rfl, ⟨-, rfl, -⟩ | ⟨-, rfl, -, -⟩⟩ | ⟨h1, h2, rfl⟩
  · exact hc
  · exact .inl rfl
  · right
    have hroot : s.root ∈ t.internals := mem_internals ht (hr ▸ t.index_mem) h1
    have hcur : s.decCur ∈ t.internals := hc.elim (fun h => h ▸ hroot) id
    exact mem_internals ht (child_mem ht hcur b) h2

theorem decAll_cursor {bs : Bits} {s s' : State} {t : CodeTree} (ht : treeIn s.node t = true)
    (hr : t.index = s.root) (hc : CursorOk s t) (h : decAll bs s = .ok s') : CursorOk s' t := by
  induction bs generalizing s with
  | nil => simp only [decAll, Except.ok.injEq] at h; subst h; exact hc
  | cons b bs ih =>
    obtain ⟨s1, h1, h2⟩ := thenBody_eq_ok.mp h
    have hn : s1.node = s.node := by rw [decStep_frame h1]
    have hr1 : s1.root = s.root := by rw [decStep_frame h1]
    exact ih (by rw [hn]; exact ht) (by rw [hr1]; exact hr) (decStep_cursor ht hr hc h1) h2

/-! ### Decoding codes -/

theorem decStep_move {s : State} {b : Bool} (h1 : (nodeAt s s.root).kind ≠ .leaf)
    (h2 : (nodeAt s (childOf (nodeAt s s.decCur) b)).kind ≠ .leaf) :
    decStep b s = .ok { s with decCur := childOf (nodeAt s s.decCur) b } := by
  rw [decStep, if_neg h1, if_neg h2]

theorem decStep_emit {s : State} {b : Bool} (h1 : (nodeAt s s.root).kind ≠ .leaf)
    (h2 : (nodeAt s (childOf (nodeAt s s.decCur) b)).kind = .leaf) (h3 : s.outLen ≠ s.obufBytes) :
    decStep b s = .ok (emitted s [(nodeAt s (childOf (nodeAt s s.decCur) b)).sym] s.root) := by
  rw [decStep, if_neg h1, if_pos h2, emit, if_neg h3]
  rfl

theorem decStep_degenerate {s : State} {b : Bool} (h1 : (nodeAt s s.root).kind = .leaf)
    (h3 : s.outLen ≠ s.obufBytes) :
    decStep b s = .ok (emitted s [(nodeAt s s.root).sym] s.decCur) := by
  rw [decStep, if_pos h1, emit, if_neg h3]
  rfl

/-- Decoding a path below an Internal node emits the symbol at its end and returns to ROOT. -/
theorem decAll_path {s : State} {u : CodeTree} {p : Byte × Bits}
    (hroot : (nodeAt s s.root).kind ≠ .leaf) (hu : treeIn s.node u = true) (hc : s.decCur = u.index)
    (hp : p ∈ u.erase.paths) (hne : p.2 ≠ []) (ho : s.outLen ≠ s.obufBytes) :
    decAll p.2 s = .ok (emitted s [p.1] s.root) := by
  induction u generalizing s p with
  | leaf i x =>
    simp only [CodeTree.erase, SymTree.paths, List.mem_singleton] at hp
    subst hp
    exact absurd rfl hne
  | node i l r hl hr =>
    obtain ⟨-, h2, h3, h4, h5⟩ := treeIn_node.mp hu
    simp only [CodeTree.erase, SymTree.paths, List.mem_append, List.mem_map] at hp
    have aux : ∀ (b : Bool) (c : CodeTree), childOf (nodeAt s s.decCur) b = c.index →
        treeIn s.node c = true →
        (∀ {s' : State} {p : Byte × Bits}, (nodeAt s' s'.root).kind ≠ .leaf →
          treeIn s'.node c = true → s'.decCur = c.index → p ∈ c.erase.paths → p.2 ≠ [] →
          s'.outLen ≠ s'.obufBytes → decAll p.2 s' = .ok (emitted s' [p.1] s'.root)) →
        ∀ q ∈ c.erase.paths, decAll (b :: q.2) s = .ok (emitted s [q.1] s.root) := by
      intro b c hch hin hind q hq
      cases c with
      | leaf j y =>
        simp only [CodeTree.erase, SymTree.paths, List.mem_singleton] at hq
        subst hq
        obtain ⟨k1, k2⟩ := treeIn_leaf.mp hin
        have hch' : childOf (nodeAt s s.decCur) b = j := hch
        have e1 : (nodeAt s (childOf (nodeAt s s.decCur) b)).kind = .leaf := by rw [hch']; exact k1
        have e2 : (nodeAt s (childOf (nodeAt s s.decCur) b)).sym = y := by rw [hch']; exact k2
        simp only [decAll, decStep_emit hroot e1 ho, thenBody_ok, e2]
      | node j cl cr =>
        have hne' : q.2 ≠ [] := by
          simp only [CodeTree.erase, SymTree.paths, List.mem_append, List.mem_map] at hq
          rcases hq with ⟨q', -, rfl⟩ | ⟨q', -, rfl⟩ <;> simp
        have e1 : (nodeAt s (childOf (nodeAt s s.decCur) b)).kind ≠ .leaf := by
          rw [hch]
          have := (treeIn_node.mp hin).1
          simp only [CodeTree.index_node, nodeAt, this]
          decide
        rw [decAll, decStep_move hroot e1, thenBody_ok]
        exact hind (s' := { s with decCur := childOf (nodeAt s s.decCur) b })
          hroot hin hch hq hne' ho
    have hcur : nodeAt s s.decCur = arenaAt s.node i := by rw [hc]; rfl
    rcases hp with ⟨q, hq, rfl⟩ | ⟨q, hq, rfl⟩
    · exact aux false l (by simp [childOf, hcur, h2]) h4 hl q hq
    · exact aux true r (by simp [childOf, hcur, h3]) h5 hr q hq

/-- Decoding any bits over a degenerate tree emits its symbol once per bit. -/
theorem decAll_degenerate {bs : Bits} {s : State} (h1 : (nodeAt s s.root).kind = .leaf)
    (ho : s.outLen + bs.length ≤ s.obufBytes) :
    decAll bs s = .ok (emitted s (List.replicate bs.length (nodeAt s s.root).sym) s.decCur) := by
  induction bs generalizing s with
  | nil => rfl
  | cons b bs ih =>
    simp only [List.length_cons] at ho
    rw [decAll, decStep_degenerate h1 (by omega), thenBody_ok]
    have h1' : (nodeAt (emitted s [(nodeAt s s.root).sym] s.decCur)
      (emitted s [(nodeAt s s.root).sym] s.decCur).root).kind = .leaf := h1
    rw [ih h1' (by simp only [emitted, List.length_singleton]; omega), emitted_emitted]
    rfl

/-- Decoding the codes of a byte sequence gives the sequence and ends at ROOT
(45_bitstream_decoder.md R121). -/
theorem decAll_encode {bs : List Byte} {s : State} {t : CodeTree} (ht : treeIn s.node t = true)
    (hr : t.index = s.root) (hc : s.decCur = s.root) (hn : t.erase.symbols.Nodup)
    (hb : ∀ b ∈ bs, b ∈ t.erase.symbols) (ho : s.outLen + bs.length ≤ s.obufBytes) :
    decAll (t.erase.encode bs) s = .ok (emitted s bs s.root) := by
  induction bs generalizing s with
  | nil =>
    have : emitted s [] s.root = s := by rw [← hc]; rfl
    rw [this]
    rfl
  | cons b bs ih =>
    simp only [List.length_cons] at ho
    obtain ⟨p, hp, hpb⟩ := SymTree.exists_code (hb b List.mem_cons_self)
    have hcode : t.erase.code b = p.2 := by rw [← hpb, SymTree.code_of_mem hn hp]
    have step1 : decAll (t.erase.code b) s = .ok (emitted s [b] s.root) := by
      rw [hcode]
      cases t with
      | leaf i x =>
        simp only [CodeTree.erase, SymTree.codes, List.mem_singleton] at hp
        obtain ⟨k1, k2⟩ := treeIn_leaf.mp ht
        have hi : i = s.root := hr
        subst hi
        subst hp
        subst hpb
        have := decAll_degenerate (bs := [false]) (s := s) k1 (by simp only [List.length_singleton]; omega)
        rw [this, hc]
        simp only [List.length_singleton, List.replicate_one, nodeAt, k2]
      | node i l r =>
        have hk : (nodeAt s s.root).kind ≠ .leaf := by
          rw [← hr]
          have := (treeIn_node.mp ht).1
          simp only [CodeTree.index_node, nodeAt, this]
          decide
        have hne : p.2 ≠ [] := by
          have := (SymTree.code_bounds hp).1
          intro h
          simp [h] at this
        rw [← hpb]
        exact decAll_path hk ht (hc.trans hr.symm) hp hne (by omega)
    have hcons : t.erase.encode (b :: bs) = t.erase.code b ++ t.erase.encode bs := rfl
    rw [hcons, decAll_append, step1, thenBody_ok]
    have h2 := ih (s := emitted s [b] s.root) ht hr rfl
      (fun c hc' => hb c (List.mem_cons_of_mem _ hc'))
      (by simp only [emitted, List.length_singleton]; omega)
    rw [h2, emitted_emitted]
    rfl

/-! ### Where the content or the output ends inside a code -/

/-- Decoding a proper prefix of a path moves the cursor to the node it ends at, and emits nothing. -/
theorem decAll_prefix {s : State} {u : CodeTree} {p q : Bits} {x : Byte}
    (hroot : (nodeAt s s.root).kind ≠ .leaf) (hu : treeIn s.node u = true) (hc : s.decCur = u.index)
    (hp : (x, p ++ q) ∈ u.erase.paths) (hq : q ≠ []) :
    ∃ v, decAll p s = .ok { s with decCur := v.index } ∧ treeIn s.node v = true ∧
      (x, q) ∈ v.erase.paths ∧ v.index ∈ u.indices ∧
      (p ≠ [] → u.indices.Nodup → v.index ≠ u.index) := by
  induction p generalizing s u with
  | nil =>
    refine ⟨u, ?_, hu, hp, u.index_mem, fun h => absurd rfl h⟩
    rw [← hc]
    rfl
  | cons b p ih =>
    cases u with
    | leaf i y =>
      simp only [CodeTree.erase, SymTree.paths, List.cons_append, List.mem_singleton,
        Prod.mk.injEq] at hp
      exact absurd hp.2 (by simp)
    | node i l r =>
      obtain ⟨-, h2, h3, h4, h5⟩ := treeIn_node.mp hu
      have hcur : nodeAt s s.decCur = arenaAt s.node i := by rw [hc]; rfl
      have aux : ∀ c : CodeTree, childOf (nodeAt s s.decCur) b = c.index → treeIn s.node c = true →
          (x, p ++ q) ∈ c.erase.paths → ∃ v, decAll (b :: p) s = .ok { s with decCur := v.index } ∧
            treeIn s.node v = true ∧ (x, q) ∈ v.erase.paths ∧ v.index ∈ c.indices := by
        intro c hch hin hpc
        have hk : (nodeAt s (childOf (nodeAt s s.decCur) b)).kind ≠ .leaf := by
          rw [hch]
          cases c with
          | leaf j y =>
            simp only [CodeTree.erase, SymTree.paths, List.mem_singleton, Prod.mk.injEq,
              List.append_eq_nil_iff] at hpc
            exact absurd hpc.2.2 hq
          | node j cl cr =>
            have := (treeIn_node.mp hin).1
            simp only [CodeTree.index_node, nodeAt, this]
            decide
        obtain ⟨v, g1, g2, g3, g4, -⟩ :=
          ih (s := { s with decCur := childOf (nodeAt s s.decCur) b }) hroot hin hch hpc
        refine ⟨v, ?_, g2, g3, g4⟩
        rw [decAll, decStep_move hroot hk, thenBody_ok]
        exact g1
      simp only [CodeTree.erase, SymTree.paths, List.cons_append, List.mem_append, List.mem_map] at hp
      have notin : ∀ {c : CodeTree} {v : Nat}, v ∈ c.indices → (c = l ∨ c = r) →
          v ∈ (CodeTree.node i l r).indices ∧
            (b :: p ≠ [] → (CodeTree.node i l r).indices.Nodup →
              v ≠ (CodeTree.node i l r).index) := by
        intro c v hv hcl
        have hm : v ∈ l.indices ++ r.indices := by
          rcases hcl with rfl | rfl <;> simp [hv]
        refine ⟨List.mem_cons_of_mem _ hm, fun _ hn he => ?_⟩
        have := (List.nodup_cons.mp hn).1
        rw [CodeTree.index_node] at he
        exact this (he ▸ hm)
      rcases hp with ⟨⟨y, w⟩, hw, he⟩ | ⟨⟨y, w⟩, hw, he⟩ <;>
        simp only [Prod.mk.injEq, List.cons.injEq] at he <;> obtain ⟨rfl, rfl, rfl⟩ := he
      · obtain ⟨v, g1, g2, g3, g4⟩ := aux l (by simp [childOf, hcur, h2]) h4 hw
        exact ⟨v, g1, g2, g3, notin g4 (.inl rfl)⟩
      · obtain ⟨v, g1, g2, g3, g4⟩ := aux r (by simp [childOf, hcur, h3]) h5 hw
        exact ⟨v, g1, g2, g3, notin g4 (.inr rfl)⟩

theorem decStep_full {s : State} {b : Bool} (h1 : (nodeAt s s.root).kind ≠ .leaf)
    (h2 : (nodeAt s (childOf (nodeAt s s.decCur) b)).kind = .leaf) (h3 : s.outLen = s.obufBytes) :
    decStep b s = .error (.raise .limit) := by
  rw [decStep, if_neg h1, if_pos h2, emit, if_pos h3]
  rfl

theorem decStep_degenerate_full {s : State} {b : Bool} (h1 : (nodeAt s s.root).kind = .leaf)
    (h3 : s.outLen = s.obufBytes) : decStep b s = .error (.raise .limit) := by
  rw [decStep, if_pos h1, emit, if_pos h3]

/-- Decoding more bits over a degenerate tree than OBUF has room for raises LIMIT. -/
theorem decAll_degenerate_full {bs : Bits} {s : State} (h1 : (nodeAt s s.root).kind = .leaf)
    (hl : s.outLen ≤ s.obufBytes) (ho : s.obufBytes < s.outLen + bs.length) :
    decAll bs s = .error (.raise .limit) := by
  induction bs generalizing s with
  | nil => simp only [List.length_nil] at ho; omega
  | cons b bs ih =>
    rw [decAll]
    simp only [List.length_cons] at ho
    by_cases h : s.outLen = s.obufBytes
    · rw [decStep_degenerate_full h1 h, thenBody_error]
    · rw [decStep_degenerate h1 h, thenBody_ok]
      have e : (emitted s [(nodeAt s s.root).sym] s.decCur).outLen = s.outLen + 1 := rfl
      exact ih (s := emitted s [(nodeAt s s.root).sym] s.decCur) h1
        (by rw [e]; show s.outLen + 1 ≤ s.obufBytes; omega)
        (by rw [e]; show s.obufBytes < s.outLen + 1 + bs.length; omega)

/-- Decoding the code of a symbol into a full OBUF raises LIMIT. -/
theorem decAll_code_full {s : State} {t : CodeTree} {x : Byte} (ht : treeIn s.node t = true)
    (hr : t.index = s.root) (hc : s.decCur = s.root) (hn : t.erase.symbols.Nodup)
    (hx : x ∈ t.erase.symbols) (ho : s.outLen = s.obufBytes) :
    decAll (t.erase.code x) s = .error (.raise .limit) := by
  obtain ⟨p, hp, rfl⟩ := SymTree.exists_code hx
  rw [SymTree.code_of_mem hn hp]
  cases t with
  | leaf i y =>
    simp only [CodeTree.erase, SymTree.codes, List.mem_singleton] at hp
    subst hp
    have hi : i = s.root := hr
    subst hi
    rw [decAll, decStep_degenerate_full (treeIn_leaf.mp ht).1 ho, thenBody_error]
  | node i l r =>
    have hk : (nodeAt s s.root).kind ≠ .leaf := by
      rw [← hr]
      have := (treeIn_node.mp ht).1
      simp only [CodeTree.index_node, nodeAt, this]
      decide
    have hne : p.2 ≠ [] := by
      have := (SymTree.code_bounds hp).1
      intro h
      simp [h] at this
    have hlast := List.dropLast_append_getLast hne
    have hp' : (p.1, p.2.dropLast ++ [p.2.getLast hne]) ∈ (CodeTree.node i l r).erase.paths := by
      rw [hlast]; exact hp
    obtain ⟨v, g1, g2, g3, -⟩ := decAll_prefix hk ht (hc.trans hr.symm) hp' (by simp)
    rw [← hlast, decAll_append, g1, thenBody_ok, decAll]
    cases v with
    | leaf j y =>
      simp only [CodeTree.erase, SymTree.paths, List.mem_singleton, Prod.mk.injEq] at g3
      exact absurd g3.2 (by simp)
    | node j cl cr =>
      obtain ⟨-, e2, e3, e4, e5⟩ := treeIn_node.mp g2
      have leafKind : ∀ c : CodeTree, treeIn s.node c = true → (p.1, ([] : Bits)) ∈ c.erase.paths →
          (arenaAt s.node c.index).kind = .leaf := by
        intro c hin hm
        cases c with
        | leaf k y => exact (treeIn_leaf.mp hin).1
        | node k a b =>
          simp only [CodeTree.erase, SymTree.paths, List.mem_append, List.mem_map] at hm
          rcases hm with ⟨w, -, hw⟩ | ⟨w, -, hw⟩ <;> simp at hw
      have hleaf : (arenaAt s.node (childOf (arenaAt s.node j) (p.2.getLast hne))).kind = .leaf := by
        simp only [CodeTree.erase, SymTree.paths, List.mem_append, List.mem_map] at g3
        rcases g3 with ⟨⟨y, w⟩, hw, he⟩ | ⟨⟨y, w⟩, hw, he⟩ <;>
          simp only [Prod.mk.injEq, List.cons.injEq] at he <;> obtain ⟨rfl, hb, rfl⟩ := he
        · rw [← hb, childOf, if_neg (by decide), e2]; exact leafKind cl e4 hw
        · rw [← hb, childOf, if_pos rfl, e3]; exact leafKind cr e5 hw
      have hstep := decStep_full (s := { s with decCur := j }) hk hleaf ho
      exact (congrArg (thenBody · (decAll [])) hstep).trans rfl

/-- Decoding the codes of more bytes than OBUF has room for raises LIMIT, whatever follows. -/
theorem decAll_encode_full {bs : List Byte} {rest : Bits} {s : State} {t : CodeTree}
    (ht : treeIn s.node t = true) (hr : t.index = s.root) (hc : s.decCur = s.root)
    (hn : t.erase.symbols.Nodup) (hb : ∀ b ∈ bs, b ∈ t.erase.symbols) (hl : s.outLen ≤ s.obufBytes)
    (ho : s.obufBytes < s.outLen + bs.length) :
    decAll (t.erase.encode bs ++ rest) s = .error (.raise .limit) := by
  have hk : s.obufBytes - s.outLen < bs.length := by omega
  have hsplit : bs = bs.take (s.obufBytes - s.outLen) ++
      bs[s.obufBytes - s.outLen] :: bs.drop (s.obufBytes - s.outLen + 1) := by
    rw [← List.drop_eq_getElem_cons hk, List.take_append_drop]
  have henc : t.erase.encode bs = t.erase.encode (bs.take (s.obufBytes - s.outLen)) ++
      (t.erase.code bs[s.obufBytes - s.outLen] ++
        t.erase.encode (bs.drop (s.obufBytes - s.outLen + 1))) := by
    have := congrArg (List.flatMap t.erase.code) hsplit
    rwa [List.flatMap_append, List.flatMap_cons] at this
  have hlen : (bs.take (s.obufBytes - s.outLen)).length = s.obufBytes - s.outLen := by
    rw [List.length_take]; omega
  rw [henc, List.append_assoc, decAll_append,
    decAll_encode ht hr hc hn (fun b h => hb b (List.mem_of_mem_take h)) (by omega), thenBody_ok,
    List.append_assoc, decAll_append,
    decAll_code_full (s := emitted s _ s.root) ht hr rfl hn (hb _ (List.getElem_mem hk))
      (by show s.outLen + _ = s.obufBytes; omega), thenBody_error]

/-! ### The body of DEC_RUN -/

/-- DEC_RUN on the codes of a byte sequence that fits OBUF. -/
theorem decRunBody_encode {bs : List Byte} {s : State} {t : CodeTree} (ht : treeIn s.node t = true)
    (hr : t.index = s.root) (hn : t.erase.symbols.Nodup) (hb : ∀ b ∈ bs, b ∈ t.erase.symbols)
    (hcb : contentBits s = t.erase.encode bs) (ho : bs.length ≤ s.obufBytes) :
    decRunBody s = .ok (emitted (rewind s) bs s.root) := by
  rw [decRunBody, hcb, decAll_encode (s := rewind s) ht hr rfl hn hb (by show 0 + bs.length ≤ s.obufBytes; omega),
    thenBody_ok, endCheck]
  exact if_neg fun h => h rfl

/-- DEC_RUN where the output does not fit OBUF. -/
theorem decRunBody_full {bs : List Byte} {rest : Bits} {s : State} {t : CodeTree}
    (ht : treeIn s.node t = true) (hr : t.index = s.root) (hn : t.erase.symbols.Nodup)
    (hb : ∀ b ∈ bs, b ∈ t.erase.symbols) (hcb : contentBits s = t.erase.encode bs ++ rest)
    (ho : s.obufBytes < bs.length) : decRunBody s = .error (.raise .limit) := by
  rw [decRunBody, hcb, decAll_encode_full (s := rewind s) ht hr rfl hn hb (Nat.zero_le _)
    (by show s.obufBytes < 0 + bs.length; omega), thenBody_error]

/-- DEC_RUN over a degenerate tree: one copy of the symbol per content bit, or LIMIT. -/
theorem decRunBody_degenerate {s : State} {i : Nat} {x : Byte} (ht : treeIn s.node (.leaf i x) = true)
    (hr : i = s.root) :
    (s.cbits ≤ s.obufBytes →
      decRunBody s = .ok (emitted (rewind s) (List.replicate s.cbits x) s.root)) ∧
    (s.obufBytes < s.cbits → decRunBody s = .error (.raise .limit)) := by
  subst hr
  obtain ⟨k1, k2⟩ := treeIn_leaf.mp ht
  have hl : (contentBits s).length = s.cbits := bufSlice_length ..
  constructor <;> intro h
  · have e : (nodeAt (rewind s) (rewind s).root).sym = x := k2
    rw [decRunBody, decAll_degenerate (s := rewind s) k1 (by rw [hl]; show 0 + s.cbits ≤ _; simpa using h),
      thenBody_ok, endCheck, hl, e]
    exact if_neg fun h => h rfl
  · rw [decRunBody, decAll_degenerate_full (s := rewind s) k1 (Nat.zero_le _)
      (by rw [hl]; show s.obufBytes < 0 + s.cbits; omega), thenBody_error]

/-- DEC_RUN where the content ends inside a code. -/
theorem decRunBody_truncated {bs : List Byte} {p q : Bits} {x : Byte} {s : State} {t : CodeTree}
    (ht : treeIn s.node t = true) (hr : t.index = s.root) (hi : t.indices.Nodup)
    (hn : t.erase.symbols.Nodup) (hb : ∀ b ∈ bs, b ∈ t.erase.symbols) (hx : t.erase.code x = p ++ q)
    (hp : p ≠ []) (hq : q ≠ []) (hcb : contentBits s = t.erase.encode bs ++ p)
    (ho : bs.length ≤ s.obufBytes) : decRunBody s = .error (.raise .truncatedContent) := by
  have hmem : x ∈ t.erase.symbols := by
    by_contra h
    rw [SymTree.code_of_not_mem h] at hx
    exact hp (List.append_eq_nil_iff.mp hx.symm).1
  obtain ⟨c, hc, rfl⟩ := SymTree.exists_code hmem
  rw [SymTree.code_of_mem hn hc] at hx
  cases t with
  | leaf i y =>
    simp only [CodeTree.erase, SymTree.codes, List.mem_singleton] at hc
    subst hc
    have h1 := List.length_pos_iff.mpr hp
    have h2 := List.length_pos_iff.mpr hq
    have := congrArg List.length hx
    simp only [List.length_singleton, List.length_append] at this
    omega
  | node i l r =>
    have hk : (nodeAt s s.root).kind ≠ .leaf := by
      rw [← hr]
      have := (treeIn_node.mp ht).1
      simp only [CodeTree.index_node, nodeAt, this]
      decide
    have hc' : (c.1, p ++ q) ∈ (CodeTree.node i l r).erase.paths := by rw [← hx]; exact hc
    obtain ⟨v, g1, -, -, -, g5⟩ :=
      decAll_prefix (s := emitted (rewind s) bs s.root) hk ht hr.symm hc' hq
    rw [decRunBody, hcb, decAll_append,
      decAll_encode (s := rewind s) ht hr rfl hn hb (by show 0 + bs.length ≤ s.obufBytes; omega), thenBody_ok]
    have e : decAll p (emitted (rewind s) bs (rewind s).root) = _ := g1
    rw [e, thenBody_ok, endCheck, if_pos]
    exact fun h => g5 hp hi (h.trans hr.symm)

end Sys2Proof.Machine
end

