-- ==== Sys2Proof/Laws/Deser.lean ====
section
/-!
SUPPORT. The deserializer: it accepts exactly the headers of trees with distinct leaf symbols, and
writes the tree in pre-order (46_tree_serializer.md R125, R127, R128).
-/

namespace Sys2Proof.Machine

@[simp] theorem SymTree.number_index (t : SymTree) (i : Nat) : (t.number i).index = i := by
  cases t <;> rfl

@[simp] theorem SymTree.number_erase (t : SymTree) (i : Nat) : (t.number i).erase = t := by
  induction t generalizing i with
  | leaf x => rfl
  | node l r hl hr => simp [SymTree.number, CodeTree.erase, hl, hr]

/-- Pre-order numbering uses the indices from `i` on, each once. -/
theorem SymTree.number_indices (t : SymTree) (i : Nat) :
    (t.number i).indices = List.range' i (2 * t.symbols.length - 1) := by
  induction t generalizing i with
  | leaf x => rfl
  | node l r hl hr =>
    have pl := l.symbols_pos
    have pr := r.symbols_pos
    have e : 2 * (l.symbols.length + r.symbols.length) - 1 =
        ((2 * l.symbols.length - 1) + (2 * r.symbols.length - 1)) + 1 := by omega
    have e2 : i + 1 + (2 * l.symbols.length - 1) = i + 2 * l.symbols.length := by omega
    simp only [SymTree.number, CodeTree.indices, hl, hr, SymTree.symbols, List.length_append, e,
      List.range'_succ]
    congr 1
    rw [← List.range'_append_1, e2]

theorem SymTree.mem_number {t : SymTree} {i j : Nat} :
    j ∈ (t.number i).indices ↔ i ≤ j ∧ j < i + (2 * t.symbols.length - 1) := by
  rw [SymTree.number_indices, List.mem_range'_1]

/-- What `node()` leaves in the arena: the tree, and nothing else changed. -/
structure DeserTo (d d' : DeserState) (t : SymTree) : Prop where
  bits : d.bits = t.header ++ d'.bits
  cnt : d'.cnt = d.cnt + (2 * t.symbols.length - 1)
  seen : ∀ x, x ∈ d'.seen ↔ x ∈ d.seen ∨ x ∈ t.symbols
  fresh : ∀ x ∈ t.symbols, x ∉ d.seen
  nodup : t.symbols.Nodup
  tree : treeIn d'.nodes (t.number d.cnt) = true
  rest : ∀ i, i < d.cnt ∨ d'.cnt ≤ i → arenaAt d'.nodes i = arenaAt d.nodes i
  gen : d'.nodes.gen = d.nodes.gen
  fields : ∀ i, d.cnt ≤ i → i < d'.cnt →
    (arenaAt d'.nodes i).weight = 0 ∧ (arenaAt d'.nodes i).UnusedZero

/-- A Leaf read. -/
theorem DeserTo.leaf {d : DeserState} {x : Byte} {rest : Bits} (hb : d.bits = true :: (bits8 x ++ rest))
    (hx : x ∉ d.seen) :
    DeserTo d { bits := rest, cnt := d.cnt + 1, seen := x :: d.seen
                nodes := bufSet d.nodes d.cnt (leafNode x 0) } (.leaf x) where
  bits := by simp [SymTree.header, hb]
  cnt := by simp [SymTree.symbols]
  seen := by intro y; simp [SymTree.symbols, or_comm]
  fresh := by intro y hy; simp only [SymTree.symbols, List.mem_singleton] at hy; exact hy ▸ hx
  nodup := by simp [SymTree.symbols]
  tree := by simp [SymTree.number, treeIn, arenaAt, leafNode]
  rest := by
    intro i hi
    simp only at hi
    exact bufGet_bufSet_other _ _ _ (by omega)
  gen := rfl
  fields := by
    intro i h1 h2
    simp only at h2
    have : i = d.cnt := by omega
    subst this
    simp [arenaAt, leafNode, Node.UnusedZero]

/-- An Internal node read. -/
theorem DeserTo.node {d d1 d2 : DeserState} {l r : SymTree} {rest : Bits} (hb : d.bits = false :: rest)
    (h1 : DeserTo { d with bits := rest, cnt := d.cnt + 1 } d1 l) (h2 : DeserTo d1 d2 r) :
    DeserTo d { d2 with nodes := bufSet d2.nodes d.cnt (internalNode 0 (d.cnt + 1) d1.cnt) }
      (.node l r) := by
  have pl := l.symbols_pos
  have pr := r.symbols_pos
  have c1 := h1.cnt
  have c2 := h2.cnt
  simp only at c1
  have hd1 : d1.cnt = d.cnt + 2 * l.symbols.length := by omega
  have hb1 := h1.bits
  simp only at hb1
  refine ⟨?_, ?_, ?_, ?_, ?_, ?_, ?_, ?_, ?_⟩
  · simp [SymTree.header, hb, hb1, h2.bits]
  · simp only [SymTree.symbols, List.length_append]; omega
  · intro x
    simp only [h2.seen, h1.seen, SymTree.symbols, List.mem_append]
    tauto
  · intro x hx
    simp only [SymTree.symbols, List.mem_append] at hx
    rcases hx with hx | hx
    · exact h1.fresh x hx
    · exact fun h => h2.fresh x hx ((h1.seen x).mpr (.inl h))
  · simp only [SymTree.symbols]
    refine List.nodup_append.mpr ⟨h1.nodup, h2.nodup, ?_⟩
    intro a ha b hb hab
    subst hab
    exact h2.fresh a hb ((h1.seen a).mpr (.inr ha))
  · rw [SymTree.number, treeIn_node]
    have hl : treeIn d2.nodes (l.number (d.cnt + 1)) = true := by
      rw [treeIn_congr (nodes := d1.nodes), h1.tree]
      intro i hi
      have := SymTree.mem_number.mp hi
      exact h2.rest i (.inl (by omega))
    have hr : treeIn d2.nodes (r.number (d.cnt + 2 * l.symbols.length)) = true := by
      rw [← hd1]; exact h2.tree
    refine ⟨?_, ?_, ?_, ?_, ?_⟩
    · simp [arenaAt, internalNode]
    · simp [arenaAt, internalNode]
    · simp [arenaAt, internalNode, hd1]
    · rw [treeIn_bufSet (by rw [SymTree.mem_number]; omega)]; exact hl
    · rw [treeIn_bufSet (by rw [SymTree.mem_number]; omega)]; exact hr
  · intro i hi
    simp only at hi
    have e1 : arenaAt (bufSet d2.nodes d.cnt (internalNode 0 (d.cnt + 1) d1.cnt)) i =
        arenaAt d2.nodes i := bufGet_bufSet_other _ _ _ (by omega)
    have e2 : arenaAt d2.nodes i = arenaAt d1.nodes i := h2.rest i (by omega)
    have e3 : arenaAt d1.nodes i = arenaAt d.nodes i := h1.rest i (by simp only; omega)
    simp only [e1, e2, e3]
  · simp only [bufSet_gen, h2.gen, h1.gen]
  · intro i hi1 hi2
    simp only at hi2
    by_cases hi : i = d.cnt
    · subst hi; simp [arenaAt, internalNode, Node.UnusedZero]
    · have e1 : arenaAt (bufSet d2.nodes d.cnt (internalNode 0 (d.cnt + 1) d1.cnt)) i =
          arenaAt d2.nodes i := bufGet_bufSet_other _ _ _ hi
      simp only [e1]
      by_cases h3 : i < d1.cnt
      · rw [h2.rest i (.inl h3)]
        exact h1.fields i (by simp only; omega) h3
      · exact h2.fields i (by omega) hi2

/-- Everything `node()` can do when it answers. -/
theorem deserNode_some {fuel : Nat} {d d' : DeserState} {i : Nat} (hc : d.cnt ≤ maxNodes)
    (h : deserNode fuel d = some (i, d')) :
    i = d.cnt ∧ d'.cnt ≤ maxNodes ∧ ∃ t, DeserTo d d' t := by
  induction fuel generalizing d d' i with
  | zero => simp [deserNode] at h
  | succ fuel ih =>
    rw [deserNode] at h
    split at h
    · simp at h
    · rename_i hcnt
      split at h
      · simp at h
      · rename_i b7 b6 b5 b4 b3 b2 b1 b0 rest hbits
        simp only at h
        split at h
        · simp at h
        · rename_i hseen
          simp only [Option.some.injEq, Prod.mk.injEq] at h
          obtain ⟨rfl, rfl⟩ := h
          refine ⟨rfl, ?_, .leaf _, DeserTo.leaf ?_ hseen⟩
          · simp only; omega
          · rw [hbits, bits8_ofBits]; rfl
      · simp at h
      · rename_i rest hbits
        split at h
        · simp at h
        · rename_i l d1 h1
          split at h
          · simp at h
          · rename_i r d2 h2
            simp only [Option.some.injEq, Prod.mk.injEq] at h
            obtain ⟨rfl, rfl⟩ := h
            obtain ⟨rfl, g3, tl, g1⟩ := ih (by simp only; omega) h1
            obtain ⟨rfl, g0, tr, g2⟩ := ih g3 h2
            exact ⟨rfl, g0, .node tl tr, DeserTo.node hbits g1 g2⟩

/-- `node()` accepts the header of every tree whose leaf symbols are distinct and new, and which fits
the arena. -/
theorem deserNode_header {fuel : Nat} {t : SymTree} {d : DeserState} {rest : Bits}
    (hb : d.bits = t.header ++ rest) (hn : t.symbols.Nodup) (hs : ∀ x ∈ t.symbols, x ∉ d.seen)
    (hf : t.symbols.length ≤ fuel) (hc : d.cnt + (2 * t.symbols.length - 1) ≤ maxNodes) :
    ∃ d', deserNode fuel d = some (d.cnt, d') ∧ d'.bits = rest ∧ DeserTo d d' t := by
  induction t generalizing fuel d rest with
  | leaf x =>
    obtain ⟨fuel, rfl⟩ := Nat.exists_eq_add_of_le' (show 1 ≤ fuel from hf)
    have hx : x ∉ d.seen := hs x (by simp [SymTree.symbols])
    have hb' : d.bits = true :: (bits8 x ++ rest) := by simpa [SymTree.header] using hb
    have hcnt : d.cnt ≠ maxNodes := by simp [SymTree.symbols] at hc; omega
    refine ⟨_, ?_, rfl, DeserTo.leaf hb' hx⟩
    have e := ofBits_bits8 x
    simp only [bits8] at e
    rw [deserNode, if_neg hcnt, hb']
    simp only [bits8, List.cons_append, List.nil_append, e, if_neg hx]
  | node l r hl hr =>
    have pl := l.symbols_pos
    have pr := r.symbols_pos
    simp only [SymTree.symbols, List.length_append, List.nodup_append, List.mem_append] at hn hs hf hc
    obtain ⟨fuel, rfl⟩ := Nat.exists_eq_add_of_le' (show 1 ≤ fuel by omega)
    have hb' : d.bits = false :: (l.header ++ (r.header ++ rest)) := by simpa [SymTree.header] using hb
    have hcnt : d.cnt ≠ maxNodes := by omega
    obtain ⟨d1, e1, f1, g1⟩ := hl (fuel := fuel)
      (d := { d with bits := l.header ++ (r.header ++ rest), cnt := d.cnt + 1 }) rfl hn.1
      (fun x hx => hs x (.inl hx)) (by omega) (by simp only; omega)
    have hc1 := g1.cnt
    simp only at hc1
    obtain ⟨d2, e2, f2, g2⟩ := hr (fuel := fuel) (d := d1) f1 hn.2.1
      (fun x hx h => by
        rcases (g1.seen x).mp h with h | h
        · exact hs x (.inr hx) h
        · exact hn.2.2 x h x hx rfl) (by omega) (by omega)
    refine ⟨_, ?_, ?_, DeserTo.node hb' g1 g2⟩
    · rw [deserNode, if_neg hcnt, hb']
      simp only [e1, e2]
    · exact f2

/-- A tree with distinct symbols has at most 256 leaves. -/
theorem SymTree.symbols_le {t : SymTree} (hn : t.symbols.Nodup) : t.symbols.length ≤ 256 := by
  have hn' : (t.symbols.map BitVec.toNat).Nodup :=
    hn.map fun _ _ h => BitVec.eq_of_toNat_eq h
  have hsub : t.symbols.map BitVec.toNat ⊆ List.range 256 := by
    intro n hn
    obtain ⟨x, -, rfl⟩ := List.mem_map.mp hn
    exact List.mem_range.mpr x.isLt
  have := (List.subperm_of_subset hn' hsub).length_le
  rwa [List.length_map, List.length_range] at this

end Sys2Proof.Machine
end

