-- ==== Sys2Proof/Laws/Encoder.lean ====
section
/-!
SUPPORT. What encoding does: `appendC`, `code1` and `codeAll` (44_bitstream_encoder.md R108, R109).
-/

namespace Sys2Proof.Machine

@[simp] theorem contentBits_length (s : State) : (contentBits s).length = s.cbits := by
  simp [contentBits]

/-- Everything `appendC` can do. -/
theorem appendC_ok_iff {bits : Bits} {s t : State} :
    appendC bits s = .ok t ↔ s.cbits + bits.length ≤ s.cbufBits ∧
      t = { s with cbuf := bufWrite s.cbuf s.cbits bits, cbits := s.cbits + bits.length } := by
  unfold appendC
  split <;> simp [eq_comm] <;> omega

theorem appendC_error {bits : Bits} {s : State} {e : Stop} (h : appendC bits s = .error e) :
    e = .raise .limit := by
  unfold appendC at h
  split at h <;> simp_all

/-- Appending bits appends them to the content. -/
theorem contentBits_append (s : State) (bits : Bits) :
    contentBits { s with cbuf := bufWrite s.cbuf s.cbits bits, cbits := s.cbits + bits.length } =
      contentBits s ++ bits := bufSlice_append _ _ _ _

theorem code1_ok_iff {b : Byte} {s t : State} :
    code1 b s = .ok t ↔ codeLenAt s b.toNat ≠ 0 ∧
      s.cbits + (codeOf s b.toNat).length ≤ s.cbufBits ∧
      t = { s with
        cbuf := bufWrite s.cbuf s.cbits (codeOf s b.toNat)
        cbits := s.cbits + (codeOf s b.toNat).length } := by
  unfold code1
  split
  · simp_all
  · rw [appendC_ok_iff]; simp_all

theorem code1_error {b : Byte} {s : State} {e : Stop} (h : code1 b s = .error e) :
    (e = .raise .invariant ∧ codeLenAt s b.toNat = 0) ∨ e = .raise .limit := by
  unfold code1 at h
  split at h
  · simp_all
  · exact .inr (appendC_error h)

theorem codeAll_error {bs : List Byte} {s : State} {e : Stop} (h : codeAll bs s = .error e) :
    e = .raise .invariant ∨ e = .raise .limit := by
  induction bs generalizing s with
  | nil => simp [codeAll] at h
  | cons b bs ih =>
    rcases thenBody_eq_error.mp h with h | ⟨s1, -, h⟩
    · rcases code1_error h with h | h <;> simp [h]
    · exact ih h

/-- Encoding changes CBUF and CBITS only. -/
theorem codeAll_frame {bs : List Byte} {s t : State} (h : codeAll bs s = .ok t) :
    t = { s with cbuf := t.cbuf, cbits := t.cbits } := by
  induction bs generalizing s with
  | nil => simp only [codeAll, Except.ok.injEq] at h; subst h; rfl
  | cons b bs ih =>
    obtain ⟨s1, h1, h2⟩ := thenBody_eq_ok.mp h
    obtain ⟨-, -, rfl⟩ := code1_ok_iff.mp h1
    have h3 := ih h2
    exact h3

/-- The content after encoding a byte sequence (44_bitstream_encoder.md R113). -/
theorem codeAll_content {bs : List Byte} {s t : State} (h : codeAll bs s = .ok t) :
    contentBits t = contentBits s ++ bs.flatMap (fun b => codeOf s b.toNat) := by
  induction bs generalizing s with
  | nil => simp only [codeAll, Except.ok.injEq] at h; subst h; simp
  | cons b bs ih =>
    obtain ⟨s1, h1, h2⟩ := thenBody_eq_ok.mp h
    obtain ⟨-, -, rfl⟩ := code1_ok_iff.mp h1
    rw [ih h2, contentBits_append, List.flatMap_cons, List.append_assoc]
    rfl

/-- Bits of CBUF below the old CBITS and at or beyond the new one are as before. -/
theorem codeAll_cbuf {bs : List Byte} {s t : State} (h : codeAll bs s = .ok t) :
    s.cbits ≤ t.cbits ∧ ∀ k, k < s.cbits ∨ t.cbits ≤ k → cbufAt t k = cbufAt s k := by
  induction bs generalizing s with
  | nil => simp only [codeAll, Except.ok.injEq] at h; subst h; simp
  | cons b bs ih =>
    obtain ⟨s1, h1, h2⟩ := thenBody_eq_ok.mp h
    obtain ⟨-, -, rfl⟩ := code1_ok_iff.mp h1
    obtain ⟨h3, h4⟩ := ih h2
    simp only at h3 h4
    refine ⟨by omega, fun k hk => ?_⟩
    rw [h4 k (by omega)]
    exact bufGet_bufWrite_outside _ _ (by omega)

/-- Encoding ends whenever every byte has a code and the bits fit CBUF. -/
theorem codeAll_ends {bs : List Byte} {s : State} (h1 : ∀ b ∈ bs, codeLenAt s b.toNat ≠ 0)
    (h2 : s.cbits + (bs.flatMap fun b => codeOf s b.toNat).length ≤ s.cbufBits) :
    ∃ t, codeAll bs s = .ok t := by
  induction bs generalizing s with
  | nil => exact ⟨s, rfl⟩
  | cons b bs ih =>
    simp only [List.flatMap_cons, List.length_append] at h2
    have hok := code1_ok_iff.mpr ⟨h1 b List.mem_cons_self, by omega, rfl⟩
    rw [codeAll, hok]
    refine ih (fun c hc => h1 c (List.mem_cons_of_mem _ hc)) ?_
    have : ∀ c, codeOf { s with
      cbuf := bufWrite s.cbuf s.cbits (codeOf s b.toNat)
      cbits := s.cbits + (codeOf s b.toNat).length } c = codeOf s c := fun _ => rfl
    simp only [this]
    omega

theorem codeAll_cbits_le {bs : List Byte} {s t : State} (h : codeAll bs s = .ok t)
    (hs : s.cbits ≤ s.cbufBits) : t.cbits ≤ s.cbufBits := by
  induction bs generalizing s with
  | nil => simp only [codeAll, Except.ok.injEq] at h; subst h; exact hs
  | cons b bs ih =>
    obtain ⟨s1, h1, h2⟩ := thenBody_eq_ok.mp h
    obtain ⟨-, h3, rfl⟩ := code1_ok_iff.mp h1
    have h4 := ih h2 h3
    exact h4

theorem codeAll_keeps_cbufOk {bs : List Byte} {s t : State} (h : codeAll bs s = .ok t)
    (hs : bufOk s.cbufBits s.cbuf = true) : bufOk s.cbufBits t.cbuf = true := by
  induction bs generalizing s with
  | nil => simp only [codeAll, Except.ok.injEq] at h; subst h; exact hs
  | cons b bs ih =>
    obtain ⟨s1, h1, h2⟩ := thenBody_eq_ok.mp h
    obtain ⟨-, h3, rfl⟩ := code1_ok_iff.mp h1
    have h4 := ih h2 (bufOk_bufWrite hs h3)
    exact h4

/-- Where every byte has a code, `codeAll` can only raise LIMIT. -/
theorem codeAll_error_coded {bs : List Byte} {s : State} {e : Stop}
    (hc : ∀ b ∈ bs, codeLenAt s b.toNat ≠ 0) (h : codeAll bs s = .error e) : e = .raise .limit := by
  induction bs generalizing s with
  | nil => cases h
  | cons b bs ih =>
    rcases thenBody_eq_error.mp h with h1 | ⟨s1, h1, h2⟩
    · rcases code1_error h1 with ⟨-, h0⟩ | h0
      · exact absurd h0 (hc b List.mem_cons_self)
      · exact h0
    · have hl : ∀ x, codeLenAt s1 x = codeLenAt s x := fun x => by
        rw [(code1_ok_iff.mp h1).2.2]; rfl
      exact ih (fun c hm => by rw [hl]; exact hc c (List.mem_cons_of_mem _ hm)) h2

theorem codeAll_append (bs cs : List Byte) (s : State) :
    codeAll (bs ++ cs) s = thenBody (codeAll bs s) (codeAll cs) := by
  induction bs generalizing s with
  | nil => rfl
  | cons b bs ih =>
    simp only [List.cons_append, codeAll]
    cases code1 b s with
    | ok t => simp only [thenBody_ok, ih]
    | error e => simp only [thenBody_error]

end Sys2Proof.Machine
end

