-- ==== Sys2Proof/Laws/Memory.lean ====
section
/-!
SUPPORT. Every operation keeps the arrays in canonical form and within their range
(20_memory.md R64), and the reset state has them so.
-/

namespace Sys2Proof.Machine

theorem resetWith_arrays (ib ob cb : Nat) : ArraysOk (State.resetWith ib ob cb) :=
  ⟨rfl, rfl, rfl, rfl, rfl, rfl, rfl, rfl⟩

/-- The arrays are in order when those of another state with the same capacities are, and the
changed ones are. -/
theorem complete_arrays {s : State} (h : ArraysOk s) : ArraysOk (complete s) := h

theorem errorEntry_arrays {e : ErrKind} {s : State} (h : ArraysOk s) : ArraysOk (errorEntry e s) := h

theorem sessionClear_arrays {s : State} (h : ArraysOk s) : ArraysOk (sessionClear s) :=
  ⟨rfl, h.2⟩

theorem softReset_arrays {s : State} (h : ArraysOk s) : ArraysOk (softReset s) := ⟨rfl, h.2⟩

theorem hardReset_arrays (s : State) : ArraysOk (hardReset s) :=
  ⟨rfl, rfl, rfl, rfl, rfl, rfl, rfl, rfl⟩

theorem forgetNode_arrays {s : State} (h : ArraysOk s) : ArraysOk (forgetNode s) :=
  ⟨h.1, rfl, h.2.2⟩

theorem forgetCodes_arrays {s : State} (h : ArraysOk s) : ArraysOk (forgetCodes s) :=
  ⟨h.1, h.2.1, rfl, rfl, h.2.2.2.2⟩

theorem forgetHdr_arrays {s : State} (h : ArraysOk s) : ArraysOk (forgetHdr s) :=
  ⟨h.1, h.2.1, h.2.2.1, h.2.2.2.1, rfl, h.2.2.2.2.2⟩

theorem forgetCbuf_arrays {s : State} (h : ArraysOk s) : ArraysOk (forgetCbuf s) :=
  ⟨h.1, h.2.1, h.2.2.1, h.2.2.2.1, h.2.2.2.2.1, rfl, h.2.2.2.2.2.2⟩

theorem forgetObuf_arrays {s : State} (h : ArraysOk s) : ArraysOk (forgetObuf s) :=
  ⟨h.1, h.2.1, h.2.2.1, h.2.2.2.1, h.2.2.2.2.1, h.2.2.2.2.2.1, h.2.2.2.2.2.2.1, rfl⟩

theorem xferBody_arrays {s t : State} (h : ArraysOk s) (hb : xferBody s = .ok t) : ArraysOk t := by
  unfold xferBody at hb
  split at hb
  · simp at hb
  · rename_i hl
    simp only [Except.ok.injEq] at hb
    subst hb
    refine ⟨h.1, h.2.1, h.2.2.1, h.2.2.2.1, h.2.2.2.2.1, h.2.2.2.2.2.1, ?_, h.2.2.2.2.2.2.2⟩
    exact bufOk_bufWrite h.2.2.2.2.2.2.1 (by rw [outputBytes_length]; simp only; omega)

theorem countAll_cellsOk {bs : List Byte} {s t : State} (h : cellsOk 256 s.freq = true)
    (hb : countAll bs s = .ok t) : cellsOk 256 t.freq = true := by
  induction bs generalizing s with
  | nil => simp only [countAll, Except.ok.injEq] at hb; subst hb; exact h
  | cons b bs ih =>
    obtain ⟨s1, h1, h2⟩ := thenBody_eq_ok.mp hb
    obtain ⟨-, rfl⟩ := count1_ok_iff.mp h1
    exact ih (cellsOk_cellSet _ h b.isLt) h2

theorem countAll_arrays {bs : List Byte} {s t : State} (h : ArraysOk s) (hb : countAll bs s = .ok t) :
    ArraysOk t := by
  have hf := countAll_frame hb
  have hc := countAll_cellsOk h.1 hb
  rw [hf]
  exact ⟨hc, h.2⟩

theorem seedLeaves_bufOk (freq : Nat → Nat) (xs : List Nat) (n : Nat) (nodes : Buf Node)
    (h : bufOk 511 nodes = true) (hn : n + (xs.filter fun x => decide (0 < freq x)).length ≤ 511) :
    bufOk 511 (seedLeaves freq xs n nodes).2 = true := by
  induction xs generalizing n nodes with
  | nil => exact h
  | cons x xs ih =>
    rw [seedLeaves]
    by_cases hx : freq x > 0
    · simp only [List.filter_cons, hx, decide_true, if_true, List.length_cons] at hn ⊢
      exact ih _ _ (bufOk_bufSet _ h (by omega)) (by omega)
    · simp only [List.filter_cons, hx, decide_false, Bool.false_eq_true, if_false] at hn ⊢
      exact ih _ _ h hn

theorem mergeLoop_bufOk (fuel : Nat) (nodes : Buf Node) (q : List Nat) (next : Nat)
    (h : bufOk 511 nodes = true) (hn : q.length + next ≤ 512) :
    bufOk 511 (mergeLoop fuel nodes q next).1 = true := by
  induction fuel generalizing nodes q next with
  | zero => exact h
  | succ fuel ih =>
    match q, hn with
    | [], _ => exact h
    | [r], _ => exact h
    | m :: m' :: q, hn =>
      have p1 := (extractLeast_perm nodes m (m' :: q)).length_eq
      rw [mergeLoop]
      rcases h1 : extractLeast nodes m (m' :: q) with ⟨a, r⟩
      rw [h1] at p1
      match r, p1 with
      | [], _ => exact h
      | m1 :: q1, p1 =>
        have p2 := (extractLeast_perm nodes m1 q1).length_eq
        rcases h2 : extractLeast nodes m1 q1 with ⟨b, q2⟩
        rw [h2] at p2
        simp only [List.length_cons] at p1 p2 hn
        simp only [h2]
        refine ih _ _ _ (bufOk_bufSet _ h (by omega)) ?_
        simp only [List.length_append, List.length_singleton]
        omega

theorem buildTree_frame {s t : State} (h : buildTree s = .ok t) :
    t = { s with
      node := t.node, root := t.root, nnodes := t.nnodes, treeValid := true, ctValid := false
      ftLock := true, decCur := t.root } ∧
      (mergeLoop (seedLeaves (freqAt s) (List.range 256) 0 s.node).1
        (seedLeaves (freqAt s) (List.range 256) 0 s.node).2
        (List.range (seedLeaves (freqAt s) (List.range 256) 0 s.node).1)
        (seedLeaves (freqAt s) (List.range 256) 0 s.node).1) = (t.node, [t.root], t.nnodes) := by
  unfold buildTree at h
  split at h
  rename_i n leaves hse
  split at h
  · rename_i nodes r next hm
    simp only [Except.ok.injEq] at h
    subst h
    exact ⟨rfl, by rw [hse]; exact hm⟩
  · simp at h

theorem buildTree_arrays {s t : State} (h : ArraysOk s) (hb : buildTree s = .ok t) : ArraysOk t := by
  obtain ⟨h1, h2⟩ := buildTree_frame hb
  have hl := (seedLeaves_spec (freqAt s) (List.range 256) 0 s.node).1
  have hle := present_length_le (freqAt s)
  unfold present at hle
  have hok : bufOk 511 t.node = true := by
    have h3 := seedLeaves_bufOk (freqAt s) (List.range 256) 0 s.node h.2.1 (by omega)
    have h4 := mergeLoop_bufOk (seedLeaves (freqAt s) (List.range 256) 0 s.node).1 _
      (List.range (seedLeaves (freqAt s) (List.range 256) 0 s.node).1)
      (seedLeaves (freqAt s) (List.range 256) 0 s.node).1 h3 (by rw [List.length_range]; omega)
    rwa [h2] at h4
  rw [h1]
  exact ⟨h.1, hok, h.2.2⟩

theorem writeLengths_bufOk {b : Buf Nat} (codes : List (Byte × Bits)) (h : bufOk 256 b = true) :
    bufOk 256 (writeLengths b codes) = true := by
  induction codes generalizing b with
  | nil => exact h
  | cons p codes ih => exact ih (bufOk_bufSet _ h p.1.isLt)

theorem writeCodes_bufOk {b : Buf Bits} (codes : List (Byte × Bits)) (h : bufOk 256 b = true) :
    bufOk 256 (writeCodes b codes) = true := by
  induction codes generalizing b with
  | nil => exact h
  | cons p codes ih => exact ih (bufOk_bufSet _ h p.1.isLt)

/-- Everything the body of CT_DERIVE can do when it ends. -/
theorem deriveCodes_ok_iff {s t : State} : deriveCodes s = .ok t ↔
    ∃ codes, treeCodes s.node s.root = some codes ∧ t = { s with
      codeLen := writeLengths (noLengths s.codeLen) codes
      codeBits := writeCodes (noCodes s.codeBits) codes
      ctValid := true } := by
  unfold deriveCodes
  cases treeCodes s.node s.root <;> simp [eq_comm]

theorem deriveCodes_arrays {s t : State} (h : ArraysOk s) (hb : deriveCodes s = .ok t) :
    ArraysOk t := by
  obtain ⟨codes, -, rfl⟩ := deriveCodes_ok_iff.mp hb
  refine ⟨h.1, h.2.1, ?_, ?_, h.2.2.2.2⟩
  · exact writeLengths_bufOk _ (bufOk_bufFill _ _ (Nat.le_refl _))
  · exact writeCodes_bufOk _ (bufOk_bufFill _ _ (Nat.le_refl _))

theorem codeAll_arrays {bs : List Byte} {s t : State} (h : ArraysOk s) (hb : codeAll bs s = .ok t) :
    ArraysOk t := by
  have hf := codeAll_frame hb
  have hc := codeAll_keeps_cbufOk hb h.2.2.2.2.2.1
  rw [hf]
  exact ⟨h.1, h.2.1, h.2.2.1, h.2.2.2.1, h.2.2.2.2.1, hc, h.2.2.2.2.2.2⟩

theorem decAll_arrays {bs : Bits} {s t : State} (h : ArraysOk s) (hl : s.outLen ≤ s.obufBytes)
    (hb : decAll bs s = .ok t) : ArraysOk t := by
  have hf := decAll_frame hb
  have hc := (decAll_obuf hb hl h.2.2.2.2.2.2.2).2.2.1
  rw [hf]
  exact ⟨h.1, h.2.1, h.2.2.1, h.2.2.2.1, h.2.2.2.2.1, h.2.2.2.2.2.1, h.2.2.2.2.2.2.1, hc⟩

/-- Everything the body of TS_SERIALIZE can do when it ends. -/
theorem serializeTree_ok_iff {s t : State} : serializeTree s = .ok t ↔
    ∃ h, serBits s.node walkFuel s.root = some h ∧ h.length ≤ hdrMaxBits ∧
      t = { s with hdr := bufWrite s.hdr 0 h, hbits := h.length } := by
  unfold serializeTree
  cases serBits s.node walkFuel s.root with
  | none => simp
  | some h =>
    by_cases hl : h.length ≤ hdrMaxBits
    · simp [hl, eq_comm]
    · simp [hl]

theorem serializeTree_arrays {s t : State} (h : ArraysOk s) (hb : serializeTree s = .ok t) :
    ArraysOk t := by
  obtain ⟨hd, -, hl, rfl⟩ := serializeTree_ok_iff.mp hb
  refine ⟨h.1, h.2.1, h.2.2.1, h.2.2.2.1, ?_, h.2.2.2.2.2⟩
  exact bufOk_bufWrite h.2.2.2.2.1 (by rw [Nat.zero_add]; exact hl)

theorem deserNode_bufOk {fuel : Nat} {d d' : DeserState} {i : Nat} (hc : d.cnt ≤ maxNodes)
    (h : deserNode fuel d = some (i, d')) (hb : bufOk 511 d.nodes = true) :
    bufOk 511 d'.nodes = true := by
  induction fuel generalizing d d' i with
  | zero => simp [deserNode] at h
  | succ fuel ih =>
    rw [deserNode] at h
    split at h
    · simp at h
    · rename_i hcnt
      have hlt : d.cnt < 511 := by
        have : maxNodes = 511 := rfl
        omega
      split at h
      · simp at h
      · simp only at h
        split at h
        · simp at h
        · simp only [Option.some.injEq, Prod.mk.injEq] at h
          obtain ⟨rfl, rfl⟩ := h
          exact bufOk_bufSet _ hb hlt
      · simp at h
      · rename_i rest hbits
        split at h
        · simp at h
        · rename_i l d1 h1
          split at h
          · simp at h
          · rename_i r d2 h2
            simp only [Option.some.injEq, Prod.mk.injEq] at h
            obtain ⟨rfl, rfl⟩ := h
            have hd1 : ({ d with bits := rest, cnt := d.cnt + 1 } : DeserState).cnt ≤ maxNodes := by
              simp only [maxNodes]; omega
            have g1 := ih hd1 h1 hb
            have g2 := ih (deserNode_some hd1 h1).2.1 h2 g1
            exact bufOk_bufSet _ g2 hlt

/-- Everything the body of TS_DESERIALIZE can do when it ends. -/
theorem deserializeTree_ok_iff {s t : State} : deserializeTree s = .ok t ↔
    ∃ d, deserNode walkFuel { bits := headerBits s, cnt := 0, seen := [], nodes := s.node } =
        some (0, d) ∧ d.bits = [] ∧
      t = { s with
        node := d.nodes, root := 0, nnodes := d.cnt, treeValid := true, ctValid := false
        decCur := 0 } := by
  unfold deserializeTree
  constructor
  · intro h
    split at h
    · rename_i r d hd
      split at h
      · rename_i hb
        have := (deserNode_some (by simp [maxNodes]) hd).1
        simp only at this
        subst this
        simp only [Except.ok.injEq] at h
        exact ⟨d, hd, hb, h.symm⟩
      · simp at h
    · simp at h
  · rintro ⟨d, hd, hb, rfl⟩
    simp [hd, hb]

theorem deserializeTree_error {s : State} {e : Stop} (h : deserializeTree s = .error e) :
    e = .raise .corruptHeader := by
  unfold deserializeTree at h
  split at h
  · split at h <;> simp_all
  · simp_all

theorem deserializeTree_arrays {s t : State} (h : ArraysOk s) (hb : deserializeTree s = .ok t) :
    ArraysOk t := by
  obtain ⟨d, hd, -, rfl⟩ := deserializeTree_ok_iff.mp hb
  exact ⟨h.1, deserNode_bufOk (by simp [maxNodes]) hd h.2.1, h.2.2⟩

end Sys2Proof.Machine
end

