-- ==== Sys2Proof/Laws/Order.lean ====
section
/-!
SUPPORT. The order of the merges of TB_BUILD (42_tree_builder.md R97 to R99): what the merge loop keeps
of the keys, that it reads no entry but those below `next`, and what the order says of the depths of
the tree (R103).
-/

namespace Sys2Proof.Machine

/-! ### The order of the keys -/

@[simp] theorem keyLess_irrefl (nodes : Buf Node) (i : Nat) : keyLess nodes i i = false := by
  simp [keyLess]

theorem keyLess_trans {nodes : Buf Node} {i j k : Nat} (h1 : keyLess nodes i j = true)
    (h2 : keyLess nodes j k = true) : keyLess nodes i k = true := by
  rw [keyLess_iff] at *
  omega

theorem keyLess_total {nodes : Buf Node} {i j : Nat} (h : keyLess nodes i j = false) :
    i = j ∨ keyLess nodes j i = true := by
  rw [Bool.eq_false_iff, Ne, keyLess_iff] at h
  rw [keyLess_iff]
  omega

theorem keyLess_congr {nodes nodes' : Buf Node} {i j : Nat} (hi : arenaAt nodes' i = arenaAt nodes i)
    (hj : arenaAt nodes' j = arenaAt nodes j) : keyLess nodes' i j = keyLess nodes i j := by
  simp only [keyLess, hi, hj]

/-- The element extracted has a smaller key than every element that is left. -/
theorem extractLeast_less {nodes : Buf Node} {m : Nat} {q : List Nat} (hn : (m :: q).Nodup) :
    ∀ j ∈ (extractLeast nodes m q).2, keyLess nodes (extractLeast nodes m q).1 j = true := by
  intro j hj
  have hne : j ≠ leastKey nodes m q := fun h => by
    subst h
    exact (List.Nodup.not_mem_erase hn) hj
  exact (keyLess_total (leastKey_least nodes m q j (List.mem_of_mem_erase hj))).resolve_left hne

/-! ### What the merges keep -/

/-- The Internal nodes `first .. next - 1` were made in the order of the keys, and every element of the
set `q` has a greater key than any child so far. -/
structure Ordered (first : Nat) (nodes : Buf Node) (q : List Nat) (next : Nat) : Prop where
  nodup : q.Nodup
  below : ∀ i ∈ q, i < next
  pos : ∀ i < next, 0 < (arenaAt nodes i).weight
  kind : ∀ k, first ≤ k → k < next → (arenaAt nodes k).kind = .internal
  children : ∀ k, first ≤ k → k < next → (arenaAt nodes k).left < k ∧ (arenaAt nodes k).right < k ∧
    (arenaAt nodes k).weight = (arenaAt nodes (arenaAt nodes k).left).weight +
      (arenaAt nodes (arenaAt nodes k).right).weight
  pair : ∀ k, first ≤ k → k < next →
    keyLess nodes (arenaAt nodes k).left (arenaAt nodes k).right = true
  merges : ∀ k k', first ≤ k → k < k' → k' < next →
    keyLess nodes (arenaAt nodes k).right (arenaAt nodes k').left = true
  queue : ∀ k, first ≤ k → k < next → ∀ j ∈ q, keyLess nodes (arenaAt nodes k).right j = true

/-- One merge keeps the order. -/
theorem Ordered.turn {first : Nat} {nodes : Buf Node} {q : List Nat} {next a b : Nat} {q1 : List Nat}
    (h : Ordered first nodes q next) (hp : q.Perm (a :: b :: q1))
    (ha : ∀ j ∈ b :: q1, keyLess nodes a j = true) (hb : ∀ j ∈ q1, keyLess nodes b j = true) :
    Ordered first
      (bufSet nodes next (internalNode ((arenaAt nodes a).weight + (arenaAt nodes b).weight) a b))
      (q1 ++ [next]) (next + 1) := by
  have hmem : ∀ j ∈ a :: b :: q1, j ∈ q := fun j hj => hp.mem_iff.mpr hj
  have la := h.below a (hmem a (by simp))
  have lb := h.below b (hmem b (by simp))
  have hq1 : ∀ j ∈ q1, j < next := fun j hj => h.below j (hmem j (by simp [hj]))
  have hnd := hp.nodup_iff.mp h.nodup
  simp only [List.nodup_cons] at hnd
  generalize hN : bufSet nodes next
    (internalNode ((arenaAt nodes a).weight + (arenaAt nodes b).weight) a b) = N
  have hold : ∀ i, i < next → arenaAt N i = arenaAt nodes i := fun i hi => by
    rw [← hN]; exact bufGet_bufSet_other _ _ _ (by omega)
  have hnew : arenaAt N next =
      internalNode ((arenaAt nodes a).weight + (arenaAt nodes b).weight) a b := by
    rw [← hN]; exact bufGet_bufSet_same ..
  have hk : ∀ i j, i < next → j < next → keyLess N i j = keyLess nodes i j := fun i j hi hj =>
    keyLess_congr (hold i hi) (hold j hj)
  have hc := h.children
  refine ⟨?_, ?_, ?_, ?_, ?_, ?_, ?_, ?_⟩
  · rw [List.nodup_append]
    refine ⟨hnd.2.2, by simp, ?_⟩
    intro x hx y hy
    have := hq1 x hx
    simp only [List.mem_singleton] at hy
    omega
  · intro i hi
    rcases List.mem_append.mp hi with hi | hi
    · exact Nat.lt_succ_of_lt (hq1 i hi)
    · simp only [List.mem_singleton] at hi; omega
  · intro i hi
    by_cases hin : i = next
    · subst hin
      rw [hnew]
      have := h.pos a la
      simp only [internalNode]
      omega
    · rw [hold i (by omega)]; exact h.pos i (by omega)
  · intro k hk1 hk2
    by_cases hkn : k = next
    · subst hkn; rw [hnew]; rfl
    · rw [hold k (by omega)]; exact h.kind k hk1 (by omega)
  · intro k hk1 hk2
    by_cases hkn : k = next
    · subst hkn; rw [hnew]
      simp only [internalNode, hold a la, hold b lb]
      exact ⟨la, lb, trivial⟩
    · obtain ⟨c1, c2, c3⟩ := hc k hk1 (by omega)
      rw [hold k (by omega), hold _ (by omega), hold _ (by omega)]
      exact ⟨c1, c2, c3⟩
  · intro k hk1 hk2
    by_cases hkn : k = next
    · subst hkn; rw [hnew]
      simp only [internalNode, hk a b la lb]
      exact ha b (by simp)
    · obtain ⟨c1, c2, -⟩ := hc k hk1 (by omega)
      rw [hold k (by omega), hk _ _ (by omega) (by omega)]
      exact h.pair k hk1 (by omega)
  · intro k k' hk1 hkk hk2
    obtain ⟨c1, c2, -⟩ := hc k hk1 (by omega)
    by_cases hkn : k' = next
    · subst hkn
      rw [hold k (by omega), hnew]
      simp only [internalNode, hk _ a (Nat.lt_trans c2 hkk) la]
      exact h.queue k hk1 hkk a (hmem a (by simp))
    · obtain ⟨d1, d2, -⟩ := hc k' (by omega) (by omega)
      rw [hold k (by omega), hold k' (by omega), hk _ _ (by omega) (by omega)]
      exact h.merges k k' hk1 hkk (by omega)
  · intro k hk1 hk2 j hj
    have key : ∀ r, r < next → (r = b ∨ keyLess nodes r b = true) → keyLess N r j = true := by
      intro r hr hrb
      rcases List.mem_append.mp hj with hj | hj
      · rw [hk r j hr (hq1 j hj)]
        rcases hrb with rfl | hrb
        · exact hb j hj
        · exact keyLess_trans hrb (hb j hj)
      · simp only [List.mem_singleton] at hj
        subst hj
        rw [keyLess_iff, hold r hr, hnew]
        have := h.pos a la
        rcases hrb with rfl | hrb
        · simp only [internalNode]; omega
        · rw [keyLess_iff] at hrb
          simp only [internalNode]; omega
    by_cases hkn : k = next
    · subst hkn; rw [hnew]
      exact key b lb (.inl rfl)
    · obtain ⟨c1, c2, -⟩ := hc k hk1 (by omega)
      rw [hold k (by omega)]
      exact key _ (by omega) (.inr (h.queue k hk1 (by omega) b (hmem b (by simp))))

/-- The merge loop keeps the order. -/
theorem mergeLoop_ordered {first fuel : Nat} {nodes nodes' : Buf Node} {q q' : List Nat}
    {next next' : Nat} (h : Ordered first nodes q next)
    (hm : mergeLoop fuel nodes q next = (nodes', q', next')) : Ordered first nodes' q' next' := by
  induction fuel generalizing nodes q next with
  | zero => cases hm; exact h
  | succ fuel ih =>
    match q, h, hm with
    | [], h, hm => cases hm; exact h
    | [r], h, hm => cases hm; exact h
    | m :: m' :: q, h, hm =>
      have p1 := extractLeast_perm nodes m (m' :: q)
      have o1 := extractLeast_less (nodes := nodes) h.nodup
      rw [mergeLoop] at hm
      rcases hab : extractLeast nodes m (m' :: q) with ⟨a, r⟩
      rw [hab] at p1 o1 hm
      match r, p1, o1, hm with
      | [], p1, _, _ => exact absurd p1.length_eq (by simp)
      | m1 :: q1, p1, o1, hm =>
        have p2 := extractLeast_perm nodes m1 q1
        have hn1 := (List.nodup_cons.mp (p1.nodup_iff.mp h.nodup)).2
        have o2 := extractLeast_less (nodes := nodes) hn1
        rcases hb : extractLeast nodes m1 q1 with ⟨b, q2⟩
        rw [hb] at p2 o2
        simp only [hb] at hm
        refine ih (h.turn (p1.trans (p2.cons a)) ?_ o2) hm
        intro j hj
        exact o1 j (p2.mem_iff.mpr hj)

/-! ### What the merges read -/

theorem leastKey_congr {nodes nodes' : Buf Node} {m : Nat} {q : List Nat}
    (h : ∀ i ∈ m :: q, arenaAt nodes' i = arenaAt nodes i) :
    leastKey nodes' m q = leastKey nodes m q := by
  induction q generalizing m with
  | nil => rfl
  | cons j q ih =>
    rw [leastKey, leastKey, keyLess_congr (h j (by simp)) (h m (by simp)),
      ih (fun i hi => h i (by rcases List.mem_cons.mp hi with rfl | hi <;> simp [*])),
      ih (fun i hi => h i (by rcases List.mem_cons.mp hi with rfl | hi <;> simp [*]))]

/-- Two arenas that agree below `next` give the same merges. -/
theorem mergeLoop_congr {fuel : Nat} {nodes nodes' : Buf Node} {q : List Nat} {next : Nat}
    (hq : ∀ i ∈ q, i < next) (h : ∀ i < next, arenaAt nodes' i = arenaAt nodes i) :
    (mergeLoop fuel nodes' q next).2 = (mergeLoop fuel nodes q next).2 ∧
      ∀ i < (mergeLoop fuel nodes q next).2.2,
        arenaAt (mergeLoop fuel nodes' q next).1 i = arenaAt (mergeLoop fuel nodes q next).1 i := by
  induction fuel generalizing nodes nodes' q next with
  | zero => exact ⟨rfl, h⟩
  | succ fuel ih =>
    match q, hq with
    | [], _ => exact ⟨rfl, h⟩
    | [r], _ => exact ⟨rfl, h⟩
    | m :: m' :: q, hq =>
      have e1 : extractLeast nodes' m (m' :: q) = extractLeast nodes m (m' :: q) := by
        simp only [extractLeast, leastKey_congr fun i hi => h i (hq i hi)]
      have p1 := extractLeast_perm nodes m (m' :: q)
      simp only [mergeLoop, e1]
      rcases hab : extractLeast nodes m (m' :: q) with ⟨a, r⟩
      rw [hab] at p1
      match r, p1 with
      | [], p1 => exact absurd p1.length_eq (by simp)
      | m1 :: q1, p1 =>
        have hb1 : ∀ i ∈ a :: m1 :: q1, i < next := fun i hi => hq i (p1.mem_iff.mpr hi)
        have e2 : extractLeast nodes' m1 q1 = extractLeast nodes m1 q1 := by
          simp only [extractLeast, leastKey_congr fun i hi => h i (hb1 i (List.mem_cons_of_mem _ hi))]
        have p2 := extractLeast_perm nodes m1 q1
        simp only [e2]
        rcases hb : extractLeast nodes m1 q1 with ⟨b, q2⟩
        rw [hb] at p2
        have hb2 : ∀ i ∈ b :: q2, i < next := fun i hi =>
          hb1 i (List.mem_cons_of_mem _ (p2.mem_iff.mpr hi))
        rw [h a (hb1 a (by simp)), h b (hb2 b (by simp))]
        refine ih ?_ ?_
        · intro i hi
          rcases List.mem_append.mp hi with hi | hi
          · exact Nat.lt_succ_of_lt (hb2 i (by simp [hi]))
          · simp only [List.mem_singleton] at hi; omega
        · intro i hi
          by_cases hin : i = next
          · subst hin; simp only [arenaAt, bufGet_bufSet_same]
          · simp only [arenaAt]
            rw [bufGet_bufSet_other _ _ _ hin, bufGet_bufSet_other _ _ _ hin]
            exact h i (by omega)

/-- The seeding loop depends on the counts alone. -/
theorem seedLeaves_congr {freq freq' : Nat → Nat} (nodes nodes' : Buf Node)
    (h : ∀ x < 256, freq' x = freq x) :
    (seedLeaves freq' (List.range 256) 0 nodes').1 = (seedLeaves freq (List.range 256) 0 nodes).1 ∧
      ∀ i < (seedLeaves freq (List.range 256) 0 nodes).1,
        arenaAt (seedLeaves freq' (List.range 256) 0 nodes').2 i =
          arenaAt (seedLeaves freq (List.range 256) 0 nodes).2 i := by
  have hp : present freq' = present freq :=
    List.filter_congr fun x hx => by rw [h x (List.mem_range.mp hx)]
  obtain ⟨a1, a2, -⟩ := seedLeaves_spec freq (List.range 256) 0 nodes
  obtain ⟨b1, b2, -⟩ := seedLeaves_spec freq' (List.range 256) 0 nodes'
  rw [a1, b1]
  refine ⟨congrArg (0 + List.length ·) hp, fun i hi => ?_⟩
  have hi' : i < (present freq).length := by simpa [present] using hi
  have c1 := a2 i hi'
  have c2 := b2 i (by show i < (present freq').length; rw [hp]; exact hi')
  rw [Nat.zero_add] at c1 c2
  rw [c1, c2]
  have e : (present freq')[i]'(by rw [hp]; exact hi') = (present freq)[i] := by simp only [hp]
  have ef : freq' ((present freq)[i]) = freq ((present freq)[i]) :=
    h _ (present_lt (List.getElem_mem hi')).1
  exact (congrArg (fun x => leafNode (BitVec.ofNat 8 x) (freq' x)) e).trans
    (congrArg (leafNode (BitVec.ofNat 8 ((present freq)[i]))) ef)

/-! ### The body of TB_BUILD -/

/-- The Leaves the builder starts from are in order. -/
theorem seed_ordered (freq : Nat → Nat) (nodes : Buf Node) :
    Ordered (present freq).length (seedLeaves freq (List.range 256) 0 nodes).2
      (List.range (present freq).length) (present freq).length := by
  obtain ⟨-, h2, -⟩ := seedLeaves_spec freq (List.range 256) 0 nodes
  refine ⟨List.nodup_range, fun i hi => List.mem_range.mp hi, ?_, ?_, ?_, ?_, ?_, ?_⟩
  · intro i hi
    have := h2 i hi
    rw [Nat.zero_add] at this
    rw [this]
    exact (present_lt (List.getElem_mem hi)).2
  all_goals intros; omega

/-- What the body of TB_BUILD runs. -/
theorem buildTree_ok_iff {s t : State} : buildTree s = .ok t ↔
    ∃ nodes r next, mergeLoop (seedLeaves (freqAt s) (List.range 256) 0 s.node).1
        (seedLeaves (freqAt s) (List.range 256) 0 s.node).2
        (List.range (seedLeaves (freqAt s) (List.range 256) 0 s.node).1)
        (seedLeaves (freqAt s) (List.range 256) 0 s.node).1 = (nodes, [r], next) ∧
      t = { s with
        node := nodes, root := r, nnodes := next
        treeValid := true, ctValid := false, ftLock := true, decCur := r } := by
  rcases hse : seedLeaves (freqAt s) (List.range 256) 0 s.node with ⟨n, leaves⟩
  simp only [buildTree, hse]
  rcases hm : mergeLoop n leaves (List.range n) n with ⟨nodes, q, next⟩
  match q with
  | [] => simp
  | [r] =>
    simp only [Except.ok.injEq, Prod.mk.injEq, List.cons.injEq, and_true]
    constructor
    · rintro rfl; exact ⟨nodes, r, next, ⟨rfl, rfl, rfl⟩, rfl⟩
    · rintro ⟨_, _, _, ⟨rfl, rfl, rfl⟩, rfl⟩; rfl
  | _ :: _ :: _ => simp

/-- The tree of TB_BUILD is made in the order of the keys. -/
theorem buildTree_ordered {s t : State} (h : buildTree s = .ok t) :
    Ordered (present (freqAt s)).length t.node [t.root] t.nnodes := by
  obtain ⟨nodes, r, next, hm, rfl⟩ := buildTree_ok_iff.mp h
  have h1 := (seedLeaves_spec (freqAt s) (List.range 256) 0 s.node).1
  rw [Nat.zero_add] at h1
  have ho := seed_ordered (freqAt s) s.node
  rw [h1] at hm
  exact mergeLoop_ordered ho hm

/-- The tree of TB_BUILD depends on the counts alone. -/
theorem buildTree_congr {s s' t t' : State} (hf : ∀ x < 256, freqAt s' x = freqAt s x)
    (h : buildTree s = .ok t) (h' : buildTree s' = .ok t') :
    t'.root = t.root ∧ t'.nnodes = t.nnodes ∧ ∀ k < t.nnodes, nodeAt t' k = nodeAt t k := by
  obtain ⟨nodes, r, next, hm, rfl⟩ := buildTree_ok_iff.mp h
  obtain ⟨nodes', r', next', hm', rfl⟩ := buildTree_ok_iff.mp h'
  obtain ⟨e1, e2⟩ := seedLeaves_congr s.node s'.node hf
  rw [e1] at hm'
  obtain ⟨g1, g2⟩ := mergeLoop_congr
    (fuel := (seedLeaves (freqAt s) (List.range 256) 0 s.node).1)
    (q := List.range (seedLeaves (freqAt s) (List.range 256) 0 s.node).1)
    (fun i hi => List.mem_range.mp hi) e2
  rw [hm, hm'] at g1 g2
  simp only [Prod.mk.injEq, List.cons.injEq, and_true] at g1 g2
  exact ⟨g1.1, g1.2, g2⟩

/-! ### Depths -/

/-- Node `i` stands `d` levels below node `root`. -/
inductive DepthIn (nodes : Buf Node) (root : Nat) : Nat → Nat → Prop where
  | root : DepthIn nodes root root 0
  | child {k d : Nat} (h : DepthIn nodes root k d) (hk : (arenaAt nodes k).kind = .internal)
      (b : Bool) : DepthIn nodes root (childOf (arenaAt nodes k) b) (d + 1)

/-- Every root-to-leaf path of a tree ends at a Leaf of that depth. -/
theorem depthIn_of_path {nodes : Buf Node} {root d : Nat} {u : CodeTree} {p : Byte × Bits}
    (hu : treeIn nodes u = true) (hd : DepthIn nodes root u.index d) (hp : p ∈ u.erase.paths) :
    ∃ i, DepthIn nodes root i (d + p.2.length) ∧ i ∈ u.indices ∧ (arenaAt nodes i).kind = .leaf ∧
      (arenaAt nodes i).sym = p.1 := by
  induction u generalizing d p with
  | leaf i x =>
    simp only [CodeTree.erase, SymTree.paths, List.mem_singleton] at hp
    subst hp
    obtain ⟨h1, h2⟩ := treeIn_leaf.mp hu
    exact ⟨i, hd, by simp [CodeTree.indices], h1, h2⟩
  | node i l r hl hr =>
    obtain ⟨h1, h2, h3, h4, h5⟩ := treeIn_node.mp hu
    simp only [CodeTree.erase, SymTree.paths, List.mem_append, List.mem_map] at hp
    have hc := DepthIn.child hd h1
    rcases hp with ⟨q, hq, rfl⟩ | ⟨q, hq, rfl⟩
    · have hcl : DepthIn nodes root l.index (d + 1) := by
        have := hc false
        rwa [CodeTree.index_node, childOf, h2] at this
      obtain ⟨j, g1, g2, g3⟩ := hl h4 hcl hq
      refine ⟨j, ?_, by simp [CodeTree.indices, g2], g3⟩
      rw [List.length_cons, show d + (q.2.length + 1) = d + 1 + q.2.length by omega]
      exact g1
    · have hcr : DepthIn nodes root r.index (d + 1) := by
        have := hc true
        rwa [CodeTree.index_node, childOf, h3] at this
      obtain ⟨j, g1, g2, g3⟩ := hr h5 hcr hq
      refine ⟨j, ?_, by simp [CodeTree.indices, g2], g3⟩
      rw [List.length_cons, show d + (q.2.length + 1) = d + 1 + q.2.length by omega]
      exact g1

/-- In an arena made in the order of the keys, over leaves below `first`, a node with a greater key is
nowhere deeper. -/
theorem Ordered.depth_le {first : Nat} {nodes : Buf Node} {q : List Nat} {next root i j d e : Nat}
    (h : Ordered first nodes q next) (hl : ∀ k < first, (arenaAt nodes k).kind = .leaf)
    (hr : root < next) (hi : DepthIn nodes root i d) (hj : DepthIn nodes root j e)
    (hij : i = j ∨ keyLess nodes i j = true) : e ≤ d := by
  have hint : ∀ k, (arenaAt nodes k).kind = .internal → first ≤ k := fun k hk => by
    by_cases hf : first ≤ k
    · exact hf
    · rw [hl k (by omega)] at hk; cases hk
  have hb : ∀ {k d}, DepthIn nodes root k d → k < next := by
    intro k d hd
    induction hd with
    | root => exact hr
    | child _ hk b ih =>
      obtain ⟨c1, c2, -⟩ := h.children _ (hint _ hk) ih
      cases b <;> simp only [childOf, Bool.false_eq_true, if_false, if_true] <;> omega
  have hw : ∀ {k d}, DepthIn nodes root k d → (arenaAt nodes k).weight ≤ (arenaAt nodes root).weight ∧
      (d ≠ 0 → (arenaAt nodes k).weight < (arenaAt nodes root).weight) := by
    intro k d hd
    induction hd with
    | root => exact ⟨Nat.le_refl _, fun h => absurd rfl h⟩
    | child hk0 hk b ih =>
      rename_i k d
      have hkn := hb hk0
      obtain ⟨c1, c2, c3⟩ := h.children _ (hint _ hk) hkn
      have p1 := h.pos _ (Nat.lt_trans c1 hkn)
      have p2 := h.pos _ (Nat.lt_trans c2 hkn)
      cases b <;> simp only [childOf, Bool.false_eq_true, if_false, if_true] <;> omega
  have hpar : ∀ k k', first ≤ k → first ≤ k' → k < next → k' < next → ∀ b b',
      (childOf (arenaAt nodes k) b = childOf (arenaAt nodes k') b' ∨
        keyLess nodes (childOf (arenaAt nodes k) b) (childOf (arenaAt nodes k') b') = true) →
      k = k' ∨ keyLess nodes k k' = true := by
    intro k k' f1 f2 n1 n2 b b' hch
    have a1 := h.pair k f1 n1
    have a2 := h.pair k' f2 n2
    rw [keyLess_iff] at a1 a2
    rcases Nat.lt_trichotomy k k' with hlt | heq | hgt
    · right
      have m := h.merges k k' f1 hlt n2
      have c1 := (h.children k f1 n1).2.2
      have c2 := (h.children k' f2 n2).2.2
      rw [keyLess_iff] at m ⊢
      omega
    · exact .inl heq
    · exfalso
      have m := h.merges k' k f2 hgt n1
      have hx : childOf (arenaAt nodes k) b = (arenaAt nodes k).left ∨
          keyLess nodes (arenaAt nodes k).left (childOf (arenaAt nodes k) b) = true := by
        cases b
        · exact .inl rfl
        · exact .inr (h.pair k f1 n1)
      have hy : childOf (arenaAt nodes k') b' = (arenaAt nodes k').right ∨
          keyLess nodes (childOf (arenaAt nodes k') b') (arenaAt nodes k').right = true := by
        cases b'
        · exact .inr (h.pair k' f2 n2)
        · exact .inl rfl
      have hyx : keyLess nodes (childOf (arenaAt nodes k') b') (childOf (arenaAt nodes k) b) = true := by
        rcases hx with hx | hx <;> rcases hy with hy | hy
        · rw [hx, hy]; exact m
        · rw [hx]; exact keyLess_trans hy m
        · rw [hy]; exact keyLess_trans m hx
        · exact keyLess_trans (keyLess_trans hy m) hx
      rcases hch with hch | hch
      · rw [hch, keyLess_irrefl] at hyx; cases hyx
      · have := keyLess_trans hch hyx
        rw [keyLess_irrefl] at this; cases this
  induction hi generalizing j e with
  | root =>
    have w := hw hj
    by_cases he : e = 0
    · omega
    · have := w.2 he
      rcases hij with rfl | hij
      · omega
      · rw [keyLess_iff] at hij; omega
  | child hk0 hk b ih =>
    cases hj with
    | root => omega
    | child hk0' hk' b' =>
      have := ih hk0' (hpar _ _ (hint _ hk) (hint _ hk') (hb hk0) (hb hk0') b b' hij)
      omega

end Sys2Proof.Machine
end

