-- ==== Sys2Proof/Laws/Container.lean ====
section
/-!
SUPPORT. What the bodies of the container commands give: PACK, UNPACK, COMPRESS and DECOMPRESS
(47_container.md R129 to R135).
-/

namespace Sys2Proof.Machine

/-! ### The input and the artifact -/

@[simp] theorem inputBytes_length (s : State) : (inputBytes s).length = s.inLen := by
  simp [inputBytes, ibufSlice]

/-- A slice of IBUF within the input is a slice of the input. -/
theorem ibufSlice_input {s : State} {a m : Nat} (h : a + m ≤ s.inLen) :
    ibufSlice s a m = ((inputBytes s).drop a).take m := by
  unfold inputBytes ibufSlice
  apply List.ext_getElem
  · simp only [bufSlice_length, List.length_take, List.length_drop]; omega
  · intro i h1 h2
    simp

theorem artifact_length (header content : Bits) :
    (artifact header content).length = 6 + ceil8 header.length + ceil8 content.length := by
  simp only [artifact, List.length_append, bytes16_length, bytes32_length, packBits_length]

/-! ### PACK -/

theorem packBody_ok_iff {s t : State} : packBody s = .ok t ↔
    6 + ceil8 s.hbits + ceil8 s.cbits ≤ s.obufBytes ∧ t = { s with
      obuf := bufWrite s.obuf 0 (artifact (headerBits s) (contentBits s))
      outLen := 6 + ceil8 s.hbits + ceil8 s.cbits } := by
  unfold packBody
  split
  · simp only [reduceCtorEq, false_iff]; omega
  · simp only [Except.ok.injEq, eq_comm (b := t)]
    constructor
    · rintro rfl; exact ⟨by omega, rfl⟩
    · rintro ⟨-, rfl⟩; rfl

theorem packBody_error {s : State} {e : Stop} (h : packBody s = .error e) :
    e = .raise .limit ∧ s.obufBytes < 6 + ceil8 s.hbits + ceil8 s.cbits := by
  unfold packBody at h
  split at h
  · cases h; exact ⟨rfl, by omega⟩
  · cases h

@[simp] theorem headerBits_length (s : State) : (headerBits s).length = s.hbits := by
  simp [headerBits]

/-- The output after PACK is the artifact. -/
theorem outputBytes_pack (s : State) :
    outputBytes { s with
      obuf := bufWrite s.obuf 0 (artifact (headerBits s) (contentBits s))
      outLen := 6 + ceil8 s.hbits + ceil8 s.cbits } = artifact (headerBits s) (contentBits s) := by
  have h := artifact_length (headerBits s) (contentBits s)
  rw [headerBits_length, contentBits_length] at h
  show bufSlice Config.freeByte (bufWrite s.obuf 0 _) 0 (6 + ceil8 s.hbits + ceil8 s.cbits) = _
  rw [← h]
  exact bufSlice_bufWrite _ _ _ _

/-- The bytes of the packed header and of the packed content, bit by bit (30_encoding.md R78). -/
theorem packBody_bits (s : State) {t : State}
    (ht : t.obuf = bufWrite s.obuf 0 (artifact (headerBits s) (contentBits s))) :
    (∀ k < ceil8 s.hbits, ∀ i < 8, (obufAt t (6 + k)).getLsbD (7 - i) =
      (decide (8 * k + i < s.hbits) && hdrAt s (8 * k + i))) ∧
    (∀ k < ceil8 s.cbits, ∀ i < 8, (obufAt t (6 + ceil8 s.hbits + k)).getLsbD (7 - i) =
      (decide (8 * k + i < s.cbits) && cbufAt s (8 * k + i))) := by
  have hl := artifact_length (headerBits s) (contentBits s)
  rw [headerBits_length, contentBits_length] at hl
  have slice : ∀ (free : Nat → Nat → Bool) (b : Buf Bool) n j,
      (bufSlice free b 0 n).getD j false = (decide (j < n) && bufGet free b j) := by
    intro free b n j
    by_cases hj : j < n
    · rw [List.getD_eq_getElem _ _ (by simpa using hj)]
      simp [hj]
    · rw [List.getD_eq_default _ _ (by simpa using hj)]
      simp [hj]
  have at' : ∀ a, (ha : a < (artifact (headerBits s) (contentBits s)).length) →
      obufAt t a = (artifact (headerBits s) (contentBits s))[a] := by
    intro a ha
    rw [obufAt, ht, bufGet_bufWrite, dif_pos ⟨Nat.zero_le _, by omega⟩]
    rfl
  constructor
  · intro k hk i hi
    have e : (artifact (headerBits s) (contentBits s))[6 + k]'(by omega) =
        packByte (headerBits s) k := by
      simp only [artifact]
      rw [List.getElem_append_left (by simp; omega), List.getElem_append_right (by simp)]
      simp [packBits]
    rw [at' _ (by omega), e, packByte_bit _ _ hi]
    exact slice ..
  · intro k hk i hi
    have e : (artifact (headerBits s) (contentBits s))[6 + ceil8 s.hbits + k]'(by omega) =
        packByte (contentBits s) k := by
      simp only [artifact]
      rw [List.getElem_append_right (by simp; omega)]
      simp only [packBits, List.getElem_map, List.getElem_range]
      congr 1
      simp
      omega
    rw [at' _ (by omega), e, packByte_bit _ _ hi]
    exact slice ..

/-! ### UNPACK -/

/-- The fields of an input that is laid out as a container. -/
theorem fields_of_input {s : State} {h n : Nat} {hb cb : List Byte}
    (hi : inputBytes s = bytes16 h ++ bytes32 n ++ hb ++ cb) (hh : h < 2 ^ 16) (hn : n < 2 ^ 32) :
    fieldH s = h ∧ fieldN s = n ∧ s.inLen = 6 + hb.length + cb.length ∧
      ibufSlice s 6 hb.length = hb ∧ ibufSlice s (6 + hb.length) cb.length = cb := by
  have hl : s.inLen = 6 + hb.length + cb.length := by
    have := congrArg List.length hi
    simp only [inputBytes_length, List.length_append, bytes16_length, bytes32_length] at this
    omega
  refine ⟨?_, ?_, hl, ?_, ?_⟩
  · rw [fieldH, ibufSlice_input (by omega), hi]
    exact natOfBytes_bytes16 hh
  · rw [fieldN, ibufSlice_input (by omega), hi]
    exact natOfBytes_bytes32 hn
  · rw [ibufSlice_input (by omega), hi]
    simp [bytes16, bytes32]
  · rw [ibufSlice_input (by omega), hi]
    simp only [bytes16, bytes32, List.cons_append, List.nil_append]
    have : List.drop (6 + hb.length) (BitVec.ofNat 8 (h / 256) :: BitVec.ofNat 8 h ::
        BitVec.ofNat 8 (n / 16777216) :: BitVec.ofNat 8 (n / 65536) :: BitVec.ofNat 8 (n / 256) ::
        BitVec.ofNat 8 n :: (hb ++ cb)) = cb := by
      rw [Nat.add_comm]
      simp
    rw [this, List.take_length]

/-- What UNPACK's assignments leave in HDR and CBUF. -/
theorem unpackFields_bits {s : State} {h n : Nat} :
    headerBits (unpackFields s h n) = unpackBits (ibufSlice s 6 (ceil8 h)) h ∧
      contentBits (unpackFields s h n) = unpackBits (ibufSlice s (6 + ceil8 h) (ceil8 n)) n := by
  have len : ∀ a m, (unpackBits (ibufSlice s a (ceil8 m)) m).length = m := fun a m =>
    unpackBits_length (by rw [ibufSlice, bufSlice_length]; exact le_eight_ceil8 m)
  constructor
  · have := bufSlice_bufWrite Config.freeBit s.hdr 0 (unpackBits (ibufSlice s 6 (ceil8 h)) h)
    rw [len] at this
    exact this
  · have := bufSlice_bufWrite Config.freeBit s.cbuf 0
      (unpackBits (ibufSlice s (6 + ceil8 h) (ceil8 n)) n)
    rw [len] at this
    exact this

/-- An element of HDR or CBUF below its length, among its bits. -/
theorem hdrAt_of_bits {s : State} {k : Nat} (h : k < s.hbits) :
    hdrAt s k = (headerBits s).getD k false := by
  rw [List.getD_eq_getElem _ _ (by rw [headerBits_length]; exact h)]
  simp [headerBits, hdrAt]

theorem cbufAt_of_bits {s : State} {k : Nat} (h : k < s.cbits) :
    cbufAt s k = (contentBits s).getD k false := by
  rw [List.getD_eq_getElem _ _ (by rw [contentBits_length]; exact h)]
  simp [contentBits, cbufAt]

/-- What UNPACK's assignments leave of HDR and CBUF beyond the header and the content. -/
theorem unpackFields_rest (s : State) (h n : Nat) :
    (∀ k, h ≤ k → hdrAt (unpackFields s h n) k = hdrAt s k) ∧
      ∀ k, n ≤ k → cbufAt (unpackFields s h n) k = cbufAt s k := by
  have len : ∀ a m, (unpackBits (ibufSlice s a (ceil8 m)) m).length = m := fun a m =>
    unpackBits_length (by rw [ibufSlice, bufSlice_length]; exact le_eight_ceil8 m)
  constructor <;> intro k hk <;> exact bufGet_bufWrite_outside _ _ (.inr (by rw [len]; omega))

/-- Everything UNPACK's body can do. -/
theorem unpackBody_cases {s t : State} (h : unpackBody s = .ok t) :
    (s.inLen = 0 ∧ t = { s with hbits := 0, cbits := 0 }) ∨
      (s.inLen = 6 + ceil8 (fieldH s) + ceil8 (fieldN s) ∧ 1 ≤ fieldH s ∧ fieldH s ≤ 2559 ∧
        fieldN s ≤ s.cbufBits ∧ t = unpackFields s (fieldH s) (fieldN s)) := by
  unfold unpackBody hdrMaxBits at h
  repeat' split at h
  all_goals first
    | (cases h; done)
    | (cases h; exact .inl ⟨by assumption, rfl⟩)
    | (cases h; exact .inr ⟨by omega, by omega, by omega, by omega, rfl⟩)

theorem unpackBody_error {s : State} {e : Stop} (h : unpackBody s = .error e) :
    e = .raise .corruptHeader ∨ e = .raise .truncatedContent ∨ e = .raise .limit := by
  unfold unpackBody at h
  repeat' split at h
  all_goals cases h
  all_goals simp

theorem unpackBody_ok {s : State} {h n : Nat} (hh : fieldH s = h) (hn : fieldN s = n) (h1 : 1 ≤ h)
    (h2 : h ≤ 2559) (hl : s.inLen = 6 + ceil8 h + ceil8 n) (hc : n ≤ s.cbufBits) :
    unpackBody s = .ok (unpackFields s h n) := by
  unfold unpackBody hdrMaxBits
  rw [hh, hn, if_neg (by omega), if_neg (by omega), if_neg (by omega), if_neg (by omega),
    if_neg (by omega), if_neg (by omega), if_neg (by omega)]

/-- UNPACK on a container with consistent fields, whatever its pad bits are. -/
theorem unpackBody_input {s : State} {h n : Nat} {hb cb : List Byte}
    (hi : inputBytes s = bytes16 h ++ bytes32 n ++ hb ++ cb) (lh : hb.length = ceil8 h)
    (lc : cb.length = ceil8 n) (h1 : 1 ≤ h) (h2 : h ≤ 2559) (hn : n < 2 ^ 32) (hc : n ≤ s.cbufBits) :
    unpackBody s = .ok (unpackFields s h n) ∧ headerBits (unpackFields s h n) = unpackBits hb h ∧
      contentBits (unpackFields s h n) = unpackBits cb n := by
  obtain ⟨f1, f2, f3, f4, f5⟩ := fields_of_input hi (by omega) hn
  rw [lh] at f3 f4 f5
  rw [lc] at f3 f5
  exact ⟨unpackBody_ok f1 f2 h1 h2 f3 hc, by rw [unpackFields_bits.1, f4],
    by rw [unpackFields_bits.2, f5]⟩

/-! ### COMPRESS -/

/-- A tree held under the same root by two arenas that agree on its entries is the same tree. -/
theorem treeIn_unique {nodes nodes' : Buf Node} {t t' : CodeTree} (h : treeIn nodes t = true)
    (h' : treeIn nodes' t' = true) (hi : t'.index = t.index)
    (he : ∀ i ∈ t.indices, arenaAt nodes' i = arenaAt nodes i) : t' = t := by
  induction t generalizing t' with
  | leaf i x =>
    obtain ⟨k1, k2⟩ := treeIn_leaf.mp h
    have e := he i (by simp [CodeTree.indices])
    cases t' with
    | leaf j y =>
      obtain ⟨-, m2⟩ := treeIn_leaf.mp h'
      have hi : j = i := hi
      subst hi
      rw [← k2, ← m2, e]
    | node j l r =>
      have m1 := (treeIn_node.mp h').1
      have hi : j = i := hi
      subst hi
      rw [e, k1] at m1
      cases m1
  | node i l r hl hr =>
    obtain ⟨k1, k2, k3, k4, k5⟩ := treeIn_node.mp h
    have e := he i (by simp [CodeTree.indices])
    cases t' with
    | leaf j y =>
      have m1 := (treeIn_leaf.mp h').1
      have hi : j = i := hi
      subst hi
      rw [e, k1] at m1
      cases m1
    | node j l' r' =>
      obtain ⟨-, m2, m3, m4, m5⟩ := treeIn_node.mp h'
      have hi : j = i := hi
      subst hi
      rw [e] at m2 m3
      rw [hl k4 m4 (by rw [← m2, k2]) (fun i hi => he i (by simp [CodeTree.indices, hi])),
        hr k5 m5 (by rw [← m3, k3]) (fun i hi => he i (by simp [CodeTree.indices, hi]))]

/-- The state of COMPRESS when the code table of its input has been derived: `s3` is `s` with the
counts of the input, the tree `tree` built from them, and its codes. -/
structure Coded (s s3 : State) (tree : CodeTree) : Prop where
  frame : s3 = { s with
    freq := s3.freq, total := s.inLen, nsym := s3.nsym, ftLock := true, treeValid := true
    ctValid := true, root := s3.root, nnodes := s3.nnodes, decCur := s3.root, node := s3.node
    codeLen := s3.codeLen, codeBits := s3.codeBits }
  exact : CountsExact s3
  holds : HoldsTree s3 tree
  symbols : ∀ x, x ∈ tree.erase.symbols ↔ x ∈ inputBytes s
  leaves : s3.nsym = tree.erase.symbols.length
  counts : ∀ x : Byte, freqAt s3 x.toNat = (inputBytes s).count x
  codes : ∀ x : Byte, codeBitsAt s3 x.toNat = tree.erase.code x ∧
    codeLenAt s3 x.toNat = (tree.erase.code x).length
  rest : ∀ k, s3.nnodes ≤ k → nodeAt s3 k = nodeAt s k
  built : ∃ s1 s2, countAll (inputBytes s) (sessionClear s) = .ok s1 ∧ buildTree s1 = .ok s2 ∧
    s3.node = s2.node ∧ s3.root = s2.root ∧ s3.nnodes = s2.nnodes

/-- COMPRESS, on a non-empty input, reaches the derived code table without an error. -/
theorem compressBody_coded {s : State} (h0 : 0 < s.inLen) (hl : s.inLen ≤ 2 ^ 32 - 1) :
    ∃ s3 tree, Coded s s3 tree ∧ compressBody s =
      thenBody (codeAll (inputBytes s) { s3 with cbits := 0 }) fun s4 =>
        thenBody (serializeTree s4) packBody := by
  obtain ⟨s1, h1⟩ := countAll_ends (bs := inputBytes s) (s := sessionClear s)
    (by show 0 + (inputBytes s).length ≤ _; rw [inputBytes_length]; omega)
  have hf := countAll_frame h1
  obtain ⟨ht, hc⟩ := countAll_counts h1
  have hex := countAll_keeps_counts h1 (sessionClear_counts s)
  have hz : ∀ x, freqAt (sessionClear s) x = 0 := fun x => freqAt_nil rfl x
  have ht' : s1.total = s.inLen := by
    rw [ht, inputBytes_length]; exact Nat.zero_add _
  have hp := present_ne_nil hex (by omega)
  obtain ⟨fr, tot, ns, hs1⟩ : ∃ fr tot ns,
      s1 = { sessionClear s with nsym := ns, freq := fr, total := tot } := ⟨_, _, _, hf⟩
  have hto : tot = s.inLen := by rw [← ht', hs1]
  subst hto
  clear hf
  obtain ⟨nodes, tree, h2, hB⟩ := buildTree_spec hp
  obtain ⟨s2, h2, e2⟩ : ∃ s2, buildTree s1 = .ok s2 ∧ s2 = { s1 with
      node := nodes, root := tree.index, nnodes := 2 * (present (freqAt s1)).length - 1
      treeValid := true, ctValid := false, ftLock := true, decCur := tree.index } := ⟨_, h2, rfl⟩
  have n2 : s2.node = nodes := by rw [e2]
  have r2 : s2.root = tree.index := by rw [e2]
  have c2 : s2.nnodes = 2 * (present (freqAt s1)).length - 1 := by rw [e2]
  have hh := hB.holdsTree hp n2 r2 c2
  obtain ⟨s3, h3, e3⟩ : ∃ s3, deriveCodes s2 = .ok s3 ∧ s3 = { s2 with
      codeLen := writeLengths (noLengths s2.codeLen) tree.erase.codes
      codeBits := writeCodes (noCodes s2.codeBits) tree.erase.codes
      ctValid := true } :=
    ⟨_, deriveCodes_ok_iff.mpr
      ⟨_, by rw [← hh.root]; exact treeCodes_of_tree hh.arena hh.leaves.2, rfl⟩, rfl⟩
  have f3 : s3 = { s with
      freq := s3.freq, total := s.inLen, nsym := s3.nsym, ftLock := true, treeValid := true
      ctValid := true, root := s3.root, nnodes := s3.nnodes, decCur := s3.root, node := s3.node
      codeLen := s3.codeLen, codeBits := s3.codeBits } := by
    rw [e3, e2, hs1]
    rfl
  have hin : inputBytes s3 = inputBytes s := by rw [f3]; rfl
  have q3 : s3.freq = s1.freq := by rw [e3, e2]
  have qf : ∀ x, freqAt s3 x = freqAt s1 x := fun x => by simp only [freqAt, q3]
  have t3 : s3.total = s1.total := by rw [e3, e2]
  have y3 : s3.nsym = s1.nsym := by rw [e3, e2]
  have n3 : s3.node = s2.node := by rw [e3]
  have r3 : s3.root = s2.root := by rw [e3]
  have c3 : s3.nnodes = s2.nnodes := by rw [e3]
  refine ⟨s3, tree, ⟨f3, ?_, ⟨by rw [r3, r2], by rw [n3]; exact hh.arena, by rw [c3]; exact hh.once,
    hh.distinct, by rw [c3]; exact hh.count, hh.leaves⟩, ?_, ?_, ?_, ?_, ?_,
    s1, s2, h1, h2, n3, r3, c3⟩, ?_⟩
  · simp only [CountsExact, t3, y3, q3, show freqAt s3 = freqAt s1 from funext qf]
    exact hex
  · intro x
    rw [hB.mem_symbols, hc, hz, Nat.zero_add, List.count_pos_iff]
  · rw [y3, ← present_length hex, hB.symbols.length_eq, List.length_map]
  · intro x
    rw [qf, hc, hz, Nat.zero_add]
  · intro x
    rw [e3]
    exact codeTable_of_tree s2.codeLen s2.codeBits hh.distinct x
  · intro k hk
    have h4 := hB.rest k (by rw [← c2, ← c3]; exact hk)
    have h5 : nodeAt s1 k = nodeAt s k := by rw [hs1]; rfl
    rw [← h5, ← h4, ← n2, ← n3]
    rfl
  · rw [compressBody, if_neg (by omega), h1, thenBody_ok, h2, thenBody_ok, h3, thenBody_ok, hin]

/-- The tree COMPRESS builds is the one TB_BUILD builds from these counts in any state. -/
theorem Coded.built_of_counts {s s3 u v : State} {tree : CodeTree} (h : Coded s s3 tree)
    (hu : CountsAre u (inputBytes s)) (hv : buildTree u = .ok v) :
    s3.root = v.root ∧ s3.nnodes = v.nnodes ∧ ∀ k < s3.nnodes, nodeAt s3 k = nodeAt v k := by
  obtain ⟨s1, s2, a1, a2, a3, a4, a5⟩ := h.built
  have hf : ∀ x < 256, freqAt s1 x = freqAt u x := by
    intro x hx
    have e1 := (countAll_counts a1).2 (BitVec.ofNat 8 x)
    have e2 := hu.2 (BitVec.ofNat 8 x)
    rw [BitVec.toNat_ofNat, Nat.mod_eq_of_lt hx] at e1 e2
    rw [e1, e2, freqAt_nil rfl, Nat.zero_add]
  obtain ⟨g1, g2, g3⟩ := buildTree_congr hf hv a2
  refine ⟨by rw [a4, g1], by rw [a5, g2], fun k hk => ?_⟩
  have := g3 k (by omega)
  rw [← this, nodeAt, nodeAt, a3]

/-- So NODE holds the same tree in both. -/
theorem Coded.tree_of_counts {s s3 u v : State} {tree tree' : CodeTree} (h : Coded s s3 tree)
    (hu : CountsAre u (inputBytes s)) (hv : buildTree u = .ok v) (ht : HoldsTree v tree') :
    tree' = tree := by
  obtain ⟨g1, g2, g3⟩ := h.built_of_counts hu hv
  refine treeIn_unique h.holds.arena ht.arena (by rw [h.holds.root, ht.root, g1]) ?_
  intro i hi
  exact (g3 i (List.mem_range.mp (h.holds.once.mem_iff.mp hi))).symm

/-- The tree COMPRESS builds depends on the input alone. -/
theorem Coded.unique {s s' s3 s3' : State} {tree tree' : CodeTree} (h : Coded s s3 tree)
    (h' : Coded s' s3' tree') (hi : inputBytes s' = inputBytes s) : tree' = tree := by
  obtain ⟨s1, s2, a1, a2, a3, a4, a5⟩ := h.built
  obtain ⟨s1', s2', b1, b2, b3, b4, b5⟩ := h'.built
  have hz : ∀ (s : State) x, freqAt (sessionClear s) x = 0 := fun _ x => freqAt_nil rfl x
  have hf : ∀ x < 256, freqAt s1' x = freqAt s1 x := by
    intro x hx
    have e1 := (countAll_counts a1).2 (BitVec.ofNat 8 x)
    have e2 := (countAll_counts b1).2 (BitVec.ofNat 8 x)
    rw [BitVec.toNat_ofNat, Nat.mod_eq_of_lt hx] at e1 e2
    rw [e1, e2, hi, hz, hz]
  obtain ⟨g1, g2, g3⟩ := buildTree_congr hf a2 b2
  refine treeIn_unique h.holds.arena h'.holds.arena ?_ ?_
  · rw [h.holds.root, h'.holds.root, a4, b4, g1]
  · intro i hi
    have := List.mem_range.mp (h.holds.once.mem_iff.mp hi)
    rw [a3, b3]
    exact g3 i (by omega)

/-- The codes COMPRESS pushes are the codes of its tree. -/
theorem Coded.encode {s s3 : State} {tree : CodeTree} (h : Coded s s3 tree) :
    ((inputBytes s).flatMap fun b => codeOf s3 b.toNat) = tree.erase.encode (inputBytes s) := by
  rw [SymTree.encode]
  congr 1
  funext b
  rw [codeOf, (h.codes b).1, (h.codes b).2, List.take_length]

/-- The rest of COMPRESS, where the content fits CBUF and the artifact fits OBUF. -/
theorem Coded.fits {s s3 : State} {tree : CodeTree} (h : Coded s s3 tree)
    (hc : (tree.erase.encode (inputBytes s)).length ≤ s.cbufBits)
    (ho : 6 + ceil8 tree.erase.header.length + ceil8 (tree.erase.encode (inputBytes s)).length ≤
      s.obufBytes) :
    ∃ t, (thenBody (codeAll (inputBytes s) { s3 with cbits := 0 }) fun s4 =>
        thenBody (serializeTree s4) packBody) = .ok t ∧
      t = { s3 with
        cbuf := t.cbuf, cbits := (tree.erase.encode (inputBytes s)).length, hdr := t.hdr
        hbits := tree.erase.header.length, obuf := t.obuf
        outLen := 6 + ceil8 tree.erase.header.length +
          ceil8 (tree.erase.encode (inputBytes s)).length } ∧
      headerBits t = tree.erase.header ∧ contentBits t = tree.erase.encode (inputBytes s) ∧
      outputBytes t = artifact tree.erase.header (tree.erase.encode (inputBytes s)) ∧
      (∀ k, t.hbits ≤ k → hdrAt t k = hdrAt s3 k) ∧ (∀ k, t.cbits ≤ k → cbufAt t k = cbufAt s3 k) ∧
      ∀ a, t.outLen ≤ a → obufAt t a = obufAt s3 a := by
  have hcb : s3.cbufBits = s.cbufBits := by rw [h.frame]
  have hob : s3.obufBytes = s.obufBytes := by rw [h.frame]
  have hcode : ∀ b ∈ inputBytes s, codeLenAt { s3 with cbits := 0 } b.toNat ≠ 0 := by
    intro b hb
    have h1 : codeLenAt { s3 with cbits := 0 } b.toNat = _ := (h.codes b).2
    have h2 := (SymTree.code_length_pos h.holds.distinct b).mpr ((h.symbols b).mpr hb)
    omega
  have hflat : ((inputBytes s).flatMap fun b => codeOf { s3 with cbits := 0 } b.toNat) =
      tree.erase.encode (inputBytes s) := h.encode
  obtain ⟨s4, h4⟩ := codeAll_ends hcode (by
    rw [hflat]; show 0 + _ ≤ s3.cbufBits; omega)
  have f4 := codeAll_frame h4
  have c4 := codeAll_content h4
  rw [hflat] at c4
  have hnil : contentBits { s3 with cbits := 0 } = [] := rfl
  rw [hnil, List.nil_append] at c4
  have l4 : s4.cbits = (tree.erase.encode (inputBytes s)).length := by
    rw [← c4, contentBits_length]
  have k4 := (codeAll_cbuf h4).2
  have n4 : s4.node = s3.node := by rw [f4]
  have r4 : s4.root = s3.root := by rw [f4]
  have hle := h.holds.leaves
  have hser := serBits_of_tree (fuel := walkFuel) h.holds.arena (by unfold walkFuel; omega)
  have hlen := SymTree.header_length tree.erase
  obtain ⟨s5, h5, e5⟩ : ∃ s5, serializeTree s4 = .ok s5 ∧ s5 = { s4 with
      hdr := bufWrite s4.hdr 0 tree.erase.header, hbits := tree.erase.header.length } :=
    ⟨_, serializeTree_ok_iff.mpr ⟨tree.erase.header, by rw [n4, r4, ← h.holds.root]; exact hser,
      by unfold hdrMaxBits; omega, rfl⟩, rfl⟩
  have hh5 : headerBits s5 = tree.erase.header := by rw [e5]; exact bufSlice_bufWrite _ _ _ _
  have c5 : contentBits s5 = tree.erase.encode (inputBytes s) := by rw [e5]; exact c4
  have l5 : s5.cbits = (tree.erase.encode (inputBytes s)).length := by rw [← c5, contentBits_length]
  have b5 : s5.hbits = tree.erase.header.length := by rw [← hh5, headerBits_length]
  have o5 : s5.obufBytes = s.obufBytes := by rw [e5, f4]; exact hob
  obtain ⟨t, h6, e6⟩ : ∃ t, packBody s5 = .ok t ∧ t = { s5 with
      obuf := bufWrite s5.obuf 0 (artifact (headerBits s5) (contentBits s5))
      outLen := 6 + ceil8 s5.hbits + ceil8 s5.cbits } :=
    ⟨_, packBody_ok_iff.mpr ⟨by rw [l5, b5, o5]; exact ho, rfl⟩, rfl⟩
  refine ⟨t, by rw [h4, thenBody_ok, h5, thenBody_ok, h6], ?_, ?_, ?_, ?_, ?_, ?_, ?_⟩
  · rw [← b5, ← l5, e6, e5]
    simp only
    rw [f4]
  · rw [← hh5, e6]; rfl
  · rw [← c5, e6]; rfl
  · rw [e6, outputBytes_pack, hh5, c5]
  · intro k hk
    have h7 : hdrAt s4 k = hdrAt s3 k := by rw [f4]; rfl
    have h8 : t.hbits = tree.erase.header.length := by rw [e6]; exact b5
    rw [← h7, e6, e5]
    exact bufGet_bufWrite_outside _ _ (.inr (by omega))
  · intro k hk
    have h8 : t.cbits = s4.cbits := by rw [e6, e5]
    rw [e6, e5]
    exact k4 k (.inr (by rw [← h8]; exact hk))
  · intro a ha
    have h7 : obufAt s5 a = obufAt s3 a := by rw [e5, f4]; rfl
    have h8 : t.outLen = 6 + ceil8 s5.hbits + ceil8 s5.cbits := by rw [e6]
    rw [← h7, e6]
    refine bufGet_bufWrite_outside _ _ (.inr ?_)
    rw [artifact_length, headerBits_length, contentBits_length]
    omega

/-- The rest of COMPRESS, where the content does not fit CBUF or the artifact does not fit OBUF. -/
theorem Coded.limit {s s3 : State} {tree : CodeTree} (h : Coded s s3 tree)
    (hno : ¬ ((tree.erase.encode (inputBytes s)).length ≤ s.cbufBits ∧
      6 + ceil8 tree.erase.header.length + ceil8 (tree.erase.encode (inputBytes s)).length ≤
        s.obufBytes)) :
    (thenBody (codeAll (inputBytes s) { s3 with cbits := 0 }) fun s4 =>
      thenBody (serializeTree s4) packBody) = .error (.raise .limit) := by
  have hcb : s3.cbufBits = s.cbufBits := by rw [h.frame]
  have hob : s3.obufBytes = s.obufBytes := by rw [h.frame]
  have hcode : ∀ b ∈ inputBytes s, codeLenAt { s3 with cbits := 0 } b.toNat ≠ 0 := by
    intro b hb
    have h1 : codeLenAt { s3 with cbits := 0 } b.toNat = _ := (h.codes b).2
    have h2 := (SymTree.code_length_pos h.holds.distinct b).mpr ((h.symbols b).mpr hb)
    omega
  have hflat : ((inputBytes s).flatMap fun b => codeOf { s3 with cbits := 0 } b.toNat) =
      tree.erase.encode (inputBytes s) := h.encode
  cases h4 : codeAll (inputBytes s) { s3 with cbits := 0 } with
  | error e =>
    rw [thenBody_error]
    exact congrArg _ (codeAll_error_coded hcode h4)
  | ok s4 =>
    have f4 := codeAll_frame h4
    have c4 := codeAll_content h4
    rw [hflat] at c4
    have hnil : contentBits { s3 with cbits := 0 } = [] := rfl
    rw [hnil, List.nil_append] at c4
    have l4 : s4.cbits = (tree.erase.encode (inputBytes s)).length := by
      rw [← c4, contentBits_length]
    have hle4 := codeAll_cbits_le h4 (Nat.zero_le _)
    have n4 : s4.node = s3.node := by rw [f4]
    have r4 : s4.root = s3.root := by rw [f4]
    have hle := h.holds.leaves
    have hser := serBits_of_tree (fuel := walkFuel) h.holds.arena (by unfold walkFuel; omega)
    have hlen := SymTree.header_length tree.erase
    have h5 := serializeTree_ok_iff.mpr ⟨tree.erase.header, by rw [n4, r4, ← h.holds.root]; exact hser,
      by unfold hdrMaxBits; omega, rfl⟩
    rw [thenBody_ok, h5, thenBody_ok, packBody, if_pos]
    show s4.obufBytes < 6 + ceil8 tree.erase.header.length + ceil8 s4.cbits
    have e1 : s4.obufBytes = s.obufBytes := by rw [f4]; exact hob
    have e2 : s4.cbits ≤ s.cbufBits := by rw [← hcb]; exact hle4
    rw [l4] at e2 ⊢
    rw [e1]
    omega

/-! ### DECOMPRESS -/

/-- The body of TS_DESERIALIZE on the header of a tree. -/
theorem deserializeTree_header {s : State} {tree : SymTree} (hb : headerBits s = tree.header)
    (hn : tree.symbols.Nodup) :
    ∃ t, deserializeTree s = .ok t ∧
      t = { s with
        node := t.node, root := 0, nnodes := 2 * tree.symbols.length - 1, treeValid := true
        ctValid := false, decCur := 0 } ∧
      HoldsTree t (tree.number 0) ∧
      (∀ k < t.nnodes, (nodeAt t k).weight = 0 ∧ (nodeAt t k).UnusedZero) ∧
      ∀ k, t.nnodes ≤ k → nodeAt t k = nodeAt s k := by
  have hl := SymTree.symbols_le hn
  have hp := SymTree.symbols_pos tree
  obtain ⟨d, hd, hd1, hd2⟩ := deserNode_header (fuel := walkFuel) (t := tree)
    (d := { bits := headerBits s, cnt := 0, seen := [], nodes := s.node }) (rest := [])
    (by simp [hb]) hn (by simp) (by unfold walkFuel; omega) (by simp only [maxNodes]; omega)
  have hc : d.cnt = 2 * tree.symbols.length - 1 := by rw [hd2.cnt]; exact Nat.zero_add _
  obtain ⟨t, ht, et⟩ : ∃ t, deserializeTree s = .ok t ∧ t = { s with
      node := d.nodes, root := 0, nnodes := d.cnt, treeValid := true, ctValid := false
      decCur := 0 } := ⟨_, deserializeTree_ok_iff.mpr ⟨d, hd, hd1, rfl⟩, rfl⟩
  have tn : t.node = d.nodes := by rw [et]
  have tc : t.nnodes = d.cnt := by rw [et]
  have tr : t.root = 0 := by rw [et]
  refine ⟨t, ht, by rw [et, ← hc], ⟨?_, ?_, ?_, ?_, ?_, ?_⟩, ?_, ?_⟩
  · rw [SymTree.number_index, tr]
  · rw [tn]; exact hd2.tree
  · rw [SymTree.number_indices, tc, hc, List.range_eq_range']
  · rw [SymTree.number_erase]; exact hn
  · rw [SymTree.number_erase, tc, hc]
  · rw [SymTree.number_erase]; omega
  · intro k hk
    rw [nodeAt, tn]
    exact hd2.fields k (Nat.zero_le _) (by rw [← tc]; exact hk)
  · intro k hk
    rw [nodeAt, tn]
    exact hd2.rest k (.inr (by rw [← tc]; exact hk))

/-! ### COMPRESS as a whole -/

/-- What COMPRESS leaves where its input fits. -/
theorem Coded.compressed {s s3 t : State} {tree : CodeTree} (h : Coded s s3 tree)
    (ht : t = { s3 with
      cbuf := t.cbuf, cbits := (tree.erase.encode (inputBytes s)).length, hdr := t.hdr
      hbits := tree.erase.header.length, obuf := t.obuf
      outLen := 6 + ceil8 tree.erase.header.length +
        ceil8 (tree.erase.encode (inputBytes s)).length })
    (h1 : headerBits t = tree.erase.header) (h2 : contentBits t = tree.erase.encode (inputBytes s))
    (h3 : outputBytes t = artifact tree.erase.header (tree.erase.encode (inputBytes s))) :
    Compressed s (complete t) tree where
  state := by
    rw [h.frame] at ht
    rw [← h.leaves]
    generalize s3.freq = a1, s3.nsym = a2, s3.root = a3, s3.nnodes = a4, s3.node = a5,
      s3.codeLen = a6, s3.codeBits = a7, t.cbuf = a8, t.hdr = a9, t.obuf = a10 at ht
    rw [ht]
    rfl
  holds := by
    have := h.holds
    rw [ht]
    exact ⟨this.root, this.arena, this.once, this.distinct, this.count, this.leaves⟩
  symbols := h.symbols
  counts := by
    rw [ht]
    exact ⟨h.exact, h.counts⟩
  built := by
    intro u v hu hv
    rw [ht]
    have hx : runCommand u (guarded (u.total != 0) (buildTree u)) keepAll = .next v := hv
    have h0 : 0 < u.total := by
      obtain ⟨x, hx⟩ : ∃ x, x ∈ tree.erase.symbols :=
        List.exists_mem_of_length_pos (by have := h.holds.leaves.1; omega)
      have h4 := hu.2 x
      have h5 := List.count_pos_iff.mpr ((h.symbols x).mp hx)
      have h6 : freqAt u x.toNat ≤ ((List.range 256).map (freqAt u)).sum :=
        List.single_le_sum (fun _ _ => Nat.zero_le _) _
          (List.mem_map.mpr ⟨_, List.mem_range.mpr x.isLt, rfl⟩)
      have := hu.1.1
      omega
    rw [show (u.total != 0) = true by simp; omega, guarded_true] at hx
    rcases runCommand_next_iff.mp hx with ⟨w, hw, rfl⟩ | ⟨e, he, -⟩
    · exact h.built_of_counts (v := w) hu hw
    · obtain ⟨nodes, t, hb, -⟩ := buildTree_spec (present_ne_nil hu.1 h0)
      rw [hb] at he
      cases he
  codes := by
    rw [ht]
    exact h.codes
  header := h1
  content := h2
  output := h3

/-- Everything COMPRESS does on a non-empty input. -/
theorem compressBody_cases {s : State} (h0 : 0 < s.inLen) (hl : s.inLen ≤ 2 ^ 32 - 1) :
    ∃ s3 tree, Coded s s3 tree ∧
      (CompressFits s tree.erase ∧ (∃ t, compressBody s = .ok t ∧ Compressed s (complete t) tree) ∨
        ¬ CompressFits s tree.erase ∧ compressBody s = .error (.raise .limit)) := by
  obtain ⟨s3, tree, hC, hx⟩ := compressBody_coded h0 hl
  refine ⟨s3, tree, hC, ?_⟩
  rcases Classical.em (CompressFits s tree.erase) with hf | hf
  · obtain ⟨t, h1, h2, h3, h4, h5, -⟩ := hC.fits hf.1 hf.2
    exact .inl ⟨hf, t, by rw [hx, h1], hC.compressed h2 h3 h4 h5⟩
  · exact .inr ⟨hf, by rw [hx, hC.limit hf]⟩

/-! ### DEC_RUN within DECOMPRESS -/

theorem endCheck_error {s : State} {e : Stop} (h : endCheck s = .error e) :
    e = .raise .truncatedContent := by
  unfold endCheck at h
  split at h
  · cases h; rfl
  · cases h

theorem decRunBody_error {s : State} {e : Stop} (h : decRunBody s = .error e) :
    e = .raise .limit ∨ e = .raise .truncatedContent := by
  rcases thenBody_eq_error.mp h with h1 | ⟨s1, -, h2⟩
  · exact .inl (decAll_error h1)
  · exact .inr (endCheck_error h2)

/-- What DECOMPRESS runs on a container with the header of a tree, up to DEC_RUN: the state `s2` with the
header, the content and the tree.  The pad bits `hb` and `cb` end with are ignored. -/
theorem decompressBody_input {s : State} {tree : SymTree} {n : Nat} {hb cb : List Byte}
    (hi : inputBytes s = bytes16 tree.header.length ++ bytes32 n ++ hb ++ cb)
    (lh : hb.length = ceil8 tree.header.length) (lc : cb.length = ceil8 n)
    (hu : unpackBits hb tree.header.length = tree.header) (hn : tree.symbols.Nodup)
    (hl : n < 2 ^ 32) (hc : n ≤ s.cbufBits) :
    ∃ s2, decompressBody s = decRunBody s2 ∧
      s2 = { sessionClear s with
        node := s2.node, nnodes := 2 * tree.symbols.length - 1, treeValid := true, hdr := s2.hdr
        hbits := tree.header.length, cbuf := s2.cbuf, cbits := n } ∧
      HoldsTree s2 (tree.number 0) ∧ headerBits s2 = tree.header ∧
      contentBits s2 = unpackBits cb n ∧ (∀ k < s2.nnodes, (nodeAt s2 k).UnusedZero) ∧
      (∀ k, s2.nnodes ≤ k → nodeAt s2 k = nodeAt s k) ∧
      (∀ k, s2.hbits ≤ k → hdrAt s2 k = hdrAt s k) ∧
      ∀ k, s2.cbits ≤ k → cbufAt s2 k = cbufAt s k := by
  have hlen := SymTree.header_length tree
  have hle := SymTree.symbols_le hn
  have hpos := SymTree.symbols_pos tree
  obtain ⟨u1, u2, u3⟩ :=
    unpackBody_input (s := sessionClear s) hi lh lc (by omega) (by omega) hl hc
  rw [hu] at u2
  have u4 := unpackFields_rest (sessionClear s) tree.header.length n
  obtain ⟨s1, e1⟩ : ∃ s1, s1 = unpackFields (sessionClear s) tree.header.length n := ⟨_, rfl⟩
  rw [← e1] at u1 u2 u3 u4
  obtain ⟨s2, d1, d2, d3, d4, d5⟩ := deserializeTree_header u2 hn
  have hin : s1.inLen ≠ 0 := by
    have h1 := congrArg List.length hi
    simp only [inputBytes_length, List.length_append, bytes16_length, bytes32_length] at h1
    have h2 : s1.inLen = s.inLen := by rw [e1]; rfl
    omega
  have hh : s2.hdr = s1.hdr := by rw [d2]
  have hcb : s2.cbuf = s1.cbuf := by rw [d2]
  have hhb : s2.hbits = tree.header.length := by rw [d2, e1]; rfl
  have hcc : s2.cbits = n := by rw [d2, e1]; rfl
  refine ⟨s2, ?_, ?_, d3, ?_, ?_, fun k hk => (d4 k hk).2, ?_, ?_, ?_⟩
  · rw [decompressBody, u1, thenBody_ok, if_neg hin, d1, thenBody_ok]
  · rw [hh, hcb, d2, e1]
    rfl
  · rw [← u2, d2]; rfl
  · rw [← u3, d2]; rfl
  · intro k hk
    rw [d5 k hk, e1]
    rfl
  · intro k hk
    refine Eq.trans ?_ (u4.1 k (by omega))
    rw [hdrAt, hh]
    rfl
  · intro k hk
    refine Eq.trans ?_ (u4.2 k (by omega))
    rw [cbufAt, hcb]
    rfl

/-- What DECOMPRESS runs on the artifact of a tree and a content, up to DEC_RUN. -/
theorem decompressBody_artifact {s : State} {tree : SymTree} {content : Bits}
    (hi : inputBytes s = artifact tree.header content) (hn : tree.symbols.Nodup)
    (hl : content.length < 2 ^ 32) (hc : content.length ≤ s.cbufBits) :
    ∃ s2, decompressBody s = decRunBody s2 ∧
      s2 = { sessionClear s with
        node := s2.node, nnodes := 2 * tree.symbols.length - 1, treeValid := true, hdr := s2.hdr
        hbits := tree.header.length, cbuf := s2.cbuf, cbits := content.length } ∧
      HoldsTree s2 (tree.number 0) ∧ contentBits s2 = content := by
  obtain ⟨s2, h1, h2, h3, -, h4, -⟩ := decompressBody_input hi (packBits_length _)
    (packBits_length _) (unpackBits_packBits _) hn hl hc
  exact ⟨s2, h1, h2, h3, h4.trans (unpackBits_packBits _)⟩

theorem decompressBody_error {s : State} {e : Stop} (h : decompressBody s = .error e) :
    e = .raise .corruptHeader ∨ e = .raise .truncatedContent ∨ e = .raise .limit := by
  rcases thenBody_eq_error.mp h with h1 | ⟨s1, -, h2⟩
  · exact unpackBody_error h1
  · split at h2
    · cases h2
    · rcases thenBody_eq_error.mp h2 with h3 | ⟨s2, -, h4⟩
      · exact .inl (deserializeTree_error h3)
      · rcases decRunBody_error h4 with h5 | h5
        · exact .inr (.inr h5)
        · exact .inr (.inl h5)

/-! ### The changes on an error -/

/-- "On error" of COMPRESS, as one update. -/
theorem compressOnError_eq (e : ErrKind) (s : State) : compressOnError e s = { cleared s with
    node := ⟨s.freeCtr, []⟩, codeLen := ⟨s.freeCtr + 1, []⟩, codeBits := ⟨s.freeCtr + 2, []⟩
    hdr := ⟨s.freeCtr + 3, []⟩, cbuf := ⟨s.freeCtr + 4, []⟩, obuf := ⟨s.freeCtr + 5, []⟩
    freeCtr := s.freeCtr + 6 } := by
  simp only [compressOnError, forgetObuf, forgetCbuf, forgetHdr, forgetCodes, forgetNode, sessionClear,
    cleared]

/-- "On error" of DECOMPRESS, as one update. -/
theorem decompressOnError_eq (e : ErrKind) (s : State) : decompressOnError e s = { cleared s with
    node := ⟨s.freeCtr, []⟩, hdr := ⟨s.freeCtr + 1, []⟩, cbuf := ⟨s.freeCtr + 2, []⟩
    obuf := ⟨s.freeCtr + 3, []⟩, freeCtr := s.freeCtr + 4 } := by
  simp only [decompressOnError, forgetObuf, forgetCbuf, forgetHdr, forgetNode, sessionClear, cleared]

/-! ### The frames of COMPRESS and DECOMPRESS -/

/-- What COMPRESS changes when it raises no error, on a non-empty input. -/
theorem compressBody_frame {s t : State} (h0 : s.inLen ≠ 0) (h : compressBody s = .ok t) :
    t = { s with
      freq := t.freq, total := t.total, nsym := t.nsym, ftLock := true, treeValid := true
      ctValid := true, root := t.root, nnodes := t.nnodes, decCur := t.root, node := t.node
      codeLen := t.codeLen, codeBits := t.codeBits, hdr := t.hdr, hbits := t.hbits, cbuf := t.cbuf
      cbits := t.cbits, obuf := t.obuf, outLen := t.outLen } ∧
      (∀ a, t.outLen ≤ a → obufAt t a = obufAt s a) ∧ (∀ k, t.hbits ≤ k → hdrAt t k = hdrAt s k) ∧
      (∀ k, t.cbits ≤ k → cbufAt t k = cbufAt s k) ∧ ∀ k, t.nnodes ≤ k → nodeAt t k = nodeAt s k := by
  rw [compressBody, if_neg h0] at h
  obtain ⟨s1, h1, h⟩ := thenBody_eq_ok.mp h
  obtain ⟨s2, h2, h⟩ := thenBody_eq_ok.mp h
  obtain ⟨s3, h3, h⟩ := thenBody_eq_ok.mp h
  obtain ⟨s4, h4, h⟩ := thenBody_eq_ok.mp h
  obtain ⟨s5, h5, h⟩ := thenBody_eq_ok.mp h
  have hex := countAll_keeps_counts h1 (sessionClear_counts s)
  have ht := (countAll_counts h1).1
  rw [inputBytes_length] at ht
  have hp := present_ne_nil hex (by omega)
  obtain ⟨nodes, tr, h2', hB⟩ := buildTree_spec hp
  rw [h2, Except.ok.injEq] at h2'
  have hn : s2.nnodes = 2 * (present (freqAt s1)).length - 1 := by rw [h2']
  have hnn : s2.node = nodes := by rw [h2']
  have kn : ∀ k, s2.nnodes ≤ k → arenaAt s2.node k = nodeAt s1 k := by rw [hn, hnn]; exact hB.rest
  have e1 := countAll_frame h1
  have e2 := (buildTree_frame h2).1
  obtain ⟨cs, -, e3⟩ := deriveCodes_ok_iff.mp h3
  have e4 := codeAll_frame h4
  have k4 := (codeAll_cbuf h4).2
  obtain ⟨hd, -, -, e5⟩ := serializeTree_ok_iff.mp h5
  obtain ⟨-, e6⟩ := packBody_ok_iff.mp h
  clear hB h2' hp hnn hn ht hex h5 h4 h3 h2 h1 h
  have n1 : s1.node = s.node := by rw [e1]; rfl
  have q1 : s1.hdr = s.hdr ∧ s1.cbuf = s.cbuf ∧ s1.obuf = s.obuf := by
    rw [e1]; exact ⟨rfl, rfl, rfl⟩
  have q2 : s2.hdr = s1.hdr ∧ s2.cbuf = s1.cbuf ∧ s2.obuf = s1.obuf := by
    rw [e2]; exact ⟨rfl, rfl, rfl⟩
  have q3 : s3.hdr = s2.hdr ∧ s3.cbuf = s2.cbuf ∧ s3.obuf = s2.obuf ∧ s3.node = s2.node ∧
      s3.nnodes = s2.nnodes := by
    rw [e3]; exact ⟨rfl, rfl, rfl, rfl, rfl⟩
  have q4 : s4.hdr = s3.hdr ∧ s4.obuf = s3.obuf ∧ s4.node = s3.node ∧ s4.nnodes = s3.nnodes := by
    rw [e4]; exact ⟨rfl, rfl, rfl, rfl⟩
  have q5 : s5.hdr = bufWrite s4.hdr 0 hd ∧ s5.hbits = hd.length ∧ s5.cbuf = s4.cbuf ∧
      s5.cbits = s4.cbits ∧ s5.obuf = s4.obuf ∧ s5.node = s4.node ∧ s5.nnodes = s4.nnodes := by
    rw [e5]; exact ⟨rfl, rfl, rfl, rfl, rfl, rfl, rfl⟩
  have q6 : t.hdr = s5.hdr ∧ t.hbits = s5.hbits ∧ t.cbuf = s5.cbuf ∧ t.cbits = s5.cbits ∧
      t.obuf = bufWrite s5.obuf 0 (artifact (headerBits s5) (contentBits s5)) ∧
      t.outLen = 6 + ceil8 s5.hbits + ceil8 s5.cbits ∧ t.node = s5.node ∧ t.nnodes = s5.nnodes := by
    rw [e6]; exact ⟨rfl, rfl, rfl, rfl, rfl, rfl, rfl, rfl⟩
  refine ⟨?_, ?_, ?_, ?_, ?_⟩
  · have f2 : s2 = { s with
        freq := s2.freq, total := s2.total, nsym := s2.nsym, ftLock := true, treeValid := true
        ctValid := false, root := s2.root, nnodes := s2.nnodes, decCur := s2.root
        node := s2.node } := by
      generalize s1.nsym = a1, s1.freq = a2, s1.total = a3 at e1
      generalize s2.node = b1, s2.root = b2, s2.nnodes = b3 at e2
      rw [e2, e1]
      rfl
    have f3 : s3 = { s with
        freq := s3.freq, total := s3.total, nsym := s3.nsym, ftLock := true, treeValid := true
        ctValid := true, root := s3.root, nnodes := s3.nnodes, decCur := s3.root
        node := s3.node, codeLen := s3.codeLen, codeBits := s3.codeBits } := by
      clear e1 e2
      generalize s2.freq = a1, s2.total = a2, s2.nsym = a3, s2.root = a4, s2.nnodes = a5,
        s2.node = a6 at f2
      rw [e3, f2]
    have f4 : s4 = { s with
        freq := s4.freq, total := s4.total, nsym := s4.nsym, ftLock := true, treeValid := true
        ctValid := true, root := s4.root, nnodes := s4.nnodes, decCur := s4.root
        node := s4.node, codeLen := s4.codeLen, codeBits := s4.codeBits, cbuf := s4.cbuf
        cbits := s4.cbits } := by
      clear e1 e2 e3 f2
      generalize s3.freq = a1, s3.total = a2, s3.nsym = a3, s3.root = a4, s3.nnodes = a5,
        s3.node = a6, s3.codeLen = a7, s3.codeBits = a8 at f3
      generalize s4.cbuf = b1, s4.cbits = b2 at e4
      rw [e4, f3]
    clear e1 e2 e3 e4 f2 f3
    generalize s4.freq = a1, s4.total = a2, s4.nsym = a3, s4.root = a4, s4.nnodes = a5,
      s4.node = a6, s4.codeLen = a7, s4.codeBits = a8, s4.cbuf = a9, s4.cbits = a10 at f4
    have f5 : s5 = { s with
        freq := s5.freq, total := s5.total, nsym := s5.nsym, ftLock := true, treeValid := true
        ctValid := true, root := s5.root, nnodes := s5.nnodes, decCur := s5.root
        node := s5.node, codeLen := s5.codeLen, codeBits := s5.codeBits, cbuf := s5.cbuf
        cbits := s5.cbits, hdr := s5.hdr, hbits := s5.hbits } := by
      rw [e5, f4]
    clear e5 f4
    generalize headerBits s5 = x, contentBits s5 = y at e6
    generalize s5.freq = a1, s5.total = a2, s5.nsym = a3, s5.root = a4, s5.nnodes = a5,
      s5.node = a6, s5.codeLen = a7, s5.codeBits = a8, s5.cbuf = a9, s5.cbits = a10, s5.hdr = a11,
      s5.hbits = a12 at f5
    rw [e6, f5]
  · intro a ha
    have h1 : s.obuf = s5.obuf := by rw [q5.2.2.2.2.1, q4.2.1, q3.2.2.1, q2.2.2, q1.2.2]
    rw [obufAt, obufAt, q6.2.2.2.2.1, h1]
    refine bufGet_bufWrite_outside _ _ (.inr ?_)
    rw [artifact_length, headerBits_length, contentBits_length]
    omega
  · intro k hk
    have h1 : s.hdr = s4.hdr := by rw [q4.1, q3.1, q2.1, q1.1]
    rw [hdrAt, hdrAt, q6.1, q5.1, h1]
    exact bufGet_bufWrite_outside _ _ (.inr (by omega))
  · intro k hk
    have h1 : cbufAt s3 k = cbufAt s k := by rw [cbufAt, cbufAt, q3.2.1, q2.2.1, q1.2.1]
    rw [← h1, cbufAt, q6.2.2.1, q5.2.2.1]
    exact k4 k (.inr (by omega))
  · intro k hk
    rw [nodeAt, q6.2.2.2.2.2.2.1, q5.2.2.2.2.2.1, q4.2.2.1, q3.2.2.2.1, kn k (by omega), nodeAt, n1]
    rfl

/-- What DECOMPRESS changes when it raises no error. -/
theorem decompressBody_frame {s t : State} (h : decompressBody s = .ok t) :
    t = { s with
      freq := [], total := 0, nsym := 0, ftLock := false, treeValid := t.treeValid, ctValid := false
      root := 0, nnodes := t.nnodes, decCur := 0, node := t.node, hdr := t.hdr, hbits := t.hbits
      cbuf := t.cbuf, cbits := t.cbits, obuf := t.obuf, outLen := t.outLen } ∧
      (∀ a, t.outLen ≤ a → obufAt t a = obufAt s a) ∧ (∀ k, t.hbits ≤ k → hdrAt t k = hdrAt s k) ∧
      (∀ k, t.cbits ≤ k → cbufAt t k = cbufAt s k) ∧ ∀ k, t.nnodes ≤ k → nodeAt t k = nodeAt s k := by
  obtain ⟨s1, h1, h2⟩ := thenBody_eq_ok.mp h
  have k1 : ∃ hd cb hb n, s1 = { sessionClear s with hdr := hd, cbuf := cb, hbits := hb, cbits := n } ∧
      (∀ k, hb ≤ k → hdrAt s1 k = hdrAt s k) ∧ ∀ k, n ≤ k → cbufAt s1 k = cbufAt s k := by
    rcases unpackBody_cases h1 with ⟨-, rfl⟩ | ⟨-, -, -, -, rfl⟩
    · exact ⟨_, _, _, _, rfl, fun _ _ => rfl, fun _ _ => rfl⟩
    · exact ⟨_, _, _, _, rfl, (unpackFields_rest (sessionClear s) _ _).1,
        (unpackFields_rest (sessionClear s) _ _).2⟩
  obtain ⟨hd, cb, hb, n, e1, k2, k3⟩ := k1
  have o1 : s1.obuf = s.obuf := by rw [e1]; rfl
  have d1 : s1.node = s.node := by rw [e1]; rfl
  have b1 : s1.hbits = hb := by rw [e1]
  have c1 : s1.cbits = n := by rw [e1]
  split at h2
  · cases h2
    subst e1
    exact ⟨rfl, fun _ _ => rfl, k2, k3, fun _ _ => rfl⟩
  · obtain ⟨s2, h3, h4⟩ := thenBody_eq_ok.mp h2
    obtain ⟨d, hd', -, e2⟩ := deserializeTree_ok_iff.mp h3
    obtain ⟨-, -, tr, ht⟩ := deserNode_some (by simp [maxNodes]) hd'
    obtain ⟨s3, h5, h6⟩ := thenBody_eq_ok.mp h4
    have kw := (decAll_writes h5).2.2
    have e3 := decAll_frame h5
    obtain ⟨hcur, rfl⟩ : s3.decCur = s3.root ∧ t = s3 := by
      unfold endCheck at h6
      split at h6
      · cases h6
      · cases h6
        exact ⟨by tauto, rfl⟩
    have p2 : s2.obuf = s1.obuf ∧ s2.hdr = s1.hdr ∧ s2.hbits = s1.hbits ∧ s2.cbuf = s1.cbuf ∧
        s2.cbits = s1.cbits ∧ s2.node = d.nodes ∧ s2.nnodes = d.cnt ∧ s2.root = 0 := by
      rw [e2]; exact ⟨rfl, rfl, rfl, rfl, rfl, rfl, rfl, rfl⟩
    have p3 : t.hdr = s2.hdr ∧ t.hbits = s2.hbits ∧ t.cbuf = s2.cbuf ∧ t.cbits = s2.cbits ∧
        t.node = s2.node ∧ t.nnodes = s2.nnodes ∧ t.root = s2.root := by
      rw [e3]; exact ⟨rfl, rfl, rfl, rfl, rfl, rfl, rfl⟩
    refine ⟨?_, ?_, ?_, ?_, ?_⟩
    · have hz : t.decCur = 0 := by rw [hcur, p3.2.2.2.2.2.2, p2.2.2.2.2.2.2.2]
      clear kw k2 k3 ht hd' h h1 h2 h3 h4 h5 h6 hcur p2 p3
      rw [hz] at e3
      generalize t.obuf = a1, t.outLen = a2 at e3
      rw [e3, e2, e1]
      rfl
    · intro a ha
      have g : obufAt t a = obufAt (rewind s2) a := kw a (.inr ha)
      rw [g]
      show bufGet _ s2.obuf a = _
      rw [p2.1, o1]
      rfl
    · intro k hk
      refine Eq.trans ?_ (k2 k (by omega))
      rw [hdrAt, hdrAt, p3.1, p2.2.1]
    · intro k hk
      refine Eq.trans ?_ (k3 k (by omega))
      rw [cbufAt, cbufAt, p3.2.2.1, p2.2.2.2.1]
    · intro k hk
      rw [nodeAt, p3.2.2.2.2.1, p2.2.2.2.2.2.1]
      refine (ht.rest k (.inr (by omega))).trans ?_
      show arenaAt s1.node k = _
      rw [d1]
      rfl

end Sys2Proof.Machine
end

