-- ==== Sys2Proof/Laws/Inv.lean ====
section
/-!
SUPPORT. What the body of each command keeps of the invariants of 10_state.md R46.
-/

namespace Sys2Proof.Machine

/-- The invariants of R46, but for those of the error registers. -/
structure BlockOk (s : State) : Prop where
  caps : CapsLegal s
  lengths : LengthsInRange s
  arrays : ArraysOk s
  counts : CountsExact s
  flags : SessionFlagsOk s
  tree : TreeOk s

theorem Inv.block {s : State} (h : Inv s) : BlockOk s :=
  ⟨h.caps, h.lengths, h.arrays, h.counts, h.flags, h.tree⟩

theorem BlockOk.inv {s : State} (h : BlockOk s) (he : ErrorsOk s) : Inv s :=
  ⟨h.caps, h.lengths, h.arrays, h.counts, h.flags, he, h.tree⟩

/-! ### The tree invariant -/

/-- HoldsTree reads NODE, ROOT and NNODES alone. -/
theorem HoldsTree.congr {s t : State} {tree : CodeTree} (h : HoldsTree s tree) (h1 : t.node = s.node)
    (h2 : t.root = s.root) (h3 : t.nnodes = s.nnodes) : HoldsTree t tree :=
  ⟨by rw [h2]; exact h.root, by rw [h1]; exact h.arena, by rw [h3]; exact h.once, h.distinct,
    by rw [h3]; exact h.count, h.leaves⟩

theorem TreeOk.congr {s t : State} (h : TreeOk s) (h0 : t.treeValid = s.treeValid)
    (h1 : t.node = s.node) (h2 : t.root = s.root) (h3 : t.nnodes = s.nnodes) (h4 : t.decCur = s.decCur)
    (h5 : t.ctValid = s.ctValid) (h6 : t.codeLen = s.codeLen) (h7 : t.codeBits = s.codeBits) :
    TreeOk t := by
  intro hv
  obtain ⟨g0, tree, g1, g2, g3⟩ := h (by rw [← h0]; exact hv)
  refine ⟨by simpa only [nodeAt, h1, h3] using g0, tree, g1.congr h1 h2 h3, by rw [h4, h2]; exact g2,
    fun hc x => ?_⟩
  simp only [codeBitsAt, codeLenAt, h6, h7]
  exact g3 (by rw [← h5]; exact hc) x

/-- Without a tree, or after a change that sets the flags to 0, there is nothing to hold. -/
theorem treeOk_of_invalid {s : State} (h : s.treeValid = false) : TreeOk s := by
  intro hv
  rw [h] at hv
  cases hv

/-- The nodes of a held tree are below NNODES. -/
theorem HoldsTree.lt {s : State} {tree : CodeTree} (h : HoldsTree s tree) {i : Nat}
    (hi : i ∈ tree.indices) : i < s.nnodes := List.mem_range.mp (h.once.mem_iff.mp hi)

theorem HoldsTree.nnodes_le {s : State} {tree : CodeTree} (h : HoldsTree s tree) :
    s.nnodes ≤ 511 ∧ s.root < s.nnodes := by
  have h1 := h.count
  have h2 := h.leaves
  have h3 := h.lt tree.index_mem
  rw [h.root] at h3
  omega

/-! ### Sessions, reset, arrays drawn anew -/

theorem sessionClear_block {s : State} (h : BlockOk s) : BlockOk (sessionClear s) where
  caps := h.caps
  lengths := ⟨h.lengths.1, h.lengths.2.1, h.lengths.2.2.1, h.lengths.2.2.2.1, Nat.zero_le _,
    by show 0 < 512; decide, by show 0 < 512; decide, h.lengths.2.2.2.2.2.2.2⟩
  arrays := sessionClear_arrays h.arrays
  counts := sessionClear_counts s
  flags := ⟨fun h => (by cases h), fun h => (by cases h), fun _ => rfl⟩
  tree := treeOk_of_invalid rfl

theorem freeCodeLen_le (g a : Nat) : freeCodeLen g a ≤ 255 := by
  have := (Config.freeLen g a).isLt
  unfold freeCodeLen
  omega

theorem softReset_block {s : State} (h : BlockOk s) : BlockOk (softReset s) where
  caps := h.caps
  lengths := ⟨Nat.zero_le _, Nat.zero_le _, Nat.zero_le _, Nat.zero_le _, Nat.zero_le _,
    by show 0 < 512; decide, by show 0 < 512; decide, h.lengths.2.2.2.2.2.2.2⟩
  arrays := softReset_arrays h.arrays
  counts := countsExact_of_empty rfl rfl rfl
  flags := ⟨fun h => (by cases h), fun h => (by cases h), fun _ => rfl⟩
  tree := treeOk_of_invalid rfl

theorem hardReset_block {s : State} (h : BlockOk s) : BlockOk (hardReset s) := by
  rw [hardReset_eq]
  exact ⟨h.caps, ⟨Nat.zero_le _, Nat.zero_le _, Nat.zero_le _, Nat.zero_le _, Nat.zero_le _,
      by show 0 < 512; decide, by show 0 < 512; decide, fun x _ => freeCodeLen_le _ x⟩,
    ⟨rfl, rfl, rfl, rfl, rfl, rfl, rfl, rfl⟩, countsExact_of_empty rfl rfl rfl,
    ⟨fun h => (by cases h), fun h => (by cases h), fun _ => rfl⟩, treeOk_of_invalid rfl⟩

/-- Changes that the invariants do not read. -/
theorem BlockOk.congr {s t : State} (h : BlockOk s) (h1 : t = { s with
      pend := t.pend, busy := t.busy, done := t.done, ovr := t.ovr, errCode := t.errCode
      errOp := t.errOp, doneIe := t.doneIe, errIe := t.errIe, freeCtr := t.freeCtr
      agenda := t.agenda, reads := t.reads }) : BlockOk t := by
  generalize t.pend = a1, t.busy = a2, t.done = a3, t.ovr = a4, t.errCode = a5, t.errOp = a6,
    t.doneIe = a7, t.errIe = a8, t.freeCtr = a9, t.agenda = a10, t.reads = a11 at h1
  subst h1
  exact ⟨h.caps, h.lengths, h.arrays, h.counts, h.flags,
    h.tree.congr rfl rfl rfl rfl rfl rfl rfl rfl⟩

/-! ### The bodies -/

theorem xferBody_block {s t : State} (h : BlockOk s) (hb : xferBody s = .ok t) : BlockOk t := by
  have ha := xferBody_arrays h.arrays hb
  unfold xferBody at hb
  split at hb
  · cases hb
  · rename_i hl
    cases hb
    exact ⟨h.caps, ⟨by show s.outLen ≤ s.ibufBytes; omega, h.lengths.2⟩, ha, h.counts, h.flags,
      h.tree.congr rfl rfl rfl rfl rfl rfl rfl rfl⟩

theorem countAll_block {bs : List Byte} {s t : State} (h : BlockOk s) (hb : countAll bs s = .ok t) :
    BlockOk t := by
  have ha := countAll_arrays h.arrays hb
  have hc := countAll_keeps_counts hb h.counts
  have ht := (countAll_counts hb).1
  have hf := countAll_frame hb
  generalize t.nsym = ns, t.freq = fr, t.total = tot at hf ht
  subst hf
  exact ⟨h.caps, h.lengths, ha, hc,
    ⟨fun hl => by have := h.flags.1 hl; show 0 < tot; omega, h.flags.2⟩,
    h.tree.congr rfl rfl rfl rfl rfl rfl rfl rfl⟩

theorem buildTree_block {s t : State} (h : BlockOk s) (h0 : 0 < s.total) (hb : buildTree s = .ok t) :
    BlockOk t := by
  have ha := buildTree_arrays h.arrays hb
  have hp := present_ne_nil h.counts h0
  obtain ⟨nodes, tree, h2, hB⟩ := buildTree_spec hp
  rw [hb, Except.ok.injEq] at h2
  have hh : HoldsTree t tree := hB.holdsTree hp (by rw [h2]) (by rw [h2]) (by rw [h2])
  obtain ⟨b1, b2⟩ := hh.nnodes_le
  have hd : t.decCur = t.root := by rw [h2]
  have hz : ∀ k < t.nnodes, (nodeAt t k).UnusedZero := by
    rw [h2]; exact hB.forest.unused
  have htr : TreeOk t := fun _ => ⟨hz, tree, hh, .inl hd, fun hc => by rw [h2] at hc; cases hc⟩
  have hl : LengthsInRange t := by
    have hx : ∀ x < 256, codeLenAt t x ≤ 255 := by
      rw [h2]; exact h.lengths.2.2.2.2.2.2.2
    have hrest := h.lengths
    refine ⟨?_, ?_, ?_, ?_, b1, by omega, by omega, hx⟩
    · rw [h2]; exact hrest.1
    · rw [h2]; exact hrest.2.1
    · rw [h2]; exact hrest.2.2.1
    · rw [h2]; exact hrest.2.2.2.1
  refine ⟨?_, hl, ha, ?_, ?_, htr⟩
  · rw [h2]; exact h.caps
  · rw [h2]; exact h.counts
  · rw [h2]
    exact ⟨fun _ => h0, fun hc => (by cases hc), fun hv => (by cases hv)⟩

theorem deriveCodes_block {s t : State} (h : BlockOk s) (hv : s.treeValid = true)
    (hb : deriveCodes s = .ok t) : BlockOk t := by
  have ha := deriveCodes_arrays h.arrays hb
  obtain ⟨g0, tree, g1, g2, -⟩ := h.tree hv
  obtain ⟨codes, hc, rfl⟩ := deriveCodes_ok_iff.mp hb
  rw [← g1.root, treeCodes_of_tree g1.arena g1.leaves.2, Option.some.injEq] at hc
  subst hc
  have key := codeTable_of_tree s.codeLen s.codeBits g1.distinct
  refine ⟨h.caps, ⟨h.lengths.1, h.lengths.2.1, h.lengths.2.2.1, h.lengths.2.2.2.1,
    h.lengths.2.2.2.2.1, h.lengths.2.2.2.2.2.1, h.lengths.2.2.2.2.2.2.1, ?_⟩, ha, h.counts,
    ⟨h.flags.1, fun _ => hv, h.flags.2.2⟩, ?_⟩
  · intro x hx
    have h1 := (key (BitVec.ofNat 8 x)).2
    rw [BitVec.toNat_ofNat, Nat.mod_eq_of_lt hx] at h1
    have h2 := SymTree.code_length_le tree.erase g1.distinct g1.leaves.2 (BitVec.ofNat 8 x)
    rw [← h1] at h2
    exact h2
  · exact fun _ => ⟨g0, tree, g1.congr rfl rfl rfl, g2, fun _ => key⟩

theorem codeAll_block {bs : List Byte} {s t : State} (h : BlockOk s) (hb : codeAll bs s = .ok t) :
    BlockOk t := by
  have ha := codeAll_arrays h.arrays hb
  have hc := codeAll_cbits_le hb h.lengths.2.2.1
  have hf := codeAll_frame hb
  generalize t.cbuf = cb, t.cbits = n at hf hc
  subst hf
  exact ⟨h.caps, ⟨h.lengths.1, h.lengths.2.1, hc, h.lengths.2.2.2⟩, ha, h.counts, h.flags,
    h.tree.congr rfl rfl rfl rfl rfl rfl rfl rfl⟩

theorem serializeTree_block {s t : State} (h : BlockOk s) (hb : serializeTree s = .ok t) :
    BlockOk t := by
  have ha := serializeTree_arrays h.arrays hb
  obtain ⟨hd, -, hl, rfl⟩ := serializeTree_ok_iff.mp hb
  exact ⟨h.caps, ⟨h.lengths.1, h.lengths.2.1, h.lengths.2.2.1, hl, h.lengths.2.2.2.2⟩, ha, h.counts,
    h.flags, h.tree.congr rfl rfl rfl rfl rfl rfl rfl rfl⟩

theorem deserializeTree_block {s t : State} (h : BlockOk s) (hb : deserializeTree s = .ok t) :
    BlockOk t := by
  have ha := deserializeTree_arrays h.arrays hb
  obtain ⟨d, hd, hd1, -⟩ := deserializeTree_ok_iff.mp hb
  obtain ⟨-, -, tree, ht⟩ := deserNode_some (by simp [maxNodes]) hd
  have hhd : headerBits s = tree.header := by have := ht.bits; simpa [hd1] using this
  obtain ⟨t', e1, e2, e3, e4, -⟩ := deserializeTree_header hhd ht.nodup
  rw [hb, Except.ok.injEq] at e1
  subst e1
  obtain ⟨b1, b2⟩ := e3.nnodes_le
  have hdc : t.decCur = t.root := by rw [e2]
  have htr : TreeOk t := fun _ => ⟨fun k hk => (e4 k hk).2, _, e3, .inl hdc, fun hc => by rw [e2] at hc; cases hc⟩
  generalize t.node = nd at e2
  subst e2
  exact ⟨h.caps, ⟨h.lengths.1, h.lengths.2.1, h.lengths.2.2.1, h.lengths.2.2.2.1, b1,
    by show 0 < 512; decide, by show 0 < 512; decide, h.lengths.2.2.2.2.2.2.2⟩, ha, h.counts,
    ⟨h.flags.1, fun hc => (by cases hc), fun hc => (by cases hc)⟩, htr⟩

theorem rewind_block {s : State} (h : BlockOk s) : BlockOk (rewind s) :=
  ⟨h.caps, ⟨h.lengths.1, Nat.zero_le _, h.lengths.2.2.1, h.lengths.2.2.2.1, h.lengths.2.2.2.2.1,
    h.lengths.2.2.2.2.2.1, h.lengths.2.2.2.2.2.1, h.lengths.2.2.2.2.2.2.2⟩, h.arrays, h.counts,
    h.flags, fun hv => by
      obtain ⟨g0, tree, g1, -, g3⟩ := h.tree hv
      exact ⟨g0, tree, g1.congr rfl rfl rfl, .inl rfl, g3⟩⟩

theorem decAll_block {bs : Bits} {s t : State} (h : BlockOk s) (hv : s.treeValid = true)
    (hb : decAll bs s = .ok t) : BlockOk t := by
  have ha := decAll_arrays h.arrays h.lengths.2.1 hb
  have ho := (decAll_obuf hb h.lengths.2.1 h.arrays.2.2.2.2.2.2.2).2.1
  obtain ⟨g0, tree, g1, g2, g3⟩ := h.tree hv
  have hcur : CursorOk t tree := decAll_cursor g1.arena g1.root g2 hb
  have hf := decAll_frame hb
  generalize t.obuf = ob, t.outLen = n, t.decCur = c at hf ho
  subst hf
  have hc512 : c < 512 := by
    rcases hcur with hc | hc
    · have hc : c = s.root := hc
      rw [hc]; exact h.lengths.2.2.2.2.2.1
    · have := g1.lt (CodeTree.internals_sub hc)
      have := g1.nnodes_le.1
      show c < 512
      have hcc : c < s.nnodes := g1.lt (CodeTree.internals_sub hc)
      omega
  exact ⟨h.caps, ⟨h.lengths.1, ho, h.lengths.2.2.1, h.lengths.2.2.2.1, h.lengths.2.2.2.2.1,
    h.lengths.2.2.2.2.2.1, hc512, h.lengths.2.2.2.2.2.2.2⟩, ha, h.counts, h.flags,
    fun _ => ⟨g0, tree, g1.congr rfl rfl rfl, hcur, g3⟩⟩

theorem endCheck_ok_iff {s t : State} : endCheck s = .ok t ↔ s.decCur = s.root ∧ t = s := by
  unfold endCheck
  split
  · simp only [reduceCtorEq, false_iff]
    tauto
  · simp only [Except.ok.injEq]
    constructor
    · rintro rfl; exact ⟨by tauto, rfl⟩
    · rintro ⟨-, rfl⟩; rfl

theorem decRunBody_block {s t : State} (h : BlockOk s) (hv : s.treeValid = true)
    (hb : decRunBody s = .ok t) : BlockOk t := by
  obtain ⟨s1, h1, h2⟩ := thenBody_eq_ok.mp hb
  obtain ⟨-, rfl⟩ := endCheck_ok_iff.mp h2
  exact decAll_block (rewind_block h) hv h1

theorem packBody_block {s t : State} (h : BlockOk s) (hb : packBody s = .ok t) : BlockOk t := by
  obtain ⟨hl, rfl⟩ := packBody_ok_iff.mp hb
  have hlen := artifact_length (headerBits s) (contentBits s)
  rw [headerBits_length, contentBits_length] at hlen
  refine ⟨h.caps, ⟨h.lengths.1, hl, h.lengths.2.2⟩, ⟨h.arrays.1, h.arrays.2.1, h.arrays.2.2.1,
    h.arrays.2.2.2.1, h.arrays.2.2.2.2.1, h.arrays.2.2.2.2.2.1, h.arrays.2.2.2.2.2.2.1, ?_⟩,
    h.counts, h.flags, h.tree.congr rfl rfl rfl rfl rfl rfl rfl rfl⟩
  exact bufOk_bufWrite h.arrays.2.2.2.2.2.2.2 (by show 0 + _ ≤ s.obufBytes; omega)

theorem unpackBody_block {s t : State} (h : BlockOk s) (hb : unpackBody s = .ok t) : BlockOk t := by
  rcases unpackBody_cases hb with ⟨-, rfl⟩ | ⟨-, h1, h2, h3, rfl⟩
  · exact ⟨h.caps, ⟨h.lengths.1, h.lengths.2.1, Nat.zero_le _, Nat.zero_le _, h.lengths.2.2.2.2⟩,
      h.arrays, h.counts, h.flags, h.tree.congr rfl rfl rfl rfl rfl rfl rfl rfl⟩
  · have len : ∀ a m, (unpackBits (ibufSlice s a (ceil8 m)) m).length = m := fun a m =>
      unpackBits_length (by rw [ibufSlice, bufSlice_length]; exact le_eight_ceil8 m)
    refine ⟨h.caps, ⟨h.lengths.1, h.lengths.2.1, h3, h2, h.lengths.2.2.2.2⟩, ⟨h.arrays.1,
      h.arrays.2.1, h.arrays.2.2.1, h.arrays.2.2.2.1, ?_, ?_, h.arrays.2.2.2.2.2.2⟩, h.counts,
      h.flags, h.tree.congr rfl rfl rfl rfl rfl rfl rfl rfl⟩
    · exact bufOk_bufWrite h.arrays.2.2.2.2.1 (by rw [len]; omega)
    · exact bufOk_bufWrite h.arrays.2.2.2.2.2.1 (by rw [len]; show 0 + fieldN s ≤ s.cbufBits; omega)

/-- The state of a failed or empty COMPRESS or DECOMPRESS. -/
theorem cleared_block {s : State} (h : BlockOk s) : BlockOk (cleared s) where
  caps := h.caps
  lengths := ⟨h.lengths.1, Nat.zero_le _, Nat.zero_le _, Nat.zero_le _, Nat.zero_le _,
    by show 0 < 512; decide, by show 0 < 512; decide, h.lengths.2.2.2.2.2.2.2⟩
  arrays := sessionClear_arrays h.arrays
  counts := sessionClear_counts s
  flags := ⟨fun h => (by cases h), fun h => (by cases h), fun _ => rfl⟩
  tree := treeOk_of_invalid rfl

theorem compressBody_block {s t : State} (h : BlockOk s) (hb : compressBody s = .ok t) : BlockOk t := by
  by_cases h0 : s.inLen = 0
  · rw [compressBody, if_pos h0] at hb
    cases hb
    show BlockOk (cleared s)
    exact cleared_block h
  · rw [compressBody, if_neg h0] at hb
    obtain ⟨s1, h1, hb⟩ := thenBody_eq_ok.mp hb
    obtain ⟨s2, h2, hb⟩ := thenBody_eq_ok.mp hb
    obtain ⟨s3, h3, hb⟩ := thenBody_eq_ok.mp hb
    obtain ⟨s4, h4, hb⟩ := thenBody_eq_ok.mp hb
    obtain ⟨s5, h5, hb⟩ := thenBody_eq_ok.mp hb
    have k1 := countAll_block (sessionClear_block h) h1
    have ht : 0 < s1.total := by
      have := (countAll_counts h1).1
      rw [inputBytes_length] at this
      omega
    have k2 := buildTree_block k1 ht h2
    have hv : s2.treeValid = true := by rw [(buildTree_frame h2).1]
    have k3 := deriveCodes_block k2 hv h3
    have k3' : BlockOk { s3 with cbits := 0 } :=
      ⟨k3.caps, ⟨k3.lengths.1, k3.lengths.2.1, Nat.zero_le _, k3.lengths.2.2.2⟩, k3.arrays, k3.counts,
        k3.flags, k3.tree.congr rfl rfl rfl rfl rfl rfl rfl rfl⟩
    exact packBody_block (serializeTree_block (codeAll_block k3' h4) h5) hb

theorem decompressBody_block {s t : State} (h : BlockOk s) (hb : decompressBody s = .ok t) :
    BlockOk t := by
  obtain ⟨s1, h1, hb⟩ := thenBody_eq_ok.mp hb
  have k1 := unpackBody_block (sessionClear_block h) h1
  split at hb
  · cases hb
    exact ⟨k1.caps, ⟨k1.lengths.1, Nat.zero_le _, k1.lengths.2.2⟩, k1.arrays, k1.counts,
      k1.flags, k1.tree.congr rfl rfl rfl rfl rfl rfl rfl rfl⟩
  · obtain ⟨s2, h2, hb⟩ := thenBody_eq_ok.mp hb
    have k2 := deserializeTree_block k1 h2
    obtain ⟨d, -, -, e2⟩ := deserializeTree_ok_iff.mp h2
    exact decRunBody_block k2 (by rw [e2]) hb

/-! ### The changes on an error -/

theorem deserializeOnError_block {e : ErrKind} {s : State} (h : BlockOk s) :
    BlockOk (deserializeOnError e s) where
  caps := h.caps
  lengths := ⟨h.lengths.1, h.lengths.2.1, h.lengths.2.2.1, h.lengths.2.2.2.1, Nat.zero_le _,
    by show 0 < 512; decide, by show 0 < 512; decide, h.lengths.2.2.2.2.2.2.2⟩
  arrays := ⟨h.arrays.1, rfl, h.arrays.2.2⟩
  counts := h.counts
  flags := ⟨h.flags.1, fun hc => (by cases hc), fun _ => rfl⟩
  tree := treeOk_of_invalid rfl

theorem packOnError_block {e : ErrKind} {s : State} (h : BlockOk s) : BlockOk (packOnError e s) := by
  cases e
  case limit =>
    exact ⟨h.caps, ⟨h.lengths.1, Nat.zero_le _, h.lengths.2.2⟩, h.arrays, h.counts, h.flags,
      h.tree.congr rfl rfl rfl rfl rfl rfl rfl rfl⟩
  all_goals exact h

theorem unpackOnError_block {e : ErrKind} {s : State} (h : BlockOk s) :
    BlockOk (unpackOnError e s) :=
  ⟨h.caps, ⟨h.lengths.1, h.lengths.2.1, Nat.zero_le _, Nat.zero_le _, h.lengths.2.2.2.2⟩, h.arrays,
    h.counts, h.flags, h.tree.congr rfl rfl rfl rfl rfl rfl rfl rfl⟩

theorem decEndOnError_block {e : ErrKind} {s : State} (h : BlockOk s) :
    BlockOk (decEndOnError e s) := by
  cases e
  case truncatedContent => exact rewind_block h
  all_goals exact h

theorem forgetObuf_block {s : State} (h : BlockOk s) : BlockOk (forgetObuf s) :=
  ⟨h.caps, h.lengths, forgetObuf_arrays h.arrays, h.counts, h.flags,
    h.tree.congr rfl rfl rfl rfl rfl rfl rfl rfl⟩

theorem decRunOnError_block {e : ErrKind} {s : State} (h : BlockOk s) :
    BlockOk (decRunOnError e s) := by
  cases e
  case truncatedContent => exact forgetObuf_block (rewind_block h)
  case limit => exact forgetObuf_block (rewind_block h)
  all_goals exact h

theorem compressOnError_block {e : ErrKind} {s : State} (h : BlockOk s) :
    BlockOk (compressOnError e s) := by
  have k := cleared_block h
  rw [compressOnError_eq]
  exact ⟨k.caps, ⟨k.lengths.1, k.lengths.2.1, k.lengths.2.2.1, k.lengths.2.2.2.1, k.lengths.2.2.2.2.1,
    k.lengths.2.2.2.2.2.1, k.lengths.2.2.2.2.2.2.1, fun x _ => freeCodeLen_le _ x⟩,
    ⟨k.arrays.1, rfl, rfl, rfl, rfl, rfl, k.arrays.2.2.2.2.2.2.1, rfl⟩, k.counts, k.flags,
    treeOk_of_invalid rfl⟩

theorem decompressOnError_block {e : ErrKind} {s : State} (h : BlockOk s) :
    BlockOk (decompressOnError e s) := by
  have k := cleared_block h
  rw [decompressOnError_eq]
  exact ⟨k.caps, k.lengths, ⟨k.arrays.1, rfl, k.arrays.2.2.1, k.arrays.2.2.2.1, rfl, rfl,
    k.arrays.2.2.2.2.2.2.1, rfl⟩, k.counts, k.flags, treeOk_of_invalid rfl⟩

end Sys2Proof.Machine
end

