-- ==== Sys2Proof/Laws/PerInstr.lean ====
section
/-!
SUPPORT. One lemma per command about its encoding: the fields of the command word
(30_encoding.md R71, R72).
-/

namespace Sys2Proof.Laws.EncodedFields

/-- The word of a command holds its opcode in OP, its operand in ARG and 0 in RSV. -/
def Statement (i : Instr) : Prop :=
  opField (encode i) = i.opcode ∧ argField (encode i) = i.arg ∧ rsvField (encode i) = 0#16

/-- A word put together from its fields, as a number. -/
theorem toNat_fields (arg op : Byte) :
    ((0#16 ++ arg) ++ op).toNat = 256 * arg.toNat + op.toNat := by
  rw [BitVec.toNat_append, BitVec.toNat_append, ← Nat.shiftLeft_add_eq_or_of_lt op.isLt]
  simp [Nat.shiftLeft_eq, Nat.mul_comm]

/-- The fields of a word put together from them. -/
theorem fields (arg op : Byte) :
    opField ((0#16 ++ arg) ++ op) = op ∧ argField ((0#16 ++ arg) ++ op) = arg ∧
      rsvField ((0#16 ++ arg) ++ op) = 0#16 := by
  refine ⟨?_, ?_, ?_⟩ <;> apply BitVec.eq_of_toNat_eq <;>
    simp only [opField, argField, rsvField, BitVec.extractLsb'_toNat, toNat_fields,
      Nat.shiftRight_eq_div_pow, BitVec.toNat_ofNat] <;> omega

theorem nop : Statement .nop := fields _ _

theorem softReset : Statement .softReset := fields _ _

theorem clrErr : Statement .clrErr := fields _ _

theorem xfer : Statement .xfer := fields _ _

theorem fcClear : Statement .fcClear := fields _ _

theorem fcPush (b : Byte) : Statement (.fcPush b) := fields _ _

theorem fcScan : Statement .fcScan := fields _ _

theorem tbBuild : Statement .tbBuild := fields _ _

theorem ctDerive : Statement .ctDerive := fields _ _

theorem encBegin : Statement .encBegin := fields _ _

theorem encPush (b : Byte) : Statement (.encPush b) := fields _ _

theorem encScan : Statement .encScan := fields _ _

theorem tsSerialize : Statement .tsSerialize := fields _ _

theorem tsDeserialize : Statement .tsDeserialize := fields _ _

theorem decBegin : Statement .decBegin := fields _ _

theorem decBit (arg : Byte) : Statement (.decBit arg) := fields _ _

theorem decEnd : Statement .decEnd := fields _ _

theorem decRun : Statement .decRun := fields _ _

theorem pack : Statement .pack := fields _ _

theorem unpack : Statement .unpack := fields _ _

theorem compress : Statement .compress := fields _ _

theorem decompress : Statement .decompress := fields _ _

end Sys2Proof.Laws.EncodedFields
end

