-- ==== Sys2Proof/Laws/Run.lean ====
section
/-!
SUPPORT. The polls of a WAIT, the end of a run, and what the observation at the end reads.
-/

namespace Sys2Proof.Machine

/-! ### Polls -/

/-- A read of STATUS is exact whether or not a command is pending (20_memory.md R59). -/
theorem hostRead_status (s : State) :
    hostRead (regOffset .status) 4 s = .next { s with reads := statusWord s :: s.reads } := by
  rw [hostRead_next s (by norm_num [inadmissible, wordRegion, byteRegion, regOffset])]
  congr 1
  apply busRead_some
  cases hb : s.busy
  · rw [readValue_idle_reg hb]; rfl
  · rw [readValue_busy_reg hb]; rfl

/-- Bit 0 of STATUS is BUSY. -/
theorem statusWord_busy (s : State) : (statusWord s).getLsbD 0 = s.busy := by
  rw [statusWord_bit]
  rfl

/-- Everything a poll of a WAIT does. -/
theorem waitPoll_next (n : Nat) (s : State) : waitPoll n s = .next { s with
    reads := statusWord s :: s.reads
    agenda := (if s.busy then waitEvents n else []) ++ s.agenda } := by
  rw [waitPoll, hostRead_status]
  simp only [List.headD_cons, afterPoll, statusWord_busy]

/-! ### The end of a run -/

theorem runOver_iff (s : State) : runOver s = true ↔ s.agenda = [] ∧ s.busy = false := by
  simp [runOver, List.isEmpty_iff]

/-- After its end a run changes nothing. -/
theorem step_of_runOver {s : State} (h : runOver s = true) : step s = .next s := by
  obtain ⟨h1, h2⟩ := (runOver_iff s).mp h
  simp [step, h1, engineTurn, h2]

theorem endState_of_runOver {s : State} (n : Nat) (h : runOver s = true) : endState n s = some s := by
  cases n <;> simp [endState, h]

/-! ### The observation -/

theorem mem_offsetsFrom {base width n off : Nat} :
    off ∈ offsetsFrom base width n ↔ ∃ k < n, off = base + width * k := by
  simp [offsetsFrom, eq_comm]

theorem mem_observation {s : State} {off : Nat} {v : Word} :
    (off, v) ∈ observation s ↔ off ∈ locations s ∧ idleRead s off = some v := by
  simp only [observation, observed, List.mem_filterMap, Option.map_eq_some_iff, Prod.mk.injEq]
  constructor
  · rintro ⟨a, h, w, h1, rfl, rfl⟩; exact ⟨h, h1⟩
  · rintro ⟨h1, h2⟩; exact ⟨off, h1, v, h2, rfl, rfl⟩

/-- States with the same capacities that read alike have the same observation. -/
theorem observation_congr {s u : State} (h : locations u = locations s)
    (h' : ∀ off, idleRead u off = idleRead s off) : observation u = observation s := by
  unfold observation
  rw [h]
  apply List.filterMap_congr
  intro off _
  rw [observed, observed, h' off]

/-- Every location admits accesses of one width. -/
theorem locations_admitted {s : State} (hs : CapsLegal s) {off : Nat} (h : off ∈ locations s) :
    ∃ n, ¬ inadmissible off n := by
  obtain ⟨-, h1, -, h2, -, h3⟩ := hs
  simp only [locations, List.mem_append, mem_offsetsFrom] at h
  rcases h with (((((((h | h) | h) | h) | h) | h) | h) | h) | h
  · obtain ⟨r, -, rfl⟩ := List.mem_map.mp h
    exact ⟨4, by cases r <;> norm_num [inadmissible, wordRegion, byteRegion, regOffset]⟩
  all_goals obtain ⟨k, hk, rfl⟩ := h
  all_goals first
    | exact ⟨4, by simp only [inadmissible, wordRegion, byteRegion]; omega⟩
    | exact ⟨1, by simp only [inadmissible, wordRegion, byteRegion]; omega⟩

/-- Nodes that are stale are not read. -/
theorem idleRead_node (s : State) (nodes : Buf Node)
    (hn : s.treeValid = true → s.root < s.nnodes ∧ ∀ k < s.nnodes, arenaAt nodes k = nodeAt s k)
    (off : Nat) : idleRead { s with node := nodes } off = idleRead s off := by
  have hd : treeDeg { s with node := nodes } = treeDeg s := by
    unfold treeDeg
    cases ht : s.treeValid
    · rfl
    · have := (hn ht).2 _ (hn ht).1
      show (true && decide ((arenaAt nodes s.root).kind = .leaf)) = _
      rw [this]
  have hs : ∀ r, regRead r { s with node := nodes } = regRead r s := by
    intro r
    cases r <;> try rfl
    show BitVec.ofNat 32 (natOfBits (statusBits _).reverse) =
      BitVec.ofNat 32 (natOfBits (statusBits _).reverse)
    unfold statusBits
    rw [hd]
    rfl
  have hk : s.treeValid = true → ∀ k, k < s.nnodes → nodeAt { s with node := nodes } k = nodeAt s k :=
    fun ht k h => (hn ht).2 k h
  unfold idleRead
  cases regionOf off
  case regs => simp only [hs]
  case node =>
    simp only
    generalize (off - 0x2000) / 8 = k
    by_cases h : (s.treeValid && decide (k < s.nnodes)) = true
    · have h' := h
      simp only [Bool.and_eq_true, decide_eq_true_eq] at h'
      rw [hk h'.1 k h'.2]
    · rw [if_neg h, if_neg h]
  all_goals rfl

/-- A stale code table is not read. -/
theorem idleRead_codes (s : State) (hc : s.ctValid = false) (lens : Buf Nat) (codes : Buf Bits)
    (off : Nat) : idleRead { s with codeLen := lens, codeBits := codes } off = idleRead s off := by
  have hc' : ¬ s.ctValid = true := by simp [hc]
  unfold idleRead
  cases regionOf off
  case codeLen => exact (if_neg hc').trans (if_neg hc').symm
  case codeBits => exact (if_neg hc').trans (if_neg hc').symm
  all_goals rfl

/-- Bytes from OUT_LEN on are not read. -/
theorem idleRead_obuf (s : State) {a : Nat} {v : Byte} (ha : s.outLen ≤ a) (off : Nat) :
    idleRead { s with obuf := bufSet s.obuf a v } off = idleRead s off := by
  have key : ∀ x, x < s.outLen → obufAt { s with obuf := bufSet s.obuf a v } x = obufAt s x :=
    fun x hx => bufGet_bufSet_other _ _ _ (by omega)
  unfold idleRead
  cases regionOf off
  case obuf =>
    simp only
    generalize off - 0x2000000 = x
    by_cases h : x < s.outLen
    · rw [key x h]
    · rw [if_neg h, if_neg h]
  all_goals rfl

end Sys2Proof.Machine
end

