-- ==== Sys2Proof/Laws/Session.lean ====
section
/-!
SUPPORT. UNPACK, TS_DESERIALIZE and DEC_RUN do not look at the frequency counter, and no one of them is
stuck; so DECOMPRESS meets the same checks as these commands one after the other (47_container.md R132).
-/

namespace Sys2Proof.Machine

/-- `s` with the frequency counter, BUSY and DONE of `x`. -/
def counterOf (x s : State) : State :=
  { s with
    freq := x.freq, total := x.total, nsym := x.nsym, ftLock := x.ftLock, busy := x.busy
    done := x.done }

/-- `b` with the frequency counter, BUSY and DONE of `x` in its state. -/
def Body.counterOf (x : State) (b : Body) : Body := thenBody b fun s => .ok (Machine.counterOf x s)

@[simp] theorem Body.counterOf_ok (x s : State) :
    Body.counterOf x (.ok s) = .ok (Machine.counterOf x s) := rfl

@[simp] theorem Body.counterOf_error (x : State) (e : Stop) :
    Body.counterOf x (.error e) = .error e := rfl

theorem Body.counterOf_ite (x : State) (c : Prop) [Decidable c] (a b : Body) :
    Body.counterOf x (if c then a else b) =
      if c then Body.counterOf x a else Body.counterOf x b := by split <;> rfl

theorem emit_counterOf (x s : State) (b : Byte) :
    emit b (counterOf x s) = Body.counterOf x (emit b s) := by
  rw [emit, emit, Body.counterOf_ite]; rfl

theorem decStep_counterOf (x s : State) (b : Bool) :
    decStep b (counterOf x s) = Body.counterOf x (decStep b s) := by
  have hn : ∀ k, nodeAt (counterOf x s) k = nodeAt s k := fun _ => rfl
  have hr : (counterOf x s).root = s.root ∧ (counterOf x s).decCur = s.decCur := ⟨rfl, rfl⟩
  simp only [decStep, Body.counterOf_ite, emit_counterOf, hn, hr.1, hr.2]
  congr 2
  cases emit (nodeAt s (childOf (nodeAt s s.decCur) b)).sym s <;> rfl

theorem decAll_counterOf (x s : State) (bs : Bits) :
    decAll bs (counterOf x s) = Body.counterOf x (decAll bs s) := by
  induction bs generalizing s with
  | nil => rfl
  | cons b bs ih =>
    rw [decAll, decAll, decStep_counterOf]
    cases h : decStep b s with
    | error e => rfl
    | ok t => exact ih t

/-- DEC_RUN after its check does not look at the frequency counter. -/
theorem decRunBody_counterOf (x s : State) :
    decRunBody (counterOf x s) = Body.counterOf x (decRunBody s) := by
  have h := decAll_counterOf x (rewind s) (contentBits s)
  change thenBody (decAll (contentBits s) (counterOf x (rewind s))) endCheck = _
  rw [h, decRunBody]
  cases decAll (contentBits s) (rewind s) with
  | error e => rfl
  | ok t => rw [Body.counterOf_ok, thenBody_ok, thenBody_ok, endCheck, endCheck, Body.counterOf_ite]; rfl

/-- TS_DESERIALIZE looks neither at the frequency counter nor at the tree before it. -/
theorem deserializeTree_counterOf (x s : State) (root nnodes decCur : Nat) (tv cv : Bool) :
    deserializeTree (counterOf x
      { s with root := root, nnodes := nnodes, decCur := decCur, treeValid := tv, ctValid := cv }) =
      Body.counterOf x (deserializeTree s) := by
  unfold deserializeTree
  change (match deserNode walkFuel ⟨headerBits s, 0, [], s.node⟩ with
    | some (r, d) => _
    | none => _) = _
  cases deserNode walkFuel ⟨headerBits s, 0, [], s.node⟩ with
  | none => rfl
  | some p => simp only [Body.counterOf_ite]; rfl

/-- UNPACK does not look at the session. -/
theorem unpackBody_sessionClear (s : State) :
    unpackBody (sessionClear s) = thenBody (unpackBody s) fun t => .ok (sessionClear t) := by
  have ite_then : ∀ (c : Prop) [Decidable c] (a b : Body) (f : State → Body),
      thenBody (if c then a else b) f = if c then thenBody a f else thenBody b f := by
    intro c _ a b f; split <;> rfl
  unfold unpackBody
  simp only [ite_then]
  rfl

/-- DEC_RUN always has a next state. -/
theorem decRun_next (s : State) : ∃ t, exec .decRun s = .next t := by
  change ∃ t, runCommand s (guarded s.treeValid (decRunBody s)) decRunOnError = .next t
  cases s.treeValid with
  | false => exact ⟨_, runCommand_raise s .sequence decRunOnError⟩
  | true =>
    cases h : decRunBody s with
    | ok t => exact ⟨_, rfl⟩
    | error e => rcases decRunBody_error h with rfl | rfl <;> exact ⟨_, rfl⟩

/-- TS_DESERIALIZE always has a next state. -/
theorem tsDeserialize_next (s : State) : ∃ t, exec .tsDeserialize s = .next t := by
  change ∃ t, runCommand s (deserializeTree s) deserializeOnError = .next t
  cases h : deserializeTree s with
  | ok t => exact ⟨_, rfl⟩
  | error e => rw [deserializeTree_error h]; exact ⟨_, rfl⟩

end Sys2Proof.Machine
end

