-- ==== Sys2Proof/Laws/Words.lean ====
section
/-!
SUPPORT. The fields of a command word, and when a word selects a row of the opcode map
(30_encoding.md R71 to R74).
-/

namespace Sys2Proof

/-- A word is its three fields. -/
theorem word_of_fields (w : Word) : (rsvField w ++ argField w) ++ opField w = w := by
  apply BitVec.eq_of_getLsbD_eq
  intro i hi
  simp only [BitVec.getLsbD_append, rsvField, argField, opField, BitVec.getLsbD_extractLsb']
  by_cases h1 : i < 8
  · simp [h1]
  · by_cases h2 : i < 16
    · have h3 : i - 8 < 8 := by omega
      simp [h1, h3, show 8 + (i - 8) = i by omega]
    · have h3 : ¬ i - 8 < 8 := by omega
      have h4 : i - 8 - 8 < 16 := by omega
      simp [h1, h3, h4, show 16 + (i - 8 - 8) = i by omega]

/-- Words with the same fields are the same. -/
theorem word_ext {v w : Word} (h1 : rsvField v = rsvField w) (h2 : argField v = argField w)
    (h3 : opField v = opField w) : v = w := by
  rw [← word_of_fields v, ← word_of_fields w, h1, h2, h3]

theorem rsvField_and (v w : Word) : rsvField (v &&& w) = rsvField v &&& rsvField w :=
  BitVec.extractLsb'_and

theorem argField_and (v w : Word) : argField (v &&& w) = argField v &&& argField w :=
  BitVec.extractLsb'_and

theorem opField_and (v w : Word) : opField (v &&& w) = opField v &&& opField w :=
  BitVec.extractLsb'_and

/-- A word selects a row when each of its fields does. -/
theorem selects_iff (r : OpRow) (w : Word) : r.selects w = true ↔
    rsvField w &&& rsvField r.mask = rsvField r.pattern ∧
      argField w &&& argField r.mask = argField r.pattern ∧
      opField w &&& opField r.mask = opField r.pattern := by
  rw [OpRow.selects, beq_iff_eq, ← rsvField_and, ← argField_and, ← opField_and]
  constructor
  · intro h
    rw [h]
    exact ⟨rfl, rfl, rfl⟩
  · rintro ⟨h1, h2, h3⟩
    exact word_ext h1 h2 h3

/-- A row whose ARG kind is `none` (30_encoding.md R72). -/
theorem selects_none {r : OpRow} {w : Word} {p : Byte} (hm : r.mask = 0xFFFFFFFF#32)
    (hp : r.pattern = (0#16 ++ 0#8) ++ p) :
    r.selects w = true ↔ rsvField w = 0#16 ∧ argField w = 0#8 ∧ opField w = p := by
  have e1 : rsvField r.mask = BitVec.allOnes 16 := by rw [hm]; decide
  have e2 : argField r.mask = BitVec.allOnes 8 := by rw [hm]; decide
  have e3 : opField r.mask = BitVec.allOnes 8 := by rw [hm]; decide
  have f : ∀ p : Byte, rsvField ((0#16 ++ 0#8) ++ p) = 0#16 ∧ argField ((0#16 ++ 0#8) ++ p) = 0#8 ∧
      opField ((0#16 ++ 0#8) ++ p) = p := by decide
  rw [selects_iff, e1, e2, e3, hp, (f p).1, (f p).2.1, (f p).2.2, BitVec.and_allOnes,
    BitVec.and_allOnes, BitVec.and_allOnes]

/-- A row whose ARG kind is `byte` (30_encoding.md R72). -/
theorem selects_byte {r : OpRow} {w : Word} {p : Byte} (hm : r.mask = 0xFFFF00FF#32)
    (hp : r.pattern = (0#16 ++ 0#8) ++ p) :
    r.selects w = true ↔ rsvField w = 0#16 ∧ opField w = p := by
  have e1 : rsvField r.mask = BitVec.allOnes 16 := by rw [hm]; decide
  have e2 : argField r.mask = 0#8 := by rw [hm]; decide
  have e3 : opField r.mask = BitVec.allOnes 8 := by rw [hm]; decide
  have f : ∀ p : Byte, rsvField ((0#16 ++ 0#8) ++ p) = 0#16 ∧ argField ((0#16 ++ 0#8) ++ p) = 0#8 ∧
      opField ((0#16 ++ 0#8) ++ p) = p := by decide
  rw [selects_iff, e1, e2, e3, hp, (f p).1, (f p).2.1, (f p).2.2, BitVec.and_allOnes,
    BitVec.and_allOnes, BitVec.and_zero]
  simp

/-- The row whose ARG kind is `bit` (30_encoding.md R72). -/
theorem selects_bit {r : OpRow} {w : Word} {p : Byte} (hm : r.mask = 0xFFFFFEFF#32)
    (hp : r.pattern = (0#16 ++ 0#8) ++ p) :
    r.selects w = true ↔ rsvField w = 0#16 ∧ (argField w).toNat < 2 ∧ opField w = p := by
  have e1 : rsvField r.mask = BitVec.allOnes 16 := by rw [hm]; decide
  have e2 : argField r.mask = 0xFE#8 := by rw [hm]; decide
  have e3 : opField r.mask = BitVec.allOnes 8 := by rw [hm]; decide
  have f : ∀ p : Byte, rsvField ((0#16 ++ 0#8) ++ p) = 0#16 ∧ argField ((0#16 ++ 0#8) ++ p) = 0#8 ∧
      opField ((0#16 ++ 0#8) ++ p) = p := by decide
  have g : ∀ a : Byte, a &&& 0xFE#8 = 0#8 ↔ a.toNat < 2 := by decide
  rw [selects_iff, e1, e2, e3, hp, (f p).1, (f p).2.1, (f p).2.2, BitVec.and_allOnes,
    BitVec.and_allOnes, g]

/-- The decoder refuses a word that selects no row, with the name of its case. -/
theorem decode_error_iff {w : Word} {e : DecodeError} : decode w = .error e ↔
    (∀ r ∈ opRows, r.selects w = false) ∧ e = rejection w := by
  rw [decode]
  cases h : opRows.find? fun r => r.selects w with
  | none =>
    rw [List.find?_eq_none] at h
    simp only [Except.error.injEq, eq_comm (b := e)]
    exact ⟨fun h' => ⟨fun r hr => by simpa using h r hr, h'⟩, fun h' => h'.2⟩
  | some r =>
    simp only [reduceCtorEq, false_iff]
    rintro ⟨h1, -⟩
    have := h1 r (List.mem_of_find?_eq_some h)
    have h2 := List.find?_some h
    rw [this] at h2
    cases h2

/-- The decoder answers the command of a row the word selects. -/
theorem decode_ok {w : Word} {i : Instr} (h : decode w = .ok i) :
    ∃ r ∈ opRows, r.selects w = true ∧ i = r.build (argField w) := by
  rw [decode] at h
  cases hf : opRows.find? fun r => r.selects w with
  | none => rw [hf] at h; cases h
  | some r =>
    rw [hf] at h
    simp only [Except.ok.injEq] at h
    exact ⟨r, List.mem_of_find?_eq_some hf, by simpa using List.find?_some hf, h.symm⟩

end Sys2Proof
end

