-- ==== Sys2Proof/Tests/Slice0.lean ====
section
/-!
SUPPORT. Tests.  Expected values come from 95_test_vectors.md and 30_encoding.md; each theorem names
the vector or the rule.  The second part shows, for every obligation with hypotheses, data that meet
all of them together.
-/

namespace Sys2Proof.Tests

set_option Elab.async false

open Sys2Proof.Machine

/-! ### Well-formedness, decoding -/

/-- 30_encoding.md R72: ARG[7:1] of DEC_BIT must be 0; 2 and 255 are not bits. -/
theorem test_wellFormed_refuses_decBit_2 :
    (Instr.decBit 0x02#8).wellFormed = false ∧ (Instr.decBit 0xFF#8).wellFormed = false ∧
      (Instr.decBit 0x01#8).wellFormed = true := by decide

/-- 30_encoding.md R73: the control words, OP in bits 7:0. -/
theorem test_decode_control :
    decode 0b00000000000000000000000000000000#32 = .ok .nop ∧
    decode 0b00000000000000000000000000000001#32 = .ok .softReset ∧
    decode 0b00000000000000000000000000000010#32 = .ok .clrErr ∧
    decode 0b00000000000000000000000000000011#32 = .ok .xfer := by decide

/-- 30_encoding.md R73, 95_test_vectors.md FC1: the frequency counter words; ARG 'a' = 0x61 in
bits 15:8. -/
theorem test_decode_counter :
    decode 0b00000000000000000000000000010000#32 = .ok .fcClear ∧
    decode 0b00000000000000000110000100010001#32 = .ok (.fcPush 0x61#8) ∧
    decode 0b00000000000000000000000000010010#32 = .ok .fcScan := by decide

/-- 30_encoding.md R73: the tree and code table words. -/
theorem test_decode_tree :
    decode 0b00000000000000000000000000100000#32 = .ok .tbBuild ∧
    decode 0b00000000000000000000000000110000#32 = .ok .ctDerive ∧
    decode 0b00000000000000000000000001010000#32 = .ok .tsSerialize ∧
    decode 0b00000000000000000000000001010001#32 = .ok .tsDeserialize := by decide

/-- 30_encoding.md R73: the encoder words; ARG 0x62 in bits 15:8. -/
theorem test_decode_encoder :
    decode 0b00000000000000000000000001000000#32 = .ok .encBegin ∧
    decode 0b00000000000000000110001001000001#32 = .ok (.encPush 0x62#8) ∧
    decode 0b00000000000000000000000001000010#32 = .ok .encScan := by decide

/-- 30_encoding.md R73: the decoder words; the bit of DEC_BIT is bit 8. -/
theorem test_decode_decoder :
    decode 0b00000000000000000000000001100000#32 = .ok .decBegin ∧
    decode 0b00000000000000000000000101100001#32 = .ok (.decBit 0x01#8) ∧
    decode 0b00000000000000000000000001100001#32 = .ok (.decBit 0x00#8) ∧
    decode 0b00000000000000000000000001100010#32 = .ok .decEnd ∧
    decode 0b00000000000000000000000001100011#32 = .ok .decRun := by decide

/-- 30_encoding.md R73: the container words. -/
theorem test_decode_container :
    decode 0b00000000000000000000000001110000#32 = .ok .pack ∧
    decode 0b00000000000000000000000001110001#32 = .ok .unpack ∧
    decode 0b00000000000000000000000001110010#32 = .ok .compress ∧
    decode 0b00000000000000000000000001110011#32 = .ok .decompress := by decide

/-- 95_test_vectors.md section 2.1: the illegal words, by the case of 30_encoding.md R74. -/
theorem test_decode_illegal :
    decode 0x00000004#32 = .error .unknownOpcode ∧ decode 0x000000FF#32 = .error .unknownOpcode ∧
    decode 0x00000100#32 = .error .argNotZero ∧ decode 0x00000110#32 = .error .argNotZero ∧
    decode 0x00000261#32 = .error .argNotBit ∧ decode 0x00010000#32 = .error .reservedNotZero ∧
    decode 0x00010012#32 = .error .reservedNotZero := by decide

/-- 30_encoding.md R73: the table has 22 rows. -/
theorem test_rows_count : opRows.length = 22 := by decide

/-- 30_encoding.md R73: no word selects two rows, since any two patterns differ in a bit that both
masks fix. -/
theorem test_rows_disjoint :
    opRows.Pairwise (fun r q => (r.pattern ^^^ q.pattern) &&& r.mask &&& q.mask ≠ 0#32) := by
  decide +kernel

/-! ### Small states -/

/-- The outcome is a next state. -/
def isNext (o : Host.Outcome State Fault Refusal) : Bool :=
  match o with
  | .next _ => true
  | .fault _ => false
  | .refused _ => false

/-- The state a next outcome holds, else `s`. -/
def nextOr (s : State) (o : Host.Outcome State Fault Refusal) : State :=
  match o with
  | .next t => t
  | .fault _ => s
  | .refused _ => s

/-- The state after `i`. -/
def after (i : Instr) (s : State) : State := nextOr s (exec i s)

theorem eq_next_nextOr {o : Host.Outcome State Fault Refusal} (s : State) (h : isNext o = true) :
    o = .next (nextOr s o) := by
  cases o <;> simp_all [isNext, nextOr]

theorem exec_after {i : Instr} {s : State} (h : isNext (exec i s) = true) :
    exec i s = .next (after i s) := eq_next_nextOr s h

/-- The state at reset with `bs` in IBUF and IN_LEN set. -/
def loaded (bs : List Byte) : State :=
  { State.reset with ibuf := bufWrite State.reset.ibuf 0 bs, inLen := bs.length }

/-- "aaabbc". -/
def aaabbc : List Byte := [0x61#8, 0x61#8, 0x61#8, 0x62#8, 0x62#8, 0x63#8]

/-- The artifact of "aaabbc" (95_test_vectors.md S1). -/
def artifactS1 : List Byte :=
  [0x00#8, 0x1D#8, 0x00#8, 0x00#8, 0x00#8, 0x09#8, 0x58#8, 0x56#8, 0x3B#8, 0x10#8, 0x1F#8, 0x00#8]

/-- The counts of "aaabbc". -/
def counted : State :=
  { loaded aaabbc with freq := [(0x61, 3), (0x62, 2), (0x63, 1)], total := 6, nsym := 3 }

/-- The tree of "aaabbc" (95_test_vectors.md S1), with its node numbers. -/
def treeS1 : CodeTree :=
  .node 4 (.leaf 0 0x61#8) (.node 3 (.leaf 2 0x63#8) (.leaf 1 0x62#8))

/-- `counted` with that tree. -/
def treed : State :=
  { counted with
    node := bufWrite State.reset.node 0 [leafNode 0x61#8 3, leafNode 0x62#8 2, leafNode 0x63#8 1,
      internalNode 3 2 1, internalNode 6 0 3]
    root := 4, nnodes := 5, decCur := 4, treeValid := true, ftLock := true }

/-- `treed` with its code table. -/
def coded : State := after .ctDerive treed

/-- A degenerate tree over 'A'. -/
def single : State :=
  { State.reset with
    node := bufWrite State.reset.node 0 [leafNode 0x41#8 4], root := 0, nnodes := 1, decCur := 0
    treeValid := true }

/-- `bits` in CBUF. -/
def withContent (s : State) (bits : Bits) : State :=
  { s with cbuf := bufWrite s.cbuf 0 bits, cbits := bits.length }

/-- `bits` in HDR. -/
def withHeader (s : State) (bits : Bits) : State :=
  { s with hdr := bufWrite s.hdr 0 bits, hbits := bits.length }

/-- `bytes` in OBUF. -/
def withOutput (s : State) (bytes : List Byte) : State :=
  { s with obuf := bufWrite s.obuf 0 bytes, outLen := bytes.length }

/-- The content bits of "aaabbc": `000111110`. -/
def contentS1 : Bits := [false, false, false, true, true, true, true, true, false]

/-! ### One step per instruction -/

/-- CL4: STATUS = 0x102 after NOP. -/
theorem test_nop : statusWord (after .nop State.reset) = 0x102#32 := by decide +kernel

/-- CL10: SOFT_RESET clears IN_LEN and keeps IBUF. -/
theorem test_softReset :
    (after .softReset (loaded aaabbc)).inLen = 0 ∧
      ibufSlice (after .softReset (loaded aaabbc)) 0 6 = aaabbc := by decide +kernel

/-- CL11: CLR_ERR after ERRCODE = 0x2005 leaves ERRCODE 0 and STATUS 0x102. -/
theorem test_clrErr :
    let s := { State.reset with errCode := 0x05#8, errOp := 0x20#8, pend := 2#32, busy := true }
    errWord (after .clrErr s) = 0#32 ∧ statusWord (after .clrErr s) = 0x102#32 := by decide +kernel

/-- CL7: XFER copies the artifact. -/
theorem test_xfer : inputBytes (after .xfer (withOutput State.reset artifactS1)) = artifactS1 := by
  decide +kernel

/-- CL8: XFER raises LIMIT where IBUF is too small. -/
theorem test_xfer_limit :
    let s := { withOutput State.reset artifactS1 with ibufBytes := 8, pend := 3#32 }
    errWord (after .xfer s) = 0x0306#32 ∧ (after .xfer s).inLen = 0 := by decide +kernel

/-- FC6: FC_CLEAR unlocks the table and empties it. -/
theorem test_fcClear :
    (after .fcClear treed).ftLock = false ∧ freqAt (after .fcClear treed) 0x61 = 0 := by
  decide +kernel

/-- FC8: 0xFF is an ordinary symbol. -/
theorem test_fcPush :
    freqAt (after (.fcPush 0xFF#8) State.reset) 0xFF = 1 ∧
      (after (.fcPush 0xFF#8) State.reset).nsym = 1 := by decide +kernel

/-- FC4: FC_PUSH on a locked table raises SEQUENCE. -/
theorem test_fcPush_locked :
    errWord (after (.fcPush 0x61#8) { treed with pend := 0x6111#32 }) = 0x1105#32 := by
  decide +kernel

/-- FC2: the counts of "aaabbc". -/
theorem test_fcScan :
    (List.range 3).map (fun k => freqAt (after .fcScan (loaded aaabbc)) (0x61 + k)) = [3, 2, 1] ∧
      (after .fcScan (loaded aaabbc)).nsym = 3 := by decide +kernel

/-- S1: the tree of "aaabbc", with the tie of weight 3 broken towards the older node. -/
theorem test_tbBuild :
    (List.range 5).map (nodeAt (after .tbBuild counted)) =
      [leafNode 0x61#8 3, leafNode 0x62#8 2, leafNode 0x63#8 1, internalNode 3 2 1,
        internalNode 6 0 3] ∧ (after .tbBuild counted).root = 4 := by decide +kernel

/-- S1: a = 0, c = 10, b = 11. -/
theorem test_ctDerive :
    [0x61, 0x63, 0x62, 0x64].map (codeBitsAt coded) =
      [[false], [true, false], [true, true], []] := by decide +kernel

/-- ENC_BEGIN empties the content. -/
theorem test_encBegin : (after .encBegin (withContent State.reset contentS1)).cbits = 0 := by
  decide +kernel

/-- S1: the code of 'b' is appended after the content. -/
theorem test_encPush :
    contentBits (after (.encPush 0x62#8) (withContent coded [false])) = [false, true, true] := by
  decide +kernel

/-- A byte without a code raises INVARIANT (60_exceptions.md R141). -/
theorem test_encPush_invariant :
    errWord (after (.encPush 0x64#8) { coded with pend := 0x6441#32 }) = 0x4104#32 := by
  decide +kernel

/-- S1: the content of "aaabbc". -/
theorem test_encScan : contentBits (after .encScan coded) = contentS1 := by decide +kernel

/-- S1: the header `0 1 01100001 0 1 01100011 1 01100010`. -/
theorem test_tsSerialize :
    packBits (headerBits (after .tsSerialize treed)) = [0x58#8, 0x56#8, 0x3B#8, 0x10#8] ∧
      (after .tsSerialize treed).hbits = 29 := by decide +kernel

/-- The header of S1 gives its tree back, numbered in pre-order with weights 0
(46_tree_serializer.md R125). -/
theorem test_tsDeserialize :
    (List.range 5).map (nodeAt (after .tsDeserialize (withHeader State.reset treeS1.erase.header))) =
      [internalNode 0 1 2, leafNode 0x61#8 0, internalNode 0 3 4, leafNode 0x63#8 0,
        leafNode 0x62#8 0] := by decide +kernel

/-- DEC_BEGIN returns the cursor to ROOT and empties the output. -/
theorem test_decBegin :
    (after .decBegin { withOutput treed aaabbc with decCur := 3 }).decCur = 4 ∧
      (after .decBegin { withOutput treed aaabbc with decCur := 3 }).outLen = 0 := by decide +kernel

/-- S1: from node 3 a 0 reaches 'c'. -/
theorem test_decBit_emits :
    outputBytes (after (.decBit 0x00#8) { treed with decCur := 3 }) = [0x63#8] ∧
      (after (.decBit 0x00#8) { treed with decCur := 3 }).decCur = 4 := by decide +kernel

/-- S1: from the root a 1 moves to node 3. -/
theorem test_decBit_moves : (after (.decBit 0x01#8) treed).decCur = 3 := by decide +kernel

/-- 45_bitstream_decoder.md R119: an unfinished code is TRUNCATED_CONTENT. -/
theorem test_decEnd :
    errWord (after .decEnd { treed with decCur := 3, pend := 0x62#32 }) = 0x6202#32 := by
  decide +kernel

/-- S1: the content decodes to "aaabbc". -/
theorem test_decRun : outputBytes (after .decRun (withContent treed contentS1)) = aaabbc := by
  decide +kernel

/-- 45_bitstream_decoder.md R120: content that ends inside a code is TRUNCATED_CONTENT. -/
theorem test_decRun_truncated :
    errWord (after .decRun { withContent treed [false, true] with pend := 0x63#32 }) = 0x6302#32 := by
  decide +kernel

/-- S1: the artifact. -/
theorem test_pack :
    outputBytes (after .pack (withHeader (withContent State.reset contentS1) treeS1.erase.header)) =
      artifactS1 := by decide +kernel

/-- S1: UNPACK gives the 29 header bits and the 9 content bits. -/
theorem test_unpack :
    headerBits (after .unpack (loaded artifactS1)) = treeS1.erase.header ∧
      contentBits (after .unpack (loaded artifactS1)) = contentS1 := by decide +kernel

/-- S5: UNPACK of the artifact less its last byte. -/
theorem test_unpack_truncated :
    errWord (after .unpack { loaded (artifactS1.take 11) with pend := 0x71#32 }) = 0x7102#32 := by
  decide +kernel

/-- S1: COMPRESS of "aaabbc". -/
theorem test_compress : outputBytes (after .compress (loaded aaabbc)) = artifactS1 := by
  decide +kernel

/-- S4: COMPRESS of "A". -/
theorem test_compress_single :
    outputBytes (after .compress (loaded [0x41#8])) =
      [0x00#8, 0x09#8, 0x00#8, 0x00#8, 0x00#8, 0x01#8, 0xA0#8, 0x80#8, 0x00#8] := by
  decide +kernel

/-- S1: DECOMPRESS of the artifact. -/
theorem test_decompress : outputBytes (after .decompress (loaded artifactS1)) = aaabbc := by
  decide +kernel

/-- S5: DECOMPRESS of the artifact less its last byte: ERRCODE 0x7302, STATUS 0x106. -/
theorem test_decompress_truncated :
    let t := after .decompress { loaded (artifactS1.take 11) with pend := 0x73#32 }
    errWord t = 0x7302#32 ∧ statusWord t = 0x106#32 := by decide +kernel

/-! ### The bus and the turns -/

/-- CL1 to CL3: ID, the capacities and STATUS at reset. -/
theorem test_reads :
    [0x000, 0x038, 0x03C, 0x040, 0x008].map (fun off => (busRead off 4 State.reset).reads) =
      [[0x48554631#32], [0x1000#32], [0x1000#32], [0x8000#32], [0x100#32]] := by decide +kernel

/-- CL5: IN_LEN is clamped to IBUF_BYTES. -/
theorem test_inLen_clamped : (busWrite 0x014 0xFFFFFFFF#32 State.reset).inLen = 4096 := by
  decide +kernel

/-- CL12, CL13: a pending error blocks FC_SCAN, and CLR_ERR with ARG = 1. -/
theorem test_blocked :
    let s := { State.reset with errCode := 0x05#8, errOp := 0x20#8 }
    busWrite 0x004 0x12#32 s = s ∧ busWrite 0x004 0x102#32 s = s := by decide +kernel

/-- 95_test_vectors.md section 2.1, OVR: a command written while another is pending sets OVR. -/
theorem test_overrun :
    let s := { State.reset with busy := true, pend := 0x12#32 }
    (busWrite 0x004 0#32 s).ovr = true ∧ (busWrite 0x004 0#32 s).pend = 0x12#32 := by
  decide +kernel

/-- 95_test_vectors.md section 2.1: the word 0x110 raises ILLEGAL_CMD with ERR_OP = 0x10. -/
theorem test_illegal :
    let s := State.reset.withFetchWord 32 0x110
    errWord (nextOr s (step s)) = 0x1007#32 ∧ statusWord (nextOr s (step s)) = 0x106#32 := by
  decide +kernel

/-- The word placed by `withFetchWord` runs as the first instruction after reset. -/
theorem test_fetch :
    decodeTableWord 32 0x6111 = some (.fcPush 0x61#8) ∧
      freqAt (nextOr State.reset (step (State.reset.withFetchWord 32 0x6111))) 0x61 = 1 := by
  decide +kernel

/-- 30_encoding.md R77: `DO TB_BUILD` from reset is the CMD write, the engine's step and the poll. -/
theorem test_doCmd :
    lineEvents (.doCmd .tbBuild 0) =
      [.busWrite 0x004 4 0x20#32, .engine, .poll 0] := by decide +kernel

/-- 95_test_vectors.md section 4: the FC_SCAN that a pending error blocks, with IRQ_EN = 3.  Its WAIT
ends at once, with STATUS = 0x306. -/
theorem test_wait_ends_at_once :
    let s := { State.reset with
      errCode := 0x05#8, errOp := 0x20#8, done := true, doneIe := true, errIe := true
      agenda := lineEvents (.doCmd .fcScan 3) }
    (endState 9 s).map (fun t => t.reads) = some [0x306#32] := by decide +kernel

/-- 30_encoding.md R77: a WAIT polls until it reads BUSY = 0; here two polls come before the engine's
step (CL4: NOP leaves STATUS 0x102). -/
theorem test_wait_polls :
    (endState 9 { State.reset with agenda := lineEvents (.doCmd .nop 2) }).map (fun t => t.reads) =
      some [0x102#32, 0x101#32, 0x101#32] := by decide +kernel

/-- 70_reset_and_hazards.md R162: a run with a refused access has no end state. -/
theorem test_refused_has_no_end :
    endState 9 { State.reset with agenda := [.busRead 0x002 4] } = none := by decide +kernel

/-- 70_reset_and_hazards.md R160, R162: of OBUF the observation holds the output alone. -/
theorem test_observation :
    (observation (withOutput (State.resetWith 1 3 1) [0x41#8])).filter
        (fun p => decide (0x2000000 ≤ p.1 ∧ p.1 < 0x3000000)) = [(0x2000000, 0x41#32)] := by
  decide +kernel

/-! ### Witnesses: data that meet all hypotheses of an obligation together -/

/-- The states above that commands start from hold trees. -/
theorem treed_holds : HoldsTree treed treeS1 :=
  ⟨rfl, by decide +kernel, by decide +kernel, by decide, rfl, by decide⟩

theorem coded_holds : HoldsTree coded treeS1 :=
  ⟨by decide +kernel, by decide +kernel, by decide +kernel, by decide, by decide +kernel, by decide⟩

theorem single_holds : HoldsTree single (.leaf 0 0x41#8) :=
  ⟨rfl, by decide +kernel, by decide +kernel, by decide, rfl, by decide⟩

/-- A state whose CODE_LEN nothing has written has its lengths in range if the registers have. -/
theorem lengths_of_unwritten {s : State} (h : s.codeLen.cells = [])
    (hr : s.inLen ≤ s.ibufBytes ∧ s.outLen ≤ s.obufBytes ∧ s.cbits ≤ s.cbufBits ∧ s.hbits ≤ 2559 ∧
      s.nnodes ≤ 511 ∧ s.root < 512 ∧ s.decCur < 512) : LengthsInRange s :=
  ⟨hr.1, hr.2.1, hr.2.2.1, hr.2.2.2.1, hr.2.2.2.2.1, hr.2.2.2.2.2.1, hr.2.2.2.2.2.2, fun x _ => by
    have := (Config.freeLen s.codeLen.gen x).isLt
    simp only [codeLenAt, bufGet, h, cellGet, freeCodeLen]
    omega⟩

theorem loaded_caps (bs : List Byte) : CapsLegal (loaded bs) := by
  simp [CapsLegal, loaded, State.reset, State.resetWith, Config.ibufBytes, Config.obufBytes,
    Config.cbufBits]

theorem aaabbc_lengths : LengthsInRange (loaded aaabbc) :=
  lengths_of_unwritten rfl (by decide)

theorem counted_counts : CountsExact counted := by decide +kernel

theorem treed_inv : Inv treed where
  caps := loaded_caps aaabbc
  lengths := lengths_of_unwritten rfl (by decide +kernel)
  arrays := by decide +kernel
  counts := by decide +kernel
  flags := by decide +kernel
  errors := by decide +kernel
  tree := fun _ => ⟨by decide +kernel, treeS1, treed_holds, .inl rfl, fun h => absurd h (by decide)⟩

/-- `s` with the command word `w` accepted. -/
def pending (w : Word) (s : State) : State := { s with pend := w, busy := true }

/-- Steps run: a decodable and an illegal word, with and without turns of the host. -/
theorem witness_StepRunsThePendingCommand :
    (pending 0x12#32 State.reset).busy = true ∧ decode 0x12#32 = .ok .fcScan ∧
      (pending 0x12#32 State.reset).agenda = [] ∧
      (State.reset.withFetchWord 32 0x12).agenda = .engine :: [] ∧
      decode 0x110#32 = .error .argNotZero := by decide +kernel

/-- Every turn can be the next one, the first and the last poll of a WAIT among them; a run that is over,
and one whose next access is refused. -/
theorem witness_StepTakesTheHostsTurns :
    step { State.reset with agenda := [.busRead 0x002 4] } =
        .refused (.inadmissibleAccess 0x002 4) ∧
      State.reset.busy = false ∧ runOver State.reset = true ∧ endState 0 State.reset = some State.reset ∧
      ({ pending 0#32 State.reset with agenda := [.poll 0] }).agenda = .poll 0 :: [] ∧
      ({ pending 0#32 State.reset with agenda := [.poll 1] }).agenda = .poll 1 :: [] ∧
      ({ State.reset with agenda := [.engine] }).agenda = .engine :: [] ∧
      ({ State.reset with agenda := [.busRead 0x008 4] }).agenda = .busRead 0x008 4 :: [] ∧
      ({ State.reset with agenda := [.busWrite 0x004 4 0#32] }).agenda =
        .busWrite 0x004 4 0#32 :: [] := ⟨rfl, by decide +kernel⟩

/-- The three cases of acceptance. -/
theorem witness_CommandAcceptance :
    let e := { State.reset with errCode := 0x05#8 }
    (pending 0#32 State.reset).busy = true ∧
      (e.busy = false ∧ e.errCode ≠ 0#8 ∧ 0x102#32 ≠ 0x1#32 ∧ 0x102#32 ≠ 0x2#32) ∧
      (State.reset.busy = false ∧ State.reset.errCode = 0#8) := by decide +kernel

/-- The edges of the regions: the last register word, a byte of it, the last bytes of IBUF and OBUF,
a word there, a misaligned word, and the end of the aperture. -/
theorem witness_InadmissibleAccessesAreRefused :
    inadmissible 0xFFC 1 ∧ ¬ inadmissible 0xFFC 4 ∧ inadmissible 0xFFD 4 ∧ ¬ inadmissible 0x1FFFFFF 1 ∧
      inadmissible 0x1FFFFFC 4 ∧ ¬ inadmissible 0x2FFFFFF 1 ∧ ¬ inadmissible 0x3FFFFFC 4 ∧
      inadmissible 0x4000000 4 ∧ ¬ inadmissible 0x6140 1 ∧ inadmissible 0 2 := by
  norm_num [inadmissible, wordRegion, byteRegion]

/-- A read that answers; and states that agree, or differ only where the observation does not look. -/
theorem witness_ReadsChangeNothing :
    hostRead 0x008 4 State.reset = .next (busRead 0x008 4 State.reset) ∧
      State.reset.busy = false ∧ CapsLegal State.reset ∧
      (0x2000000, 0x41#32) ∈ observation (withOutput (State.resetWith 1 3 1) [0x41#8]) ∧
      ({ treed with reads := [0#32], freeCtr := 99 }) = { treed with
        reads := ({ treed with reads := [0#32], freeCtr := 99 }).reads
        freeCtr := ({ treed with reads := [0#32], freeCtr := 99 }).freeCtr } ∧
      (bufSet treed.node 5 (leafNode 0#8 1) ≠ treed.node ∧ treed.treeValid = true ∧
        treed.root < treed.nnodes ∧
        ∀ k < treed.nnodes, arenaAt (bufSet treed.node 5 (leafNode 0#8 1)) k = nodeAt treed k) ∧
      treed.ctValid = false ∧ (withOutput State.reset [0x41#8]).outLen ≤ 1 :=
  ⟨rfl, rfl, loaded_caps [], by decide +kernel, by decide +kernel, by decide +kernel,
    by decide +kernel, by decide +kernel⟩

/-- BUSY = 1, the edges of what reads as an arbitrary value, and of what reads 0. -/
theorem witness_BusyReads :
    (pending 0#32 State.reset).busy = true ∧ ¬ inadmissible 0x034 4 ∧
      (¬ inadmissible 0x1000 4 ∧ 0x1000 ≤ 0x1000 ∧ wordRegion 0x1000) ∧
      (¬ inadmissible 0x613C 4 ∧ 0x1000 ≤ 0x613C ∧ wordRegion 0x613C) ∧
      (¬ inadmissible 0x2FFFFFF 1 ∧ byteRegion 0x2FFFFFF) ∧
      (¬ inadmissible 0x044 4 ∧ ¬ inadmissible 0xFFC 4) ∧
      (¬ inadmissible 0x1400 1 ∧ ¬ wordRegion 0x1400 ∧ ¬ byteRegion 0x1400) ∧
      (¬ inadmissible 0x6140 4 ∧ ¬ wordRegion 0x6140 ∧ ¬ byteRegion 0x6140) := by
  norm_num [inadmissible, wordRegion, byteRegion, pending]

/-- BUSY = 0, the edges of the reserved registers, the reserved words of the NODE window, and the edges
of the unmapped offsets. -/
theorem witness_IdleRegisterReads :
    State.reset.busy = false ∧ (0x044 ≤ 0x044 ∧ 0x044 ≤ 0xFFC ∧ 0x044 % 4 = 0) ∧
      (0x044 ≤ 0xFFC ∧ 0xFFC ≤ 0xFFC ∧ 0xFFC % 4 = 0) ∧ (0x2FF8 % 4 = 0 ∧ 0x2FFC % 4 = 0) ∧
      (¬ inadmissible 0x1400 4 ∧ ¬ wordRegion 0x1400 ∧ ¬ byteRegion 0x1400) ∧
      (¬ inadmissible 0xFFFFFF 1 ∧ ¬ wordRegion 0xFFFFFF ∧ ¬ byteRegion 0xFFFFFF) := by
  norm_num [inadmissible, wordRegion, byteRegion, State.reset, State.resetWith]

/-- Valid and stale tables: the last valid node, the first stale one, the last entry of the arena. -/
theorem witness_TableWindowReads :
    coded.busy = false ∧ (255 < 256 ∧ coded.ctValid = true) ∧
      (4 < 511 ∧ coded.treeValid = true ∧ 4 < coded.nnodes) ∧
      (5 < 511 ∧ coded.nnodes ≤ 5) ∧ (510 < 511 ∧ State.reset.treeValid = false) ∧
      (State.reset.busy = false ∧ State.reset.ctValid = false ∧ 0x5FFC % 4 = 0) := by decide +kernel

/-- The edges of the buffer windows: the last byte of the output, the first one past it, the first one
past OBUF. -/
theorem witness_BufferWindowReads :
    let s := withOutput State.reset aaabbc
    s.busy = false ∧ (5 < s.obufBytes ∧ 5 < s.outLen) ∧ (6 < s.obufBytes ∧ s.outLen ≤ 6) ∧
      s.obufBytes ≤ 4096 ∧ 1023 < (s.cbufBits + 31) / 32 ∧ (s.cbufBits + 31) / 32 ≤ 1024 := by
  decide +kernel

/-- BUSY = 0. -/
theorem witness_IdleWrites : State.reset.busy = false := rfl

/-- BUSY = 1, the first and the last byte of IBUF, and the first one past it. -/
theorem witness_BusyWrites :
    (pending 0#32 State.reset).busy = true ∧ 0x1000FFF < 0x1000000 + State.reset.ibufBytes ∧
      ¬ 0x1001000 < 0x1000000 + State.reset.ibufBytes ∧ ¬ inadmissible 0x1001000 1 := by
  decide +kernel

/-- A reset turn is next. -/
theorem witness_HardwareReset :
    ({ pending 0#32 treed with agenda := [.reset] }).agenda = .reset :: [] := rfl

/-- The least and the greatest capacities. -/
theorem witness_ResetMeetsTheInvariants :
    CapsLegal (State.resetWith 1 1 1) ∧ CapsLegal (State.resetWith (2 ^ 24) (2 ^ 24) (2 ^ 27)) := by
  decide

/-- A state with a tree. -/
theorem witness_OneEffectCommandsComplete : treed.treeValid = true := rfl

/-- The preconditions that fail. -/
theorem witness_SequenceErrors :
    treed.ftLock = true ∧ State.reset.total = 0 ∧ State.reset.treeValid = false ∧
      State.reset.ctValid = false ∧ State.reset.hbits = 0 := by decide +kernel

/-- An output that fits IBUF exactly, and one that is one byte too long. -/
theorem witness_XferCopiesTheOutput :
    let s := withOutput State.reset artifactS1
    s.outLen ≤ ({ s with ibufBytes := 12 }).ibufBytes ∧ ({ s with ibufBytes := 11 }).ibufBytes < s.outLen := by
  decide +kernel

/-- A table with room for one more count, and a full one. -/
theorem witness_FcPushCountsOneByte :
    State.reset.ftLock = false ∧ State.reset.total ≠ 2 ^ 32 - 1 ∧
      ({ State.reset with total := 2 ^ 32 - 1 }).total = 2 ^ 32 - 1 := by decide +kernel

/-- Input that fits the counts exactly, and one byte too much; and exact counts. -/
theorem witness_FcScanCountsTheInput :
    let s := { loaded aaabbc with total := 2 ^ 32 - 7 }
    let u := { loaded aaabbc with total := 2 ^ 32 - 6 }
    (s.ftLock = false ∧ s.total + s.inLen ≤ 2 ^ 32 - 1) ∧
      (u.ftLock = false ∧ u.total ≤ 2 ^ 32 - 1 ∧ 2 ^ 32 - 1 < u.total + u.inLen) ∧
      CountsExact (loaded aaabbc) := by decide +kernel

/-- The counts of "aaabbc". -/
theorem witness_TbBuildBuildsOneFullTree : CountsExact counted ∧ 0 < counted.total := by
  decide +kernel

/-- The tree of "aaabbc", and its first and its last merge. -/
theorem witness_MergesFollowTheKeyOrder :
    (CountsExact counted ∧ 0 < counted.total) ∧
      exec .tbBuild counted = .next (after .tbBuild counted) ∧
      counted.nsym ≤ 3 ∧ 3 < 4 ∧ 4 < (after .tbBuild counted).nnodes :=
  ⟨by decide +kernel, exec_after (by decide +kernel), by decide +kernel⟩

/-- The same counts in another state. -/
theorem witness_TbBuildDependsOnFreqAlone :
    let s' := { treed with ctValid := false }
    (CountsExact counted ∧ CountsExact s' ∧ 0 < counted.total ∧
      ∀ x < 256, freqAt counted x = freqAt s' x) ∧
      exec .tbBuild counted = .next (after .tbBuild counted) ∧
      exec .tbBuild s' = .next (after .tbBuild s') :=
  ⟨by decide +kernel, exec_after (by decide +kernel), exec_after (by decide +kernel)⟩

/-- 'a' is more frequent than 'c' in "aaabbc". -/
theorem witness_HigherCountNoLongerCode :
    (CountsExact counted ∧ 0 < counted.total ∧ 0 < freqAt counted 0x63 ∧
      freqAt counted 0x63 < freqAt counted 0x61) ∧
      exec .tbBuild counted = .next (after .tbBuild counted) ∧
      exec .ctDerive (after .tbBuild counted) = .next (after .ctDerive (after .tbBuild counted)) :=
  ⟨by decide +kernel, exec_after (by decide +kernel), exec_after (by decide +kernel)⟩

/-- A proper tree and a degenerate one. -/
theorem witness_CtDeriveGivesThePaths :
    (treed.treeValid = true ∧ HoldsTree treed treeS1) ∧
      (single.treeValid = true ∧ HoldsTree single (.leaf 0 0x41#8)) :=
  ⟨⟨rfl, treed_holds⟩, rfl, single_holds⟩

/-- Two codes of "aaabbc". -/
theorem witness_CodesArePrefixFree :
    treed.treeValid = true ∧ HoldsTree treed treeS1 ∧ exec .ctDerive treed = .next coded ∧
      (0x61#8 : Byte) ≠ 0x62#8 ∧ 0 < codeLenAt coded 0x61 ∧ 0 < codeLenAt coded 0x62 :=
  ⟨rfl, treed_holds, exec_after (by decide +kernel), by decide +kernel⟩

/-- A byte without a code, one whose code fits exactly, and one whose code is one bit too long. -/
theorem witness_EncPushAppendsOneCode :
    coded.ctValid = true ∧ codeLenAt coded 0x64 = 0 ∧
      (codeLenAt coded 0x62 ≠ 0 ∧
        ({ coded with cbufBits := 1 }).cbufBits < coded.cbits + (codeOf coded 0x62).length) ∧
      coded.cbits + (codeOf coded 0x62).length ≤ ({ coded with cbufBits := 2 }).cbufBits := by
  decide +kernel

/-- The whole input fits; the third byte has no code; the fourth does not fit. -/
theorem witness_EncScanAppendsTheInput :
    let s := { coded with
      ibuf := bufWrite State.reset.ibuf 0 [0x61#8, 0x62#8, 0x64#8], inLen := 3 }
    let u := { coded with cbufBits := 4 }
    (coded.ctValid = true ∧ (∀ b ∈ inputBytes coded, codeLenAt coded b.toNat ≠ 0) ∧
      coded.cbits + ((inputBytes coded).flatMap fun b => codeOf coded b.toNat).length ≤
        coded.cbufBits) ∧
      (inputBytes s = [0x61#8, 0x62#8] ++ 0x64#8 :: [] ∧ codeLenAt s 0x64 = 0 ∧
        (∀ c ∈ [0x61#8, 0x62#8], codeLenAt s c.toNat ≠ 0) ∧
        s.cbits + ([0x61#8, 0x62#8].flatMap fun c : Byte => codeOf s c.toNat).length ≤ s.cbufBits) ∧
      inputBytes u = [0x61#8, 0x61#8, 0x61#8] ++ 0x62#8 :: [0x62#8, 0x63#8] ∧
        codeLenAt u 0x62 ≠ 0 ∧
        u.cbits + ([0x61#8, 0x61#8, 0x61#8].flatMap fun c : Byte => codeOf u c.toNat).length ≤
          u.cbufBits ∧
        u.cbufBits < u.cbits +
          (([0x61#8, 0x61#8, 0x61#8] ++ [0x62#8]).flatMap fun c : Byte => codeOf u c.toNat).length := by
  decide +kernel

/-- A degenerate tree; a bit that ends at a leaf; one that ends at an Internal node; a full OBUF. -/
theorem witness_DecBitConsumesOneBit :
    (single.treeValid = true ∧ (nodeAt single single.root).kind = .leaf ∧
      single.outLen ≠ single.obufBytes) ∧
      (treed.treeValid = true ∧ (nodeAt treed treed.root).kind = .internal ∧
        (nodeAt treed (nodeAt treed treed.decCur).left).kind = .leaf ∧
        (nodeAt treed (nodeAt treed treed.decCur).right).kind = .internal ∧
        treed.outLen ≠ treed.obufBytes) ∧
      ({ treed with outLen := 4096 }).outLen = treed.obufBytes := by decide +kernel

/-- The cursor at the root, and off it. -/
theorem witness_DecEndChecksTheCursor :
    treed.treeValid = true ∧ treed.decCur = treed.root ∧
      ({ treed with decCur := 3 }).decCur ≠ treed.root := by decide +kernel

/-- The content of "aaabbc", and a degenerate tree. -/
theorem witness_DecRunDecodesTheCodes :
    (HoldsTree (withContent treed contentS1) treeS1 ∧
      contentBits (withContent treed contentS1) = treeS1.erase.encode aaabbc ∧
      (∀ b ∈ aaabbc, b ∈ treeS1.erase.symbols) ∧
      aaabbc.length ≤ (withContent treed contentS1).obufBytes) ∧
      HoldsTree (withContent single [true, false]) (.leaf 0 0x41#8) ∧
      List.replicate (withContent single [true, false]).cbits 0x41#8 = [0x41#8, 0x41#8] :=
  ⟨⟨⟨rfl, by decide +kernel, by decide +kernel, by decide, rfl, by decide⟩, by decide +kernel,
    by decide +kernel, by decide +kernel⟩,
    ⟨rfl, by decide +kernel, by decide +kernel, by decide, rfl, by decide⟩, by decide +kernel⟩

/-- Content that ends inside the code of 'b', content for more bytes than OBUF holds, and under a
degenerate tree two bits, one of them 1, where OBUF holds one byte. -/
theorem witness_DecRunErrors :
    (HoldsTree (withContent treed [false, true]) treeS1 ∧
      (treeS1.erase.code 0x62#8 = [true] ++ [true] ∧
        contentBits (withContent treed [false, true]) = treeS1.erase.encode [0x61#8] ++ [true] ∧
        (∀ b ∈ [0x61#8], b ∈ treeS1.erase.symbols) ∧
        [0x61#8].length ≤ (withContent treed [false, true]).obufBytes)) ∧
      HoldsTree { withContent treed contentS1 with obufBytes := 5 } treeS1 ∧
      ({ withContent treed contentS1 with obufBytes := 5 }).obufBytes < aaabbc.length ∧
      contentBits { withContent treed contentS1 with obufBytes := 5 } =
        treeS1.erase.encode aaabbc ++ [] ∧
      HoldsTree { withContent single [true, false] with obufBytes := 1 } (.leaf 0 0x41#8) ∧
      ({ withContent single [true, false] with obufBytes := 1 }).obufBytes <
        (withContent single [true, false]).cbits :=
  ⟨⟨⟨rfl, by decide +kernel, by decide +kernel, by decide, rfl, by decide⟩, by decide +kernel⟩,
    ⟨rfl, by decide +kernel, by decide +kernel, by decide, rfl, by decide⟩, by decide +kernel,
    by decide +kernel, ⟨rfl, by decide +kernel, by decide +kernel, by decide, rfl, by decide⟩,
    by decide +kernel⟩

/-- A tree. -/
theorem witness_TsSerializeWritesTheHeader : treed.treeValid = true ∧ HoldsTree treed treeS1 :=
  ⟨rfl, treed_holds⟩

/-- The header of "aaabbc". -/
theorem witness_TsDeserializeRebuildsTheTree :
    headerBits (withHeader State.reset treeS1.erase.header) = treeS1.erase.header ∧
      treeS1.erase.symbols.Nodup := by decide +kernel

/-- The empty header is no tree's. -/
theorem witness_TsDeserializeRejectsOtherHeaders :
    ∀ tree : SymTree, tree.symbols.Nodup → headerBits State.reset ≠ tree.header := by
  intro tree _ h
  cases tree <;> simp [SymTree.header, headerBits, bufSlice, State.reset, State.resetWith] at h

/-- A tree. -/
theorem witness_SerializeThenDeserialize : treed.treeValid = true ∧ HoldsTree treed treeS1 :=
  ⟨rfl, treed_holds⟩

/-- An artifact that fits OBUF exactly, and one byte too long. -/
theorem witness_PackWritesTheArtifact :
    let s := withHeader (withContent State.reset contentS1) treeS1.erase.header
    s.hbits ≠ 0 ∧ 6 + ceil8 s.hbits + ceil8 s.cbits ≤ ({ s with obufBytes := 12 }).obufBytes ∧
      ({ s with obufBytes := 11 }).obufBytes < 6 + ceil8 s.hbits + ceil8 s.cbits := by
  decide +kernel

/-- The artifact of "aaabbc", with pad bits 1. -/
theorem witness_UnpackSplitsTheArtifact :
    let hb : List Byte := [0x58#8, 0x56#8, 0x3B#8, 0x17#8]
    let cb : List Byte := [0x1F#8, 0x7F#8]
    let s := loaded (lengthFields 29 9 ++ hb ++ cb)
    inputBytes s = lengthFields 29 9 ++ hb ++ cb ∧ hb.length = ceil8 29 ∧ cb.length = ceil8 9 ∧
      1 ≤ 29 ∧ 29 ≤ 2559 ∧ 9 < 2 ^ 32 ∧ 9 ≤ s.cbufBits := by decide +kernel

/-- Each of UNPACK's errors, at the edge of its condition. -/
theorem witness_UnpackErrors :
    let h := fun s : State => natOfBytes (ibufSlice s 0 2)
    let n := fun s : State => natOfBytes (ibufSlice s 2 4)
    let t9 := loaded (artifactS1.take 9)
    let t11 := loaded (artifactS1.take 11)
    let t13 := loaded (artifactS1 ++ [0#8])
    let full := { loaded artifactS1 with cbufBits := 8 }
    (loaded (artifactS1.take 5)).inLen = 5 ∧
      (h (loaded [0#8, 0#8, 0#8, 0#8, 0#8, 0#8]) = 0) ∧
      (2559 < h (loaded [0x0A#8, 0#8, 0#8, 0#8, 0#8, 0#8])) ∧
      (1 ≤ h t9 ∧ h t9 ≤ 2559 ∧ 6 ≤ t9.inLen ∧ t9.inLen < 6 + ceil8 (h t9)) ∧
      (6 + ceil8 (h t11) ≤ t11.inLen ∧ t11.inLen < 6 + ceil8 (h t11) + ceil8 (n t11)) ∧
      6 + ceil8 (h t13) + ceil8 (n t13) < t13.inLen ∧
      (full.inLen = 6 + ceil8 (h full) + ceil8 (n full) ∧ full.cbufBits < n full) := by
  decide +kernel

/-- No input. -/
theorem witness_EmptyInputIsNoError : State.reset.inLen = 0 := rfl

/-- "aaabbc" in the buffers of reset. -/
theorem witness_CompressProducesTheArtifact :
    CapsLegal (loaded aaabbc) ∧ LengthsInRange (loaded aaabbc) ∧ 0 < (loaded aaabbc).inLen ∧
      255 * (loaded aaabbc).inLen ≤ (loaded aaabbc).cbufBits ∧
      326 + ceil8 (255 * (loaded aaabbc).inLen) ≤ (loaded aaabbc).obufBytes :=
  ⟨loaded_caps _, aaabbc_lengths, by decide +kernel⟩

/-- The tree TB_BUILD makes of the counts of "aaabbc". -/
theorem built_holds : HoldsTree (after .tbBuild counted) treeS1 :=
  ⟨by decide +kernel, by decide +kernel, by decide +kernel, by decide, by decide +kernel, by decide⟩

/-- "aaabbc", its counts and its tree; a content and an artifact that fit exactly, and each of them one
too long. -/
theorem witness_CompressFailsWithLimitOnly :
    let s := loaded aaabbc
    CapsLegal s ∧ LengthsInRange s ∧ 0 < s.inLen ∧ (∀ x : Byte, freqAt counted x.toNat = (inputBytes s).count x) ∧
      CountsExact counted ∧ exec .tbBuild counted = .next (after .tbBuild counted) ∧
      HoldsTree (after .tbBuild counted) treeS1 ∧
      (CompressFits { s with cbufBits := 9, obufBytes := 12 } treeS1.erase ∧
        ¬ CompressFits { s with cbufBits := 8, obufBytes := 12 } treeS1.erase ∧
        ¬ CompressFits { s with cbufBits := 9, obufBytes := 11 } treeS1.erase) :=
  ⟨loaded_caps _, aaabbc_lengths, by decide +kernel, by decide +kernel, counted_counts,
    exec_after (by decide +kernel), built_holds, by decide +kernel⟩

/-- UP10: the artifact of "aaabbc" with pad bits 1; and UP14: a degenerate tree with content `111`. -/
theorem witness_DecompressReadsTheArtifact :
    let tree := treeS1.erase
    let hb : List Byte := [0x58#8, 0x56#8, 0x3B#8, 0x17#8]
    let cb : List Byte := [0x1F#8, 0x7F#8]
    let s := loaded (lengthFields 29 9 ++ hb ++ cb)
    let leaf := SymTree.leaf 0x41#8
    let u := loaded [0x00#8, 0x09#8, 0x00#8, 0x00#8, 0x00#8, 0x03#8, 0xA0#8, 0x80#8, 0xFF#8]
    (tree.symbols.Nodup ∧ tree.header.length = 29 ∧
      inputBytes s = lengthFields tree.header.length 9 ++ hb ++ cb ∧ hb.length = ceil8 29 ∧
      cb.length = ceil8 9 ∧ (hb.flatMap bits8).take 29 = tree.header ∧
      ((cb.flatMap bits8).take 9 = tree.encode aaabbc ∧ ∀ b ∈ aaabbc, b ∈ tree.symbols) ∧
      9 < 2 ^ 32 ∧ 9 ≤ s.cbufBits ∧ aaabbc.length ≤ s.obufBytes) ∧
      leaf.symbols.Nodup ∧
        inputBytes u = lengthFields leaf.header.length 3 ++ [0xA0#8, 0x80#8] ++ [0xFF#8] ∧
        2 = ceil8 leaf.header.length ∧ 1 = ceil8 3 ∧
        ([0xA0#8, 0x80#8].flatMap bits8).take leaf.header.length = leaf.header ∧
        3 ≤ u.cbufBits ∧ (List.replicate 3 0x41#8).length ≤ u.obufBytes := by decide +kernel

/-- UP14: a degenerate header with content `111`. -/
theorem test_decompress_degenerate :
    let t := after .decompress
      (loaded [0x00#8, 0x09#8, 0x00#8, 0x00#8, 0x00#8, 0x03#8, 0xA0#8, 0x80#8, 0xFF#8])
    outputBytes t = [0x41#8, 0x41#8, 0x41#8] ∧ statusWord t = 0x1A2#32 := by decide +kernel

/-- No error pending, with an input and without one. -/
theorem witness_DecompressFailsCleanly :
    ((loaded (artifactS1.take 11)).errCode = 0#8 ∧ (loaded (artifactS1.take 11)).inLen ≠ 0) ∧
      State.reset.errCode = 0#8 ∧ State.reset.inLen = 0 := by decide +kernel

/-- "aaabbc" through COMPRESS and XFER; and six bytes 'A' with an OBUF of 9 bytes, which holds the
artifact and the six bytes. -/
theorem witness_CompressDecompressRoundTrip :
    let s := loaded aaabbc
    let a := after .compress s
    CapsLegal s ∧ LengthsInRange s ∧ exec .compress s = .next a ∧
      exec .xfer a = .next (after .xfer a) ∧
      (s.errCode = 0#8 ∧ a.errCode = 0#8 ∧ (after .xfer a).errCode = 0#8 ∧
        s.inLen ≤ s.obufBytes) :=
  ⟨loaded_caps _, aaabbc_lengths, exec_after (by decide +kernel), exec_after (by decide +kernel),
    by decide +kernel⟩

/-- Ten bytes 'A' compress to nine bytes, which an OBUF of nine bytes holds, though not the input. -/
theorem witness_CompressDecompressRoundTrip_limit :
    let s := { loaded (List.replicate 10 0x41#8) with obufBytes := 10, cbufBits := 16 }
    let u := { loaded (List.replicate 16 0x41#8) with obufBytes := 10, cbufBits := 16 }
    let a := after .compress u
    CapsLegal u ∧ LengthsInRange u ∧ exec .compress u = .next a ∧
      exec .xfer a = .next (after .xfer a) ∧
      (u.errCode = 0#8 ∧ a.errCode = 0#8 ∧ (after .xfer a).errCode = 0#8 ∧
        u.obufBytes < u.inLen) ∧ s.inLen = s.obufBytes :=
  ⟨by decide +kernel, lengths_of_unwritten rfl (by decide +kernel), exec_after (by decide +kernel),
    exec_after (by decide +kernel), by decide +kernel⟩

/-- The same input in a fresh state and in one with an older session. -/
theorem witness_CompressDependsOnTheInputAlone :
    let s := loaded aaabbc
    let s' := { treed with inLen := 6 }
    CapsLegal s ∧ LengthsInRange s ∧ CapsLegal s' ∧ LengthsInRange s' ∧
      exec .compress s = .next (after .compress s) ∧
      exec .compress s' = .next (after .compress s') ∧
      (s.errCode = 0#8 ∧ s'.errCode = 0#8 ∧ inputBytes s = inputBytes s' ∧
        s.cbufBits = s'.cbufBits ∧ s.obufBytes = s'.obufBytes) :=
  ⟨loaded_caps _, aaabbc_lengths, loaded_caps aaabbc, lengths_of_unwritten rfl (by decide +kernel),
    exec_after (by decide +kernel), exec_after (by decide +kernel), by decide +kernel⟩

/-- The artifact of "aaabbc" less its last byte. -/
theorem witness_TruncatedArtifactIsDetected :
    let s := loaded aaabbc
    let a := after .compress s
    let d := loaded (artifactS1.take 11)
    CapsLegal s ∧ LengthsInRange s ∧ exec .compress s = .next a ∧
      (s.errCode = 0#8 ∧ 0 < s.inLen ∧ a.errCode = 0#8 ∧
        inputBytes d = (outputBytes a).dropLast) :=
  ⟨loaded_caps _, aaabbc_lengths, exec_after (by decide +kernel), by decide +kernel⟩

/-- Every command of the frames has a next state. -/
theorem witness_frames :
    [Instr.nop, .clrErr, .softReset, .xfer, .fcClear, .fcPush 0x61#8, .fcScan, .tbBuild, .ctDerive,
      .tsSerialize, .tsDeserialize, .encBegin, .encPush 0x61#8, .encScan, .decBegin, .decBit 0x01#8,
      .decEnd, .decRun, .pack, .unpack, .compress, .decompress].all
        (fun i => isNext (exec i coded)) = true := by decide +kernel

/-- A decode without an error, and a header that is read. -/
theorem witness_frames_success :
    (after .decRun (withContent treed contentS1)).errCode = 0#8 ∧
      (after .tsDeserialize (withHeader State.reset treeS1.erase.header)).treeValid = true ∧
      (after .compress (loaded aaabbc)).errCode = 0#8 ∧
      (after .decompress (loaded artifactS1)).errCode = 0#8 := by decide +kernel

/-- A state with a session that meets the invariants, and a step from it. -/
theorem witness_StepKeeps : Inv treed ∧ step treed = .next treed := ⟨treed_inv, rfl⟩

/-- The invariants hold with a command pending, and the engine has a step. -/
theorem witness_NoCommandIsStuck :
    Inv (pending 0x30#32 treed) ∧ isNext (step (pending 0x30#32 treed)) = true :=
  ⟨⟨loaded_caps aaabbc, lengths_of_unwritten rfl (by decide +kernel), by decide +kernel,
    by decide +kernel, by decide +kernel, by decide +kernel,
    fun _ => ⟨by decide +kernel, treeS1, ⟨rfl, by decide +kernel, by decide +kernel, by decide, rfl, by decide⟩,
      .inl rfl, fun h => absurd h (by decide)⟩⟩, by decide +kernel⟩

/-- A pending error, and CLR_ERR pending. -/
theorem witness_ErrorsAreNeverOverwritten :
    let s := pending 0x2#32 { State.reset with errCode := 0x05#8, errOp := 0x20#8 }
    ErrorsOk s ∧ s.errCode ≠ 0#8 ∧ isNext (step s) = true := by decide +kernel

end Sys2Proof.Tests
end

section
/-!
The commands as one family: each is `runCommand` on a body and a change on an error, so that what every
command keeps is said of the bodies and the changes alone.
-/

namespace Sys2Proof.Machine

/-- The pseudocode of a command, its SEQUENCE check included (40_control.md R84). -/
def commandBody : Instr → State → Body
  | .nop, s => .ok s
  | .softReset, s => .ok (softReset s)
  | .clrErr, s => .ok (errorReturn s)
  | .xfer, s => xferBody s
  | .fcClear, s => .ok (sessionClear s)
  | .fcPush b, s => guarded (!s.ftLock) (count1 b s)
  | .fcScan, s => guarded (!s.ftLock) (countAll (inputBytes s) s)
  | .tbBuild, s => guarded (s.total != 0) (buildTree s)
  | .ctDerive, s => guarded s.treeValid (deriveCodes s)
  | .encBegin, s => .ok { s with cbits := 0 }
  | .encPush b, s => guarded s.ctValid (code1 b s)
  | .encScan, s => guarded s.ctValid (codeAll (inputBytes s) s)
  | .tsSerialize, s => guarded s.treeValid (serializeTree s)
  | .tsDeserialize, s => deserializeTree s
  | .decBegin, s => guarded s.treeValid (.ok (rewind s))
  | .decBit arg, s => guarded s.treeValid (decStep (argBit arg) s)
  | .decEnd, s => guarded s.treeValid (endCheck s)
  | .decRun, s => guarded s.treeValid (decRunBody s)
  | .pack, s => guarded (s.hbits != 0) (packBody s)
  | .unpack, s => unpackBody s
  | .compress, s => compressBody s
  | .decompress, s => decompressBody s

/-- The "On error" changes of a command. -/
def commandOnError : Instr → ErrKind → State → State
  | .tsDeserialize => deserializeOnError
  | .decEnd => decEndOnError
  | .decRun => decRunOnError
  | .pack => packOnError
  | .unpack => unpackOnError
  | .compress => compressOnError
  | .decompress => decompressOnError
  | _ => keepAll

/-- Every command is its body, run to its end (40_control.md R83). -/
theorem exec_eq_runCommand (i : Instr) (s : State) :
    exec i s = runCommand s (commandBody i s) (commandOnError i) := by cases i <;> rfl

/-- Everything a command that answers can do: end, or raise an error. -/
theorem exec_next_iff {i : Instr} {s t : State} :
    exec i s = .next t ↔
      (∃ s1, commandBody i s = .ok s1 ∧ t = complete s1) ∨
        ∃ e, commandBody i s = .error (.raise e) ∧
          t = complete (errorEntry e (commandOnError i e s)) := by
  rw [exec_eq_runCommand, runCommand_next_iff]

/-! ### Commands of one byte or bit -/

theorem countAll_singleton (b : Byte) (s : State) : countAll [b] s = count1 b s := by
  rw [countAll]; cases count1 b s <;> rfl

theorem codeAll_singleton (b : Byte) (s : State) : codeAll [b] s = code1 b s := by
  rw [codeAll]; cases code1 b s <;> rfl

theorem decAll_singleton (b : Bool) (s : State) : decAll [b] s = decStep b s := by
  rw [decAll]; cases decStep b s <;> rfl

/-! ### The block -/

/-- An empty content buffer (44_bitstream_encoder.md R110). -/
theorem encBegin_block {s : State} (h : BlockOk s) : BlockOk { s with cbits := 0 } := by
  obtain ⟨hin, hout, -, hrest⟩ := h.lengths
  exact ⟨h.caps, ⟨hin, hout, Nat.zero_le _, hrest⟩, h.arrays, h.counts, h.flags,
    h.tree.congr rfl rfl rfl rfl rfl rfl rfl rfl⟩

/-- The body of every command keeps the invariants of the block. -/
theorem commandBody_block {i : Instr} {s t : State} (h : BlockOk s) (hb : commandBody i s = .ok t) :
    BlockOk t := by
  cases i with
  | nop => cases hb; exact h
  | softReset => cases hb; exact softReset_block h
  | clrErr => cases hb; exact h.congr rfl
  | xfer => exact xferBody_block h hb
  | fcClear => cases hb; exact sessionClear_block h
  | fcPush b => exact countAll_block h ((countAll_singleton b s).trans (guarded_eq_ok.mp hb).2)
  | fcScan => exact countAll_block h (guarded_eq_ok.mp hb).2
  | tbBuild =>
    obtain ⟨h0, hb⟩ := guarded_eq_ok.mp hb
    exact buildTree_block h (Nat.pos_of_ne_zero (bne_iff_ne.mp h0)) hb
  | ctDerive =>
    obtain ⟨hv, hb⟩ := guarded_eq_ok.mp hb
    exact deriveCodes_block h hv hb
  | encBegin => cases hb; exact encBegin_block h
  | encPush b => exact codeAll_block h ((codeAll_singleton b s).trans (guarded_eq_ok.mp hb).2)
  | encScan => exact codeAll_block h (guarded_eq_ok.mp hb).2
  | tsSerialize => exact serializeTree_block h (guarded_eq_ok.mp hb).2
  | tsDeserialize => exact deserializeTree_block h hb
  | decBegin =>
    obtain ⟨-, hb⟩ := guarded_eq_ok.mp hb
    cases hb
    exact rewind_block h
  | decBit arg =>
    obtain ⟨hv, hb⟩ := guarded_eq_ok.mp hb
    exact decAll_block h hv ((decAll_singleton _ s).trans hb)
  | decEnd =>
    obtain ⟨-, rfl⟩ := endCheck_ok_iff.mp (guarded_eq_ok.mp hb).2
    exact h
  | decRun =>
    obtain ⟨hv, hb⟩ := guarded_eq_ok.mp hb
    exact decRunBody_block h hv hb
  | pack => exact packBody_block h (guarded_eq_ok.mp hb).2
  | unpack => exact unpackBody_block h hb
  | compress => exact compressBody_block h hb
  | decompress => exact decompressBody_block h hb

/-- The "On error" changes of every command keep the invariants of the block. -/
theorem commandOnError_block (i : Instr) (e : ErrKind) {s : State} (h : BlockOk s) :
    BlockOk (commandOnError i e s) := by
  cases i
  case tsDeserialize => exact deserializeOnError_block (e := e) h
  case decEnd => exact decEndOnError_block (e := e) h
  case decRun => exact decRunOnError_block (e := e) h
  case pack => exact packOnError_block (e := e) h
  case unpack => exact unpackOnError_block (e := e) h
  case compress => exact compressOnError_block (e := e) h
  case decompress => exact decompressOnError_block (e := e) h
  all_goals exact h

/-- Every command keeps the invariants of the block. -/
theorem exec_block {i : Instr} {s t : State} (h : BlockOk s) (ht : exec i s = .next t) :
    BlockOk t := by
  rcases exec_next_iff.mp ht with ⟨s1, hb, rfl⟩ | ⟨e, -, rfl⟩
  · exact (commandBody_block h hb).congr rfl
  · exact (commandOnError_block i e h).congr rfl

/-! ### The error registers -/

/-- ERR_CODE and ERR_OP of `t` are those of `s`. -/
abbrev ErrorRegsKept (s t : State) : Prop := t.errCode = s.errCode ∧ t.errOp = s.errOp

/-- The error registers read off a frame `t = { s with … }`. -/
theorem ErrorRegsKept.of_eq {s t u : State} (hu : t = u) (h : ErrorRegsKept s u) :
    ErrorRegsKept s t := hu ▸ h

theorem xferBody_keepsErrorRegs {s t : State} (hb : xferBody s = .ok t) : ErrorRegsKept s t := by
  unfold xferBody at hb
  split at hb
  · cases hb
  · cases hb; exact ⟨rfl, rfl⟩

theorem unpackBody_keepsErrorRegs {s t : State} (hb : unpackBody s = .ok t) : ErrorRegsKept s t := by
  rcases unpackBody_cases hb with ⟨-, rfl⟩ | ⟨-, -, -, -, rfl⟩
  · exact ⟨rfl, rfl⟩
  · exact ⟨rfl, rfl⟩

theorem decRunBody_keepsErrorRegs {s t : State} (hb : decRunBody s = .ok t) : ErrorRegsKept s t := by
  obtain ⟨s1, h1, h2⟩ := thenBody_eq_ok.mp hb
  obtain ⟨-, rfl⟩ := endCheck_ok_iff.mp h2
  exact .of_eq (decAll_frame h1) ⟨rfl, rfl⟩

theorem compressBody_keepsErrorRegs {s t : State} (hb : compressBody s = .ok t) :
    ErrorRegsKept s t := by
  by_cases h0 : s.inLen = 0
  · rw [compressBody, if_pos h0] at hb
    cases hb
    exact ⟨rfl, rfl⟩
  · exact .of_eq (compressBody_frame h0 hb).1 ⟨rfl, rfl⟩

/-- A command that ends without an error leaves ERR_CODE and ERR_OP as they are, but for SOFT_RESET and
CLR_ERR, which clear both (40_control.md R85, R88, R89). -/
theorem commandBody_errorRegs {i : Instr} {s t : State} (hb : commandBody i s = .ok t) :
    ErrorRegsKept s t ∨ (i = .softReset ∨ i = .clrErr) ∧ t.errCode = 0#8 ∧ t.errOp = 0#8 := by
  cases i with
  | softReset => cases hb; exact .inr ⟨.inl rfl, rfl, rfl⟩
  | clrErr => cases hb; exact .inr ⟨.inr rfl, rfl, rfl⟩
  | nop => cases hb; exact .inl ⟨rfl, rfl⟩
  | xfer => exact .inl (xferBody_keepsErrorRegs hb)
  | fcClear => cases hb; exact .inl ⟨rfl, rfl⟩
  | fcPush b => exact .inl (.of_eq (count1_ok_iff.mp (guarded_eq_ok.mp hb).2).2 ⟨rfl, rfl⟩)
  | fcScan => exact .inl (.of_eq (countAll_frame (guarded_eq_ok.mp hb).2) ⟨rfl, rfl⟩)
  | tbBuild => exact .inl (.of_eq (buildTree_frame (guarded_eq_ok.mp hb).2).1 ⟨rfl, rfl⟩)
  | ctDerive =>
    obtain ⟨codes, -, rfl⟩ := deriveCodes_ok_iff.mp (guarded_eq_ok.mp hb).2
    exact .inl ⟨rfl, rfl⟩
  | encBegin => cases hb; exact .inl ⟨rfl, rfl⟩
  | encPush b =>
    obtain ⟨-, -, rfl⟩ := code1_ok_iff.mp (guarded_eq_ok.mp hb).2
    exact .inl ⟨rfl, rfl⟩
  | encScan => exact .inl (.of_eq (codeAll_frame (guarded_eq_ok.mp hb).2) ⟨rfl, rfl⟩)
  | tsSerialize =>
    obtain ⟨header, -, -, rfl⟩ := serializeTree_ok_iff.mp (guarded_eq_ok.mp hb).2
    exact .inl ⟨rfl, rfl⟩
  | tsDeserialize =>
    obtain ⟨d, -, -, rfl⟩ := deserializeTree_ok_iff.mp hb
    exact .inl ⟨rfl, rfl⟩
  | decBegin =>
    obtain ⟨-, hb⟩ := guarded_eq_ok.mp hb
    cases hb
    exact .inl ⟨rfl, rfl⟩
  | decBit arg => exact .inl (.of_eq (decStep_frame (guarded_eq_ok.mp hb).2) ⟨rfl, rfl⟩)
  | decEnd =>
    obtain ⟨-, rfl⟩ := endCheck_ok_iff.mp (guarded_eq_ok.mp hb).2
    exact .inl ⟨rfl, rfl⟩
  | decRun => exact .inl (decRunBody_keepsErrorRegs (guarded_eq_ok.mp hb).2)
  | pack =>
    obtain ⟨-, rfl⟩ := packBody_ok_iff.mp (guarded_eq_ok.mp hb).2
    exact .inl ⟨rfl, rfl⟩
  | unpack => exact .inl (unpackBody_keepsErrorRegs hb)
  | compress => exact .inl (compressBody_keepsErrorRegs hb)
  | decompress => exact .inl (.of_eq (decompressBody_frame hb).1 ⟨rfl, rfl⟩)

/-- The code of an error is one that can be raised, and never 0 (60_exceptions.md R136, R140). -/
theorem errCodeOf_raisable (e : ErrKind) :
    errCodeOf e ∈ [0x00#8, 0x01#8, 0x02#8, 0x04#8, 0x05#8, 0x06#8, 0x07#8] ∧ errCodeOf e ≠ 0#8 := by
  cases e <;> decide

/-- A raised error leaves the error registers consistent, whatever they held (60_exceptions.md R148). -/
theorem errorEntry_errorsOk (e : ErrKind) (s : State) : ErrorsOk (complete (errorEntry e s)) := by
  obtain ⟨hmem, hne⟩ := errCodeOf_raisable e
  exact ⟨hmem, fun h0 => absurd h0 hne, fun hbusy => by cases hbusy⟩

/-- Error registers that are consistent stay so when they are kept and no command is pending. -/
theorem ErrorsOk.of_kept {s t : State} (h : ErrorsOk s) (hk : ErrorRegsKept s t)
    (hbusy : t.busy = false) : ErrorsOk t := by
  obtain ⟨hmem, hop, -⟩ := h
  obtain ⟨hc, ho⟩ := hk
  rw [ErrorsOk, hc, ho, hbusy]
  exact ⟨hmem, hop, fun h => by cases h⟩

/-- Cleared error registers are consistent: no error is pending. -/
theorem errorsOk_of_cleared {s : State} (hc : s.errCode = 0#8) (ho : s.errOp = 0#8) : ErrorsOk s := by
  rw [ErrorsOk, hc, ho]
  exact ⟨List.mem_cons_self, fun _ => rfl, fun _ hne => absurd rfl hne⟩

/-- Every command keeps the error registers consistent. -/
theorem exec_errorsOk {i : Instr} {s t : State} (h : ErrorsOk s) (ht : exec i s = .next t) :
    ErrorsOk t := by
  rcases exec_next_iff.mp ht with ⟨s1, hb, rfl⟩ | ⟨e, -, rfl⟩
  · rcases commandBody_errorRegs hb with hk | ⟨-, hc, ho⟩
    · exact h.of_kept hk rfl
    · exact errorsOk_of_cleared hc ho
  · exact errorEntry_errorsOk e _

end Sys2Proof.Machine
end

section
/-!
Every step keeps the invariants of 10_state.md R46: one lemma per kind of turn, then the step.
-/

namespace Sys2Proof.Machine

/-- The invariants do not read the agenda, what has been read, or the count of free values. -/
theorem Inv.setBookkeeping {s : State} (h : Inv s) (agenda : List Event) (reads : List Word)
    (freeCtr : Nat) : Inv { s with agenda := agenda, reads := reads, freeCtr := freeCtr } :=
  (h.block.congr rfl).inv h.errors

/-- The engine's turn. -/
theorem engineTurn_inv {s t : State} (h : Inv s) (ht : engineTurn s = .next t) : Inv t := by
  rw [engineTurn] at ht
  split at ht
  · rw [engineStep] at ht
    split at ht
    · exact (exec_block h.block ht).inv (exec_errorsOk h.errors ht)
    · cases ht
      exact (h.block.congr rfl).inv (errorEntry_errorsOk .illegalCmd s)
  · cases ht
    exact h

/-- A host read. -/
theorem hostRead_inv {off n : Nat} {s t : State} (h : Inv s) (ht : hostRead off n s = .next t) :
    Inv t := by
  rw [hostRead] at ht
  split at ht
  · cases ht
    rw [busRead_frame]
    exact h.setBookkeeping _ _ _
  · cases ht

/-- IN_LEN after a host write, clamped to IBUF_BYTES (10_state.md R25). -/
theorem writeInLen_block {s : State} (h : BlockOk s) (v : Nat) :
    BlockOk { s with inLen := min v s.ibufBytes } := by
  obtain ⟨-, hrest⟩ := h.lengths
  exact ⟨h.caps, ⟨Nat.min_le_right _ _, hrest⟩, h.arrays, h.counts, h.flags,
    h.tree.congr rfl rfl rfl rfl rfl rfl rfl rfl⟩

/-- IBUF after a byte write within it (20_memory.md R57). -/
theorem writeIbuf_block {s : State} (h : BlockOk s) {a : Nat} (ha : a < s.ibufBytes) (v : Byte) :
    BlockOk { s with ibuf := bufSet s.ibuf a v } := by
  obtain ⟨hfreq, hnode, hlen, hbits, hhdr, hcbuf, hibuf, hobuf⟩ := h.arrays
  exact ⟨h.caps, h.lengths,
    ⟨hfreq, hnode, hlen, hbits, hhdr, hcbuf, bufOk_bufSet v hibuf ha, hobuf⟩, h.counts, h.flags,
    h.tree.congr rfl rfl rfl rfl rfl rfl rfl rfl⟩

/-- A command is accepted only where no error is pending or where it clears errors
(40_control.md R82). -/
theorem acceptCommand_errorsOk {s : State} (h : ErrorsOk s) {v : Word}
    (hv : s.errCode = 0#8 ∨ v = 0x00000001#32 ∨ v = 0x00000002#32) :
    ErrorsOk { s with pend := v, busy := true, done := false } := by
  obtain ⟨hmem, hop, -⟩ := h
  exact ⟨hmem, hop, fun _ hne => hv.resolve_left hne⟩

/-- A host write that is admitted. -/
theorem busWrite_inv {off : Nat} {v : Word} {s : State} (h : Inv s) : Inv (busWrite off v s) := by
  rcases busWrite_cases off v s with
    hw | hw | hw | hw | ⟨-, hw⟩ | ⟨-, hv, hw⟩ | ⟨a, ha, -, hw⟩ <;> rw [hw]
  · exact h
  · exact (h.block.congr rfl).inv h.errors
  · exact (h.block.congr rfl).inv h.errors
  · exact (h.block.congr rfl).inv h.errors
  · exact (writeInLen_block h.block _).inv h.errors
  · exact (h.block.congr rfl).inv (acceptCommand_errorsOk h.errors hv)
  · exact (writeIbuf_block h.block ha _).inv h.errors

/-- A host write. -/
theorem hostWrite_inv {off n : Nat} {v : Word} {s t : State} (h : Inv s)
    (ht : hostWrite off n v s = .next t) : Inv t := by
  rw [hostWrite] at ht
  split at ht
  · cases ht
    exact busWrite_inv h
  · cases ht

/-- A poll of a WAIT. -/
theorem waitPoll_inv {n : Nat} {s t : State} (h : Inv s) (ht : waitPoll n s = .next t) : Inv t := by
  rw [waitPoll_next] at ht
  cases ht
  exact h.setBookkeeping _ _ _

/-- A hardware reset (70_reset_and_hazards.md R157). -/
theorem hardReset_inv {s : State} (h : Inv s) : Inv (hardReset s) :=
  (hardReset_block h.block).inv (errorsOk_of_cleared rfl rfl)

/-- Every step keeps the invariants of 10_state.md R46. -/
theorem step_inv {s t : State} (h : Inv s) (ht : step s = .next t) : Inv t := by
  have hrest : ∀ rest, Inv { s with agenda := rest } := fun rest => h.setBookkeeping rest _ _
  rw [step] at ht
  split at ht
  next => exact engineTurn_inv h ht
  next rest _ => exact engineTurn_inv (hrest rest) ht
  next off n rest _ => exact hostRead_inv (hrest rest) ht
  next off n v rest _ => exact hostWrite_inv (hrest rest) ht
  next n rest _ => exact waitPoll_inv (hrest rest) ht
  next rest _ =>
    cases ht
    exact hardReset_inv (hrest rest)

/-- Settles O56: the capacities, lengths and arrays of the step-invariant `Inv`. -/
theorem stepKeepsLengthsAndArrays : Obligations.StepKeepsLengthsAndArrays := by
  intro s t h ht
  have hi := step_inv h ht
  exact ⟨hi.caps, hi.lengths, hi.arrays⟩

/-- Settles O57: the counts, session flags and error registers of the step-invariant `Inv`. -/
theorem stepKeepsCountsFlagsAndErrors : Obligations.StepKeepsCountsFlagsAndErrors := by
  intro s t h ht
  have hi := step_inv h ht
  exact ⟨hi.counts, hi.flags, hi.errors⟩

/-- Settles O58: the tree of the step-invariant `Inv`. -/
theorem stepKeepsTheTree : Obligations.StepKeepsTheTree := fun _ _ h ht => (step_inv h ht).tree

end Sys2Proof.Machine
end

section
/-!
Host accesses to single registers and bytes: the word of STATUS, what is read and what is written.
-/

namespace Sys2Proof.Machine

/-- STATUS.ERR, as the statements write it (10_state.md R22). -/
theorem errFlag_eq (s : State) : errFlag s = decide (s.errCode ≠ 0#8) := by
  simp [errFlag, bne, beq_eq_decide]

/-- IRQ_EN, as the statements write it (10_state.md R24). -/
theorem irqEnWord_eq (s : State) :
    irqEnWord s = BitVec.ofNat 32 (2 * s.errIe.toNat + s.doneIe.toNat) := by
  simp [irqEnWord, natOfBits]

/-- Word accesses to the register block are admitted (20_memory.md R62). -/
theorem regAccess_admissible (r : Reg) : ¬ inadmissible (regOffset r) 4 := by
  cases r <;> norm_num [inadmissible, wordRegion, byteRegion, regOffset]

/-- An admitted read while BUSY = 0 returns the value of `idleRead`, where the spec fixes one. -/
theorem hostRead_idle {s : State} {off n : Nat} {w : Word} (hb : s.busy = false)
    (ha : ¬ inadmissible off n) (hw : idleRead s off = some w) :
    hostRead off n s = .next { s with reads := w :: s.reads } := by
  have hv : readValue s off = some w := by simp [readValue, hb, hw]
  rw [hostRead_next s ha, busRead_some hv]

/-- A read of a register while BUSY = 0. -/
theorem hostRead_idle_reg {s : State} (hb : s.busy = false) (r : Reg) :
    hostRead (regOffset r) 4 s = .next { s with reads := regRead r s :: s.reads } := by
  rw [hostRead_next s (regAccess_admissible r), busRead_some (readValue_idle_reg hb r)]

/-- A write to a register. -/
theorem hostWrite_reg (r : Reg) (v : Word) (s : State) :
    hostWrite (regOffset r) 4 v s = .next (regWrite r v s) := by
  rw [hostWrite_next v s (regAccess_admissible r), busWrite_reg]

/-- Reserved words of the register block read 0 (20_memory.md R50). -/
theorem idleRead_reservedReg (s : State) {off : Nat} (h : 0x044 ≤ off) (h' : off ≤ 0xFFF) :
    idleRead s off = some 0#32 := by
  simp [idleRead, regionOf_regs h', regAt_reserved h]

/-- The words of the NODE window after the last node read 0 (20_memory.md R50). -/
theorem idleRead_pastNodes (s : State) {off : Nat} (h : 0x2FF8 ≤ off) (h' : off ≤ 0x2FFF) :
    idleRead s off = some 0#32 := by
  have hk : (off - 0x2000) / 8 ≥ 511 := by omega
  simp [idleRead, regionOf_node (by omega) h', hk]

/-- An offset outside the word and the byte regions is unmapped (20_memory.md R50). -/
theorem regionOf_unmapped {off : Nat} (hw : ¬ wordRegion off) (hb : ¬ byteRegion off) :
    regionOf off = .unmapped := by
  rcases regionOf_cases off with h | h | h | h | h | h | h | h | h | h
  case inr.inr.inr.inr.inr.inr.inr.inr.inr => exact h.1
  all_goals
    obtain ⟨-, hlo, hhi⟩ := h
    unfold wordRegion at hw
    unfold byteRegion at hb
    omega

/-- Unmapped offsets read 0 (93_implementation_defined.md I13). -/
theorem idleRead_unmapped (s : State) {off : Nat} (hw : ¬ wordRegion off) (hb : ¬ byteRegion off) :
    idleRead s off = some 0#32 := by
  simp [idleRead, regionOf_unmapped hw hb]

/-- A byte write within the IBUF region while BUSY = 0 (20_memory.md R57). -/
theorem hostWrite_idle_ibuf {s : State} (v : Word) {a : Nat} (hb : s.busy = false)
    (ha : a < 0x1000000) : hostWrite (0x1000000 + a) 1 v s =
      .next (if a < s.ibufBytes then { s with ibuf := bufSet s.ibuf a (v.setWidth 8) } else s) := by
  have hadm : ¬ inadmissible (0x1000000 + a) 1 := by
    simp only [inadmissible, wordRegion, byteRegion]; omega
  have hreg : regionOf (0x1000000 + a) = .ibuf := regionOf_ibuf (by omega) (by omega)
  rw [hostWrite_next v s hadm]
  simp [busWrite, hreg, ibufWrite, hb]

/-- Settles O11: STATUS is the list `statusBits`, bit by bit. -/
theorem statusWordBits : Obligations.StatusWordBits := by
  intro s
  refine ⟨statusWord s, hostRead_status s, ?_⟩
  simp only [statusWord_bit, ← errFlag_eq]
  refine ⟨rfl, rfl, rfl, rfl, rfl, rfl, rfl, rfl, rfl, rfl, fun k hk => ?_⟩
  exact List.getD_eq_default _ _ hk

/-- Settles O10: the registers one by one, the reserved words, the unmapped offsets. -/
theorem idleRegisterReads : Obligations.IdleRegisterReads := by
  intro s hb
  have hreg := hostRead_idle_reg hb
  refine ⟨?_, ?_, ?_⟩
  · simp only [List.forall_mem_cons, ← irqEnWord_eq]
    exact ⟨hreg .id, hreg .cmd, hreg .errcode, hreg .irqEn, hreg .inLen, hreg .outLen, hreg .total,
      hreg .nsym, hreg .root, hreg .nnodes, hreg .hbits, hreg .cbits, hreg .decCur, hreg .capIbuf,
      hreg .capObuf, hreg .capCbuf, fun p hp => absurd hp List.not_mem_nil⟩
  · intro off hoff hal
    have hadm : ¬ inadmissible off 4 := by
      simp only [inadmissible, wordRegion, byteRegion]; omega
    rcases hoff with ⟨hlo, hhi⟩ | hnode
    · exact hostRead_idle hb hadm (idleRead_reservedReg s hlo (by omega))
    · exact hostRead_idle hb hadm (idleRead_pastNodes s (by omega) (by omega))
  · intro off n hadm hw hby
    exact hostRead_idle hb hadm (idleRead_unmapped s hw hby)

/-- Settles O14: the writes to IN_LEN, IRQ_EN and STATUS, and to the bytes of IBUF. -/
theorem idleWrites : Obligations.IdleWrites := by
  intro s v hb
  refine ⟨?_, hostWrite_reg .irqEn v s, hostWrite_reg .status v s, fun a ha => ?_⟩
  · have hin : regWrite .inLen v s = { s with inLen := min v.toNat s.ibufBytes } := by
      simp [regWrite, hb]
    exact hin ▸ hostWrite_reg .inLen v s
  · refine ⟨_, hostWrite_idle_ibuf v hb ha, ?_⟩
    by_cases hcap : a < s.ibufBytes
    · rw [if_pos hcap]
      refine ⟨rfl, fun b => ?_⟩
      simp only [hcap, and_true]
      exact bufGet_bufSet _ _ _ _ _
    · rw [if_neg hcap]
      exact ⟨rfl, fun b => by simp [hcap]⟩

end Sys2Proof.Machine
end

section
/-!
Which host accesses answer and which are refused, and reads of `any` while BUSY = 0.
-/

namespace Sys2Proof.Machine

/-- An inadmissible read is refused (20_memory.md R62). -/
theorem hostRead_refused {off n : Nat} (s : State) (h : inadmissible off n) :
    hostRead off n s = .refused (.inadmissibleAccess off n) := by
  rw [hostRead, if_neg fun ha => (admitted_iff off n).mp ha h]

/-- An inadmissible write is refused (20_memory.md R62). -/
theorem hostWrite_refused {off n : Nat} (v : Word) (s : State) (h : inadmissible off n) :
    hostWrite off n v s = .refused (.inadmissibleAccess off n) := by
  rw [hostWrite, if_neg fun ha => (admitted_iff off n).mp ha h]

/-- A read that answers was admitted, and its next state is that of `busRead`. -/
theorem hostRead_eq_next {off n : Nat} {s t : State} (h : hostRead off n s = .next t) :
    ¬ inadmissible off n ∧ t = busRead off n s := by
  have ha : ¬ inadmissible off n := fun hi => by rw [hostRead_refused s hi] at h; cases h
  rw [hostRead_next s ha] at h
  cases h
  exact ⟨ha, rfl⟩

/-- An admitted read while BUSY = 0 of an offset whose value the spec leaves open. -/
theorem hostRead_idle_any {s : State} {off n : Nat} (hb : s.busy = false)
    (ha : ¬ inadmissible off n) (hr : idleRead s off = none) : hostRead off n s =
      .next { s with reads := freeRead n s.freeCtr :: s.reads, freeCtr := s.freeCtr + 1 } := by
  have hv : readValue s off = none := by simp [readValue, hb, hr]
  rw [hostRead_next s ha, busRead_none hv]

/-- Settles O7: `admitted` is the complement of R62's list. -/
theorem inadmissibleAccessesAreRefused : Obligations.InadmissibleAccessesAreRefused := by
  intro s off n v
  exact ⟨fun h => ⟨hostRead_refused s h, hostWrite_refused v s h⟩,
    fun h => ⟨⟨_, hostRead_next s h⟩, _, hostWrite_next v s h⟩⟩

end Sys2Proof.Machine
end

section
/-!
Host reads while a command is pending.
-/

namespace Sys2Proof.Machine

/-- An admitted read while BUSY = 1 returns the value of `busyRead`, where the spec fixes one. -/
theorem hostRead_busy {s : State} {off n : Nat} {w : Word} (hb : s.busy = true)
    (ha : ¬ inadmissible off n) (hr : busyRead s off = some w) :
    hostRead off n s = .next { s with reads := w :: s.reads } := by
  have hv : readValue s off = some w := by simp [readValue, hb, hr]
  rw [hostRead_next s ha, busRead_some hv]

/-- An admitted read while BUSY = 1 of an offset whose value the spec leaves open. -/
theorem hostRead_busy_any {s : State} {off n : Nat} (hb : s.busy = true)
    (ha : ¬ inadmissible off n) (hr : busyRead s off = none) : hostRead off n s =
      .next { s with reads := freeRead n s.freeCtr :: s.reads, freeCtr := s.freeCtr + 1 } := by
  have hv : readValue s off = none := by simp [readValue, hb, hr]
  rw [hostRead_next s ha, busRead_none hv]

/-- A register that R59 lists reads its value while BUSY = 1. -/
theorem hostRead_busy_exactReg {s : State} (hb : s.busy = true) {r : Reg}
    (hr : exactWhileBusy r = true) :
    hostRead (regOffset r) 4 s = .next { s with reads := regRead r s :: s.reads } := by
  rw [hostRead_next s (regAccess_admissible r),
    busRead_some (by rw [readValue_busy_reg hb, if_pos hr])]

/-- Any other register reads `any` while BUSY = 1 (20_memory.md R59). -/
theorem hostRead_busy_otherReg {s : State} (hb : s.busy = true) {r : Reg} {n : Nat}
    (ha : ¬ inadmissible (regOffset r) n) (hr : exactWhileBusy r = false) :
    hostRead (regOffset r) n s = .next { s with
      reads := freeRead n s.freeCtr :: s.reads, freeCtr := s.freeCtr + 1 } := by
  rw [hostRead_next s ha, busRead_none (by rw [readValue_busy_reg hb, hr]; rfl)]

/-- Every window reads `any` while BUSY = 1 (20_memory.md R59). -/
theorem busyRead_window (s : State) {off : Nat}
    (h : (0x1000 ≤ off ∧ wordRegion off) ∨ byteRegion off) : busyRead s off = none := by
  rcases h with ⟨h, hw⟩ | ⟨hlo, hhi⟩
  · rcases hw with hw | hw | hw | hw | hw | hw | hw
    · omega
    · simp [busyRead, regionOf_freq hw.1 hw.2]
    · simp [busyRead, regionOf_node hw.1 hw.2]
    · simp [busyRead, regionOf_codeLen hw.1 hw.2]
    · simp [busyRead, regionOf_codeBits hw.1 hw.2]
    · simp [busyRead, regionOf_hdr hw.1 hw.2]
    · simp [busyRead, regionOf_cbuf hw.1 hw.2]
  · by_cases hi : off ≤ 0x1FFFFFF
    · simp [busyRead, regionOf_ibuf hlo hi]
    · simp [busyRead, regionOf_obuf (by omega) hhi]

/-- Reserved words of the register block read 0 while BUSY = 1 (93_implementation_defined.md I13). -/
theorem busyRead_reservedReg (s : State) {off : Nat} (h : 0x044 ≤ off) (h' : off ≤ 0xFFF) :
    busyRead s off = some 0#32 := by
  simp [busyRead, regionOf_regs h', regAt_reserved h]

/-- Unmapped offsets read 0 while BUSY = 1 (93_implementation_defined.md I13). -/
theorem busyRead_unmapped (s : State) {off : Nat} (hw : ¬ wordRegion off) (hb : ¬ byteRegion off) :
    busyRead s off = some 0#32 := by
  simp [busyRead, regionOf_unmapped hw hb]

/-- Settles O9: the seven exact registers, the other registers and the windows, the reserved and the
unmapped offsets. -/
theorem busyReads : Obligations.BusyReads := by
  intro s hb
  refine ⟨?_, fun off n ha => ⟨?_, ?_⟩⟩
  · rw [← irqEnWord_eq]
    exact ⟨hostRead_busy_exactReg hb (r := .id) rfl, hostRead_busy_exactReg hb (r := .status) rfl,
      hostRead_busy_exactReg hb (r := .errcode) rfl, hostRead_busy_exactReg hb (r := .irqEn) rfl,
      hostRead_busy_exactReg hb (r := .capIbuf) rfl, hostRead_busy_exactReg hb (r := .capObuf) rfl,
      hostRead_busy_exactReg hb (r := .capCbuf) rfl⟩
  · rintro (hreg | hwin)
    · have hlist : [0x004, 0x014, 0x018, 0x01C, 0x020, 0x024, 0x028, 0x02C, 0x030, 0x034] =
          (allRegs.filter fun r => !exactWhileBusy r).map regOffset := rfl
      rw [hlist] at hreg
      obtain ⟨r, hr, rfl⟩ := List.mem_map.mp hreg
      exact hostRead_busy_otherReg hb ha (by simpa using (List.mem_filter.mp hr).2)
    · exact hostRead_busy_any hb ha (busyRead_window s hwin)
  · rintro (⟨hlo, hhi⟩ | ⟨hw, hby⟩)
    · exact hostRead_busy hb ha (busyRead_reservedReg s hlo hhi)
    · exact hostRead_busy hb ha (busyRead_unmapped s hw hby)

end Sys2Proof.Machine
end

section
/-!
The turns of host and engine, and the end of a run.
-/

namespace Sys2Proof.Machine

/-- A run that has an end state ends in it. -/
theorem runOver_of_endState {n : Nat} {s t : State} (h : endState n s = some t) :
    runOver t = true := by
  induction n generalizing s with
  | zero =>
    rw [endState] at h
    split at h
    next hover => cases h; exact hover
    next => cases h
  | succ n ih =>
    rw [endState] at h
    split at h
    next hover => cases h; exact hover
    next =>
      split at h
      next => exact ih h
      next => cases h
      next => cases h

/-- A run whose next access is refused has no end state (70_reset_and_hazards.md R162). -/
theorem endState_of_refused {n : Nat} {s : State} {r : Refusal} (h : step s = .refused r) :
    endState n s = none := by
  have hover : ¬ runOver s = true := fun ho => by rw [step_of_runOver ho] at h; cases h
  cases n with
  | zero => rw [endState, if_neg hover]
  | succ n => rw [endState, if_neg hover, h]

/-- The turns that are left of a WAIT, as the statements write them (30_encoding.md R77). -/
theorem waitEvents_eq (n : Nat) :
    waitEvents n = if n = 0 then [.engine, .poll 0] else [.poll (n - 1)] := by
  cases n <;> rfl

/-- Settles O5: the turns by their kind, then the end of a run. -/
theorem stepTakesTheHostsTurns : Obligations.StepTakesTheHostsTurns := by
  intro s rest off n v
  refine ⟨fun h => ?_, fun h => ?_, fun hb h => ?_, fun h => ?_, runOver_iff s,
    fun h => ⟨step_of_runOver h, endState_of_runOver n h⟩, fun t h => runOver_of_endState h,
    fun r h => endState_of_refused h⟩
  · rw [step, h]
  · rw [step, h]
  · simp [step, h, engineTurn, hb]
  · simp only [step, h, waitPoll_next, ← waitEvents_eq]
    rfl

end Sys2Proof.Machine
end

section
/-!
What a read leaves unchanged, and what the observation depends on.
-/

namespace Sys2Proof.Machine

/-- A read returns one value. -/
theorem busRead_reads (off n : Nat) (s : State) : ∃ v, (busRead off n s).reads = v :: s.reads := by
  cases h : readValue s off with
  | some w => exact ⟨w, by rw [busRead_some h]⟩
  | none => exact ⟨_, by rw [busRead_none h]⟩

/-- The observation does not depend on the bookkeeping of the model, nor on PEND. -/
theorem observation_bookkeeping (s : State) (reads : List Word) (freeCtr : Nat) (pend : Word)
    (agenda : List Event) :
    observation { s with reads := reads, freeCtr := freeCtr, pend := pend, agenda := agenda } =
      observation s :=
  observation_congr rfl fun _ => rfl

/-- While BUSY = 0, what is observed is what a read returns. -/
theorem hostRead_of_mem_observation {s : State} (hb : s.busy = false) (hc : CapsLegal s)
    {p : Nat × Word} (hp : p ∈ observation s) :
    ∃ n, hostRead p.1 n s = .next { s with reads := p.2 :: s.reads } := by
  obtain ⟨hloc, hval⟩ := mem_observation.mp hp
  obtain ⟨n, ha⟩ := locations_admitted hc hloc
  exact ⟨n, hostRead_idle hb ha hval⟩

/-- Settles O8: the frame of a read, the observation by its reads, and what it does not depend on. -/
theorem readsChangeNothing : Obligations.ReadsChangeNothing := by
  intro s
  refine ⟨fun t off n h => ?_, fun hb hc p hp => hostRead_of_mem_observation hb hc hp,
    fun u hu => ?_, fun nodes hn => observation_congr rfl (idleRead_node s nodes hn),
    fun hc lens codes => observation_congr rfl (idleRead_codes s hc lens codes),
    fun a v ha => observation_congr rfl (idleRead_obuf s ha)⟩
  · obtain ⟨-, rfl⟩ := hostRead_eq_next h
    refine ⟨busRead_frame off n s, busRead_reads off n s, ?_⟩
    rw [busRead_frame]
    exact observation_bookkeeping s _ _ s.pend s.agenda
  · rw [hu]
    exact observation_bookkeeping s _ _ _ _

end Sys2Proof.Machine
end

section
/-!
The FREQ, NODE, CODE_LEN and CODE_BITS windows while no command is pending.
-/

namespace Sys2Proof.Machine

/-- Word `x` of the FREQ window (20_memory.md R52). -/
theorem idleRead_freqWord (s : State) {x : Nat} (hx : x < 256) :
    idleRead s (0x1000 + 4 * x) = some (BitVec.ofNat 32 (freqAt s x)) := by
  have hk : (0x1000 + 4 * x - 0x1000) / 4 = x := by omega
  simp only [idleRead, regionOf_freq (off := 0x1000 + 4 * x) (by omega) (by omega), hk]

/-- Word 0 of a valid node (20_memory.md R53). -/
theorem idleRead_nodeWord0 {s : State} {i : Nat} (hi : i < 511) (ht : s.treeValid = true)
    (hn : i < s.nnodes) : idleRead s (0x2000 + 8 * i) = some (nodeWord (nodeAt s i)) := by
  have h0 : (0x2000 + 8 * i) % 8 = 0 := by omega
  simp [idleRead, regionOf_node (off := 0x2000 + 8 * i) (by omega) (by omega), h0, hi, ht, hn]

/-- Word 1 of a valid node (20_memory.md R53). -/
theorem idleRead_nodeWord1 {s : State} {i : Nat} (hi : i < 511) (ht : s.treeValid = true)
    (hn : i < s.nnodes) :
    idleRead s (0x2004 + 8 * i) = some (BitVec.ofNat 32 (nodeAt s i).weight) := by
  have hk : (0x2004 + 8 * i - 0x2000) / 8 = i := by omega
  simp [idleRead, regionOf_node (off := 0x2004 + 8 * i) (by omega) (by omega), hk, hi, ht, hn]

/-- The words of a stale node (20_memory.md R53). -/
theorem idleRead_staleNode {s : State} {i k : Nat} (hi : i < 511)
    (hs : s.treeValid = false ∨ s.nnodes ≤ i) (hk : k < 2) :
    idleRead s (0x2000 + 8 * i + 4 * k) = none := by
  have hd : (0x2000 + 8 * i + 4 * k - 0x2000) / 8 = i := by omega
  have hv : (s.treeValid && decide (i < s.nnodes)) = false := by
    rcases hs with ht | hn
    · simp [ht]
    · simp [Nat.not_lt.mpr hn]
  simp [idleRead, regionOf_node (off := 0x2000 + 8 * i + 4 * k) (by omega) (by omega), hd, hi, hv]

/-- Word 0 of a node is its fields side by side (20_memory.md R53): each shifted field has its bits, and
nothing at or beyond its width. -/
theorem nodeWord_eq_append (n : Node) : nodeWord n =
    (((BitVec.ofBool (decide (n.kind = .leaf)) ++ 0#5) ++ BitVec.ofNat 9 n.right) ++
      BitVec.ofNat 9 n.left) ++ n.sym := by
  have hkind : (if n.kind = .leaf then 0x80000000#32 else 0#32) =
      (BitVec.ofBool (decide (n.kind = .leaf))).setWidth 32 <<< 31 := by
    cases n.kind <;> rfl
  rw [nodeWord, hkind]
  generalize BitVec.ofNat 9 n.right = r
  generalize BitVec.ofNat 9 n.left = l
  apply BitVec.eq_of_getLsbD_eq
  intro i hi
  have hk := BitVec.getLsbD_of_ge (BitVec.ofBool (decide (n.kind = .leaf))) (i - 31)
  have hr := BitVec.getLsbD_of_ge r (i - 17)
  have hl := BitVec.getLsbD_of_ge l (i - 8)
  have hs := BitVec.getLsbD_of_ge n.sym i
  simp only [BitVec.getLsbD_append, BitVec.getLsbD_or, BitVec.getLsbD_shiftLeft,
    BitVec.getLsbD_setWidth, hi, BitVec.getLsbD_zero]
  grind

/-- The fields of word 0 of a node, at their bits (20_memory.md R53). -/
theorem nodeWord_fields (n : Node) : (nodeWord n).getLsbD 31 = decide (n.kind = .leaf) ∧
    (nodeWord n).extractLsb' 26 5 = 0#5 ∧
    (nodeWord n).extractLsb' 17 9 = BitVec.ofNat 9 n.right ∧
    (nodeWord n).extractLsb' 8 9 = BitVec.ofNat 9 n.left ∧
    (nodeWord n).extractLsb' 0 8 = n.sym := by
  rw [nodeWord_eq_append]
  refine ⟨?_, ?_, ?_, ?_, BitVec.extractLsb'_append_eq_right⟩
  · simp only [BitVec.getLsbD_append, Nat.reduceLT, if_false, Nat.reduceSub, BitVec.getLsbD_ofBool]
    simp
  · rw [BitVec.extractLsb'_append_eq_of_le (by decide),
      BitVec.extractLsb'_append_eq_of_le (by decide), BitVec.extractLsb'_append_eq_of_le (by decide)]
    exact BitVec.extractLsb'_append_eq_right
  · rw [BitVec.extractLsb'_append_eq_of_le (by decide),
      BitVec.extractLsb'_append_eq_of_le (by decide)]
    exact BitVec.extractLsb'_append_eq_right
  · rw [BitVec.extractLsb'_append_eq_of_le (by decide)]
    exact BitVec.extractLsb'_append_eq_right

/-- A word of the CODE_LEN window while the code table is valid (20_memory.md R54). -/
theorem idleRead_codeLenWord {s : State} {x : Nat} (hx : x < 256) (hc : s.ctValid = true) :
    idleRead s (0x3000 + 4 * x) = some (BitVec.ofNat 32 (codeLenAt s x)) := by
  have hk : (0x3000 + 4 * x - 0x3000) / 4 = x := by omega
  simp only [idleRead, regionOf_codeLen (off := 0x3000 + 4 * x) (by omega) (by omega), hk, hc,
    if_true]

/-- A word of the CODE_BITS window while the code table is valid (20_memory.md R54). -/
theorem idleRead_codeBitsWord {s : State} {x j : Nat} (hx : x < 256) (hj : j < 8)
    (hc : s.ctValid = true) : idleRead s (0x4000 + 32 * x + 4 * j) = some (windowWord fun i =>
      decide (32 * j + i < codeLenAt s x) && (codeBitsAt s x).getD (32 * j + i) false) := by
  have hdiv : (0x4000 + 32 * x + 4 * j - 0x4000) / 32 = x := by omega
  have hmod : (0x4000 + 32 * x + 4 * j - 0x4000) % 32 / 4 = j := by omega
  simp only [idleRead, regionOf_codeBits (off := 0x4000 + 32 * x + 4 * j) (by omega) (by omega),
    hdiv, hmod, hc, if_true]

/-- The code table windows while the code table is stale (20_memory.md R54). -/
theorem idleRead_staleCodes {s : State} {off : Nat} (hc : s.ctValid = false)
    (h : 0x3000 ≤ off ∧ off ≤ 0x33FF ∨ 0x4000 ≤ off ∧ off ≤ 0x5FFF) : idleRead s off = none := by
  rcases h with h | h
  · simp [idleRead, regionOf_codeLen h.1 h.2, hc]
  · simp [idleRead, regionOf_codeBits h.1 h.2, hc]

/-- Settles O12: the windows one by one, each through its `idleRead` lemma. -/
theorem tableWindowReads : Obligations.TableWindowReads := by
  intro s hb
  refine ⟨fun x hx => ?_, fun i hi ht hn => ?_, fun x hx hc => ⟨?_, fun j hj => ?_⟩,
    fun i hi hs k hk => ?_, fun hc off hoff hal => ?_⟩
  · exact hostRead_idle hb (by omega) (idleRead_freqWord s hx)
  · exact ⟨hostRead_idle hb (by omega) (idleRead_nodeWord1 hi ht hn), _,
      hostRead_idle hb (by omega) (idleRead_nodeWord0 hi ht hn), nodeWord_fields _⟩
  · exact hostRead_idle hb (by omega) (idleRead_codeLenWord hx hc)
  · exact ⟨_, hostRead_idle hb (by omega) (idleRead_codeBitsWord hx hj hc),
      fun i hi => windowWord_bit _ hi⟩
  · exact hostRead_idle_any hb (by omega) (idleRead_staleNode hi hs hk)
  · exact hostRead_idle_any hb (by omega) (idleRead_staleCodes hc (by omega))

end Sys2Proof.Machine
end

section
/-!
The HDR, CBUF, IBUF and OBUF windows while no command is pending.
-/

namespace Sys2Proof.Machine

/-- A word of the HDR window (20_memory.md R55). -/
theorem idleRead_hdrWord (s : State) {j : Nat} (hj : j < 80) : idleRead s (0x6000 + 4 * j) =
    some (windowWord fun i => decide (32 * j + i < s.hbits) && hdrAt s (32 * j + i)) := by
  have hk : (0x6000 + 4 * j - 0x6000) / 4 = j := by omega
  simp only [idleRead, regionOf_hdr (off := 0x6000 + 4 * j) (by omega) (by omega), hk]

/-- A word of the CBUF window (20_memory.md R50, R56). -/
theorem idleRead_cbufWord (s : State) {j : Nat} (hj : j < 0x400000) :
    idleRead s (0x3000000 + 4 * j) = some (if j < (s.cbufBits + 31) / 32 then
      windowWord fun i => decide (32 * j + i < s.cbits) && cbufAt s (32 * j + i) else 0#32) := by
  have hk : (0x3000000 + 4 * j - 0x3000000) / 4 = j := by omega
  simp only [idleRead, regionOf_cbuf (off := 0x3000000 + 4 * j) (by omega) (by omega), hk,
    apply_ite some]

/-- A byte of the IBUF window (20_memory.md R50, R57). -/
theorem idleRead_ibufByte (s : State) {a : Nat} (ha : a < 0x1000000) :
    idleRead s (0x1000000 + a) =
      some (if a < s.ibufBytes then (ibufAt s a).setWidth 32 else 0#32) := by
  simp only [idleRead, regionOf_ibuf (off := 0x1000000 + a) (by omega) (by omega),
    Nat.add_sub_cancel_left, apply_ite some]

/-- A byte of the OBUF window (20_memory.md R50, R58). -/
theorem idleRead_obufByte (s : State) {a : Nat} (ha : a < 0x1000000) :
    idleRead s (0x2000000 + a) =
      if a < s.obufBytes then
        if a < s.outLen then some ((obufAt s a).setWidth 32) else none
      else some 0#32 := by
  simp only [idleRead, regionOf_obuf (off := 0x2000000 + a) (by omega) (by omega),
    Nat.add_sub_cancel_left]

/-- Settles O13: the windows one by one, each through its `idleRead` lemma. -/
theorem bufferWindowReads : Obligations.BufferWindowReads := by
  intro s hb
  refine ⟨fun j hj => ?_, fun j hj => ?_, fun a ha => ?_, fun a ha hcap hout => ?_,
    fun a ha hcap hout => ?_, fun a ha hcap => ?_⟩
  · exact ⟨_, hostRead_idle hb (by omega) (idleRead_hdrWord s hj), fun i hi => windowWord_bit _ hi⟩
  · refine ⟨_, hostRead_idle hb (by omega) (idleRead_cbufWord s hj), fun hin i hi => ?_,
      fun hpast => if_neg (Nat.not_lt.mpr hpast)⟩
    rw [if_pos hin]
    exact windowWord_bit _ hi
  · exact hostRead_idle hb (by omega) (idleRead_ibufByte s ha)
  · exact hostRead_idle hb (by omega)
      (by rw [idleRead_obufByte s ha, if_pos hcap, if_pos hout])
  · exact hostRead_idle_any hb (by omega)
      (by rw [idleRead_obufByte s ha, if_pos hcap, if_neg (Nat.not_lt.mpr hout)])
  · exact hostRead_idle hb (by omega)
      (by rw [idleRead_obufByte s ha, if_neg (Nat.not_lt.mpr hcap)])

end Sys2Proof.Machine
end

section
/-!
The command words that have a meaning, by their fields (30_encoding.md R71 to R74): the decoder answers
exactly on them, by their opcode, and inverts the encoder there.
-/

namespace Sys2Proof

open Machine (noneOpcodes)

/-- The operands each opcode of the map admits: 0 for ARG kind `none`, any byte for FC_PUSH and ENC_PUSH,
a bit for DEC_BIT (30_encoding.md R72, R73). -/
def ArgOk (op arg : Byte) : Prop :=
  op ∈ noneOpcodes ∧ arg = 0#8 ∨ op = 0x11#8 ∨ op = 0x41#8 ∨ op = 0x61#8 ∧ arg.toNat < 2

/-- The words that match a row of the opcode map, by their fields (30_encoding.md R73). -/
def WordOk (w : Word) : Prop := rsvField w = 0#16 ∧ ArgOk (opField w) (argField w)

/-! ### The rows of the map -/

/-- Each row has the mask of its opcode's ARG kind, and a pattern with ARG and RSV 0
(30_encoding.md R72, R73). -/
theorem opRows_kinds : ∀ r ∈ opRows, r.pattern = (0#16 ++ 0#8) ++ opField r.pattern ∧
    (r.mask = 0xFFFFFFFF#32 ∧ opField r.pattern ∈ noneOpcodes ∨
      r.mask = 0xFFFF00FF#32 ∧ opField r.pattern ∈ [0x11#8, 0x41#8] ∨
      r.mask = 0xFFFFFEFF#32 ∧ opField r.pattern = 0x61#8) := by decide

/-- The opcodes of the map. -/
theorem mem_opcodes {op : Byte} :
    (∃ r ∈ opRows, opField r.pattern = op) ↔ op ∈ noneOpcodes ++ [0x11#8, 0x41#8, 0x61#8] := by
  have hperm : (opRows.map fun r => opField r.pattern).Perm
      (noneOpcodes ++ [0x11#8, 0x41#8, 0x61#8]) := by decide
  rw [← hperm.mem_iff, List.mem_map]

/-- FC_PUSH, ENC_PUSH and DEC_BIT are not of ARG kind `none`. -/
theorem not_mem_noneOpcodes : 0x11#8 ∉ noneOpcodes ∧ 0x41#8 ∉ noneOpcodes ∧ 0x61#8 ∉ noneOpcodes := by
  decide

theorem argOk_none {op arg : Byte} (h : op ∈ noneOpcodes) : ArgOk op arg ↔ arg = 0#8 := by
  obtain ⟨h1, h2, h3⟩ := not_mem_noneOpcodes
  have hne : op ≠ 0x11#8 ∧ op ≠ 0x41#8 ∧ op ≠ 0x61#8 :=
    ⟨fun he => h1 (he ▸ h), fun he => h2 (he ▸ h), fun he => h3 (he ▸ h)⟩
  simp [ArgOk, h, hne]

theorem argOk_byte {op arg : Byte} (h : op ∈ [0x11#8, 0x41#8]) : ArgOk op arg := by
  rcases List.mem_pair.mp h with h | h
  · exact .inr (.inl h)
  · exact .inr (.inr (.inl h))

theorem argOk_bit {op arg : Byte} (h : op = 0x61#8) : ArgOk op arg ↔ arg.toNat < 2 := by
  simp [ArgOk, h, not_mem_noneOpcodes]

theorem ArgOk.mem_opcodes {op arg : Byte} (h : ArgOk op arg) :
    op ∈ noneOpcodes ++ [0x11#8, 0x41#8, 0x61#8] := by
  rcases h with ⟨h, -⟩ | rfl | rfl | ⟨rfl, -⟩
  · exact List.mem_append_left _ h
  · decide
  · decide
  · decide

/-- A word with a meaning selects the row of its opcode and no other, and any other word selects none:
each kind of row is selected by its opcode with an operand of that kind. -/
theorem selects_iff_wordOk {r : OpRow} (hr : r ∈ opRows) (w : Word) :
    r.selects w = true ↔ WordOk w ∧ opField r.pattern = opField w := by
  obtain ⟨hp, hk⟩ := opRows_kinds r hr
  rw [WordOk]
  rcases hk with ⟨hm, hop⟩ | ⟨hm, hop⟩ | ⟨hm, hop⟩
  · rw [selects_none hm hp, and_assoc, eq_comm (a := opField w)]
    exact and_congr_right fun _ => and_congr_left fun he => (argOk_none (he ▸ hop)).symm
  · rw [selects_byte hm hp, and_assoc, eq_comm (a := opField w)]
    exact and_congr_right fun _ => (and_iff_right_of_imp fun he => argOk_byte (he ▸ hop)).symm
  · rw [selects_bit hm hp, and_assoc, eq_comm (a := opField w)]
    exact and_congr_right fun _ => and_congr_left fun he => (argOk_bit (he ▸ hop)).symm

/-! ### The decoder -/

/-- On a word with a meaning the decoder looks the command up by the opcode alone. -/
theorem decode_of_wordOk {w : Word} (h : WordOk w) {r : OpRow}
    (hr : opRows.find? (fun r => opField r.pattern == opField w) = some r) :
    decode w = .ok (r.build (argField w)) := by
  have hsel : opRows.find? (fun r => r.selects w) =
      opRows.find? (fun r => opField r.pattern == opField w) :=
    List.find?_congr fun q hq => by
      rw [Bool.eq_iff_iff, selects_iff_wordOk hq, beq_iff_eq, and_iff_right h]
  rw [decode, hsel, hr]

/-- The decoder rejects exactly the words without a meaning. -/
theorem decode_error_iff_wordOk {w : Word} {e : DecodeError} :
    decode w = .error e ↔ ¬ WordOk w ∧ rejection w = e := by
  rw [decode_error_iff, eq_comm (a := e)]
  refine and_congr_left fun _ => ⟨fun hsel hok => ?_, fun hok r hr => ?_⟩
  · obtain ⟨r, hr, he⟩ := mem_opcodes.mpr hok.2.mem_opcodes
    have := (selects_iff_wordOk hr w).mpr ⟨hok, he⟩
    rw [hsel r hr] at this
    cases this
  · exact Bool.eq_false_iff.mpr fun hs => hok ((selects_iff_wordOk hr w).mp hs).1

theorem wordOk_of_decode {w : Word} {i : Instr} (h : decode w = .ok i) : WordOk w := by
  by_contra hok
  rw [decode_error_iff_wordOk.mpr ⟨hok, rfl⟩] at h
  cases h

/-! ### Decode and encode -/

/-- The fields of the word of a command (30_encoding.md R71). -/
theorem encode_fields (i : Instr) : Laws.EncodedFields.Statement i :=
  Laws.EncodedFields.fields i.arg i.opcode

/-- A word with the fields of a command is its encoding. -/
theorem encode_eq_of_fields {i : Instr} {w : Word} (hrsv : rsvField w = 0#16)
    (harg : i.arg = argField w) (hop : i.opcode = opField w) : encode i = w := by
  obtain ⟨eop, earg, ersv⟩ := encode_fields i
  exact word_ext (ersv.trans hrsv.symm) (earg.trans harg) (eop.trans hop)

/-- A well-formed command has an operand its opcode admits (30_encoding.md R72). -/
theorem argOk_of_wellFormed {i : Instr} (h : i.wellFormed = true) : ArgOk i.opcode i.arg := by
  cases i with
  | fcPush b => exact argOk_byte (op := 0x11#8) (by decide)
  | encPush b => exact argOk_byte (op := 0x41#8) (by decide)
  | decBit arg => exact (argOk_bit rfl).mpr (of_decide_eq_true h)
  | _ => exact .inl ⟨by decide, rfl⟩

/-- The row of a command's opcode builds the command from its operand. -/
theorem opRows_build (i : Instr) : ∃ r,
    opRows.find? (fun r => opField r.pattern == i.opcode) = some r ∧ r.build i.arg = i := by
  cases i <;> exact ⟨_, rfl, rfl⟩

theorem decode_encode {i : Instr} (h : i.wellFormed = true) : decode (encode i) = .ok i := by
  obtain ⟨hop, harg, hrsv⟩ := encode_fields i
  obtain ⟨r, hr, hb⟩ := opRows_build i
  have hok : WordOk (encode i) := by
    rw [WordOk, hop, harg]
    exact ⟨hrsv, argOk_of_wellFormed h⟩
  rw [decode_of_wordOk hok (hop.symm ▸ hr), harg, hb]

/-- Every opcode with an operand it admits belongs to a well-formed command. -/
theorem ArgOk.exists_instr {op arg : Byte} (h : ArgOk op arg) :
    ∃ i : Instr, i.wellFormed = true ∧ i.arg = arg ∧ i.opcode = op := by
  have hnone : ∀ op ∈ noneOpcodes, ∃ i ∈ opRows.map fun r => r.build 0#8,
      i.wellFormed = true ∧ i.arg = 0#8 ∧ i.opcode = op := by decide
  rcases h with ⟨hop, rfl⟩ | rfl | rfl | ⟨rfl, hbit⟩
  · obtain ⟨i, -, hi⟩ := hnone op hop
    exact ⟨i, hi⟩
  · exact ⟨.fcPush arg, rfl, rfl, rfl⟩
  · exact ⟨.encPush arg, rfl, rfl, rfl⟩
  · exact ⟨.decBit arg, decide_eq_true hbit, rfl, rfl⟩

theorem exists_encode_of_wordOk {w : Word} (h : WordOk w) :
    ∃ i : Instr, i.wellFormed = true ∧ encode i = w := by
  obtain ⟨hrsv, harg⟩ := h
  obtain ⟨i, hwf, hi, hop⟩ := harg.exists_instr
  exact ⟨i, hwf, encode_eq_of_fields hrsv hi hop⟩

/-- Settles O1: a decoded word is the encoding of some command, and the decoder inverts the encoder. -/
theorem decodeInvertsEncode : Obligations.DecodeInvertsEncode := by
  intro w i
  constructor
  · intro h
    obtain ⟨j, hwf, rfl⟩ := exists_encode_of_wordOk (wordOk_of_decode h)
    rw [decode_encode hwf] at h
    cases h
    exact ⟨hwf, rfl⟩
  · rintro ⟨hwf, rfl⟩
    exact decode_encode hwf

/-- Settles O3, by running the decoder. -/
theorem sampleWordsDecode : Obligations.SampleWordsDecode := by
  unfold Obligations.SampleWordsDecode
  decide

/-! ### The words that are rejected -/

/-- The operand of DEC_BIT is a bit when ARG[7:1] is 0 (30_encoding.md R72). -/
theorem argField_lt_two_iff (w : Word) : (argField w).toNat < 2 ↔ w.extractLsb' 9 7 = 0#7 := by
  rw [← BitVec.toNat_inj]
  simp only [argField, BitVec.extractLsb'_toNat, Nat.shiftRight_eq_div_pow, BitVec.toNat_ofNat]
  omega

/-- The name of a rejection, by the opcode (30_encoding.md R74). -/
theorem rejection_eq (w : Word) : rejection w =
    if rsvField w ≠ 0#16 then .reservedNotZero
    else if opField w ∈ noneOpcodes ++ [0x11#8, 0x41#8, 0x61#8] then
      if opField w = 0x61#8 then .argNotBit else .argNotZero
    else .unknownOpcode := by
  simp only [rejection, List.any_eq_true, beq_iff_eq, mem_opcodes]
  rfl

/-- Settles O2: by RSV, then by the kind of the opcode. -/
theorem illegalWordsAreRejectedByCase : Obligations.IllegalWordsAreRejectedByCase := by
  intro w
  change (_ ↔ rsvField w ≠ 0#16) ∧ (_ ↔ rsvField w = 0#16 ∧ opField w ∉ _) ∧
    (_ ↔ rsvField w = 0#16 ∧ opField w ∈ _ ∧ argField w ≠ 0#8) ∧
    (_ ↔ rsvField w = 0#16 ∧ opField w = _ ∧ _)
  simp only [decode_error_iff_wordOk, rejection_eq, WordOk, ← argField_lt_two_iff, ne_eq]
  obtain ⟨n11, n41, n61⟩ := not_mem_noneOpcodes
  by_cases hrsv : rsvField w = 0#16
  · by_cases hop : opField w ∈ noneOpcodes ++ [0x11#8, 0x41#8, 0x61#8]
    · rcases List.mem_append.mp hop with hnone | hother
      · have h61 : opField w ≠ 0x61#8 := fun he => n61 (he ▸ hnone)
        simp [hrsv, hnone, argOk_none hnone, h61]
      · simp only [List.mem_cons, List.not_mem_nil, or_false] at hother
        rcases hother with h | h | h
        · simp [hrsv, h, n11, argOk_byte]
        · simp [hrsv, h, n41, argOk_byte]
        · simp [hrsv, h, n61, argOk_bit]
    · have hbad : ¬ ArgOk (opField w) (argField w) := fun ha => hop ha.mem_opcodes
      simp only [List.mem_append, List.mem_cons, not_or] at hop
      simp [hrsv, hop, hbad]
  · simp [hrsv]

end Sys2Proof
end

section
/-!
PACK and UNPACK on their successful paths, and the commands on an empty input
(47_container.md R129 to R132).
-/

namespace Sys2Proof.Machine

/-- The length fields and the artifact as the claims write them are those of the model. -/
theorem lengthFields_eq (h n : Nat) : lengthFields h n = bytes16 h ++ bytes32 n := rfl

theorem artifactOf_eq (header content : Bits) :
    artifactOf header content = artifact header content := rfl

/-- PACK, once there is a header. -/
theorem exec_pack {s : State} (h : s.hbits ≠ 0) :
    exec .pack s = runCommand s (packBody s) packOnError := by
  rw [exec_eq_runCommand, commandBody, bne_iff_ne.mpr h, guarded_true]
  rfl

/-- Settles O39: the body where the artifact fits, and LIMIT where it does not. -/
theorem packWritesTheArtifact : Obligations.PackWritesTheArtifact := by
  intro s hh
  rw [exec_pack hh]
  constructor
  · intro hfit
    rw [packBody_ok_iff.mpr ⟨hfit, rfl⟩]
    obtain ⟨hhdr, hcbuf⟩ := packBody_bits s (t := complete { s with
      obuf := bufWrite s.obuf 0 (artifact (headerBits s) (contentBits s))
      outLen := 6 + ceil8 s.hbits + ceil8 s.cbits }) rfl
    refine ⟨_, rfl, rfl, (outputBytes_pack s).trans (artifactOf_eq _ _).symm, hhdr, hcbuf, fun a ha => ?_⟩
    refine bufGet_bufWrite_outside _ _ (.inr ?_)
    rw [artifact_length, headerBits_length, contentBits_length, Nat.zero_add]
    exact ha
  · intro hfull
    rw [packBody, if_pos hfull]
    rfl

/-- Settles O40: UNPACK's body on the container, then HDR and CBUF element by element. -/
theorem unpackSplitsTheArtifact : Obligations.UnpackSplitsTheArtifact := by
  intro s h n hb cb hi lh lc h1 h2 hn hc
  rw [lengthFields_eq] at hi
  obtain ⟨hbody, hhdr, hcbuf⟩ := unpackBody_input hi lh lc h1 h2 hn hc
  obtain ⟨hrest, crest⟩ := unpackFields_rest s h n
  rw [exec_eq_runCommand, commandBody, hbody]
  refine ⟨_, rfl, rfl, hhdr, hcbuf, fun k hk => ?_, fun k hk => ?_, hrest, crest⟩
  · have := le_eight_ceil8 h
    exact (hdrAt_of_bits (s := unpackFields s h n) hk).trans
      (hhdr ▸ unpackBits_getD hk (by omega))
  · have := le_eight_ceil8 n
    exact (cbufAt_of_bits (s := unpackFields s h n) hk).trans
      (hcbuf ▸ unpackBits_getD hk (by omega))

/-- UNPACK of an empty input (47_container.md R130). -/
theorem unpackBody_empty {s : State} (h : s.inLen = 0) :
    unpackBody s = .ok { s with hbits := 0, cbits := 0 } := by
  rw [unpackBody, if_pos h]

/-- Settles O42: each body on an empty input. -/
theorem emptyInputIsNoError : Obligations.EmptyInputIsNoError := by
  intro s h
  have hcompress : compressBody s = .ok (cleared s) := if_pos h
  have hdecompress : decompressBody s = .ok (cleared s) := by
    rw [decompressBody, unpackBody_empty (s := sessionClear s) h, thenBody_ok]
    exact if_pos h
  simp only [exec_eq_runCommand, commandBody, hcompress, hdecompress, unpackBody_empty h,
    runCommand_ok, complete_eq, and_self]

end Sys2Proof.Machine
end

section
/-!
The control commands (40_control.md R87 to R90) and the other commands with one effect: their next
states, and from these the frames of NOP, SOFT_RESET, CLR_ERR and XFER.
-/

namespace Sys2Proof.Machine

/-- XFER where the output fits IBUF (40_control.md R90). -/
theorem exec_xfer_fits {s : State} (h : s.outLen ≤ s.ibufBytes) :
    exec .xfer s = .next (afterDone { s with
      ibuf := bufWrite s.ibuf 0 (outputBytes s), inLen := s.outLen }) := by
  rw [exec_eq_runCommand, commandBody, xferBody, if_neg (Nat.not_lt.mpr h), runCommand_ok,
    complete_eq]

/-- XFER where the output is longer than IBUF (40_control.md R90). -/
theorem exec_xfer_limit {s : State} (h : s.ibufBytes < s.outLen) :
    exec .xfer s = .next (afterError 0x06#8 s) := by
  rw [exec_eq_runCommand, commandBody, xferBody, if_pos h, runCommand_raise, complete_errorEntry]
  rfl

/-- IBUF with the output written from index 0 on. -/
theorem bufGet_bufWrite_output (s : State) (a : Nat) :
    bufGet Config.freeByte (bufWrite s.ibuf 0 (outputBytes s)) a =
      if a < s.outLen then obufAt s a else ibufAt s a := by
  by_cases ha : a < s.outLen
  · have hin : 0 ≤ a ∧ a - 0 < (outputBytes s).length := by
      rw [outputBytes_length]; exact ⟨Nat.zero_le a, ha⟩
    rw [bufGet_bufWrite, dif_pos hin, if_pos ha]
    exact (bufSlice_getElem ..).trans (congrArg (obufAt s) (by omega))
  · have hout : 0 + (outputBytes s).length ≤ a := by rw [outputBytes_length]; omega
    rw [bufGet_bufWrite_outside _ _ (.inr hout), if_neg ha]
    rfl

/-- Settles O20: XFER's next state where the output fits and where it does not. -/
theorem xferCopiesTheOutput : Obligations.XferCopiesTheOutput := fun s =>
  ⟨fun h => ⟨_, exec_xfer_fits h, rfl, bufGet_bufWrite_output s⟩, exec_xfer_limit⟩

/-- DEC_BEGIN, once there is a tree (45_bitstream_decoder.md R117). -/
theorem exec_decBegin {s : State} (h : s.treeValid = true) :
    exec .decBegin s = .next (afterDone (rewind s)) := by
  rw [exec_eq_runCommand, commandBody, h, guarded_true, runCommand_ok, complete_eq]

/-- SOFT_RESET (40_control.md R88). -/
theorem exec_softReset (s : State) : exec .softReset s = .next (afterDone (softReset s)) := by
  rw [exec_eq_runCommand, commandBody, runCommand_ok, complete_eq]

/-- Settles O18: each body, then the completion. -/
theorem oneEffectCommandsComplete : Obligations.OneEffectCommandsComplete := by
  intro s
  refine ⟨rfl, ?_, rfl, rfl, rfl, exec_decBegin⟩
  rw [exec_softReset, softReset_eq]
  rfl

/-- Settles O50: the frames, read off the next state of each command. -/
theorem controlCommandsFrame : Obligations.ControlCommandsFrame := by
  intro s t
  obtain ⟨hnop, -, hclrErr, -⟩ := oneEffectCommandsComplete s
  refine ⟨fun ht => ?_, fun ht => ?_, fun ht => ?_, fun ht => ?_⟩
  · cases hnop.symm.trans ht
    rfl
  · cases hclrErr.symm.trans ht
    rfl
  · cases (exec_softReset s).symm.trans ht
    exact ⟨rfl, rfl, rfl, rfl, rfl, rfl, rfl, rfl, fun _ => rfl, fun _ => rfl, rfl, rfl⟩
  · rcases Nat.lt_or_ge s.ibufBytes s.outLen with hlong | hfits
    · cases (exec_xfer_limit hlong).symm.trans ht
      exact ⟨rfl, fun _ _ => rfl⟩
    · cases (exec_xfer_fits hfits).symm.trans ht
      refine ⟨rfl, fun a ha => ?_⟩
      exact (bufGet_bufWrite_output s a).trans (if_neg (Nat.not_lt.mpr ha))

end Sys2Proof.Machine
end

section
/-!
Acceptance and execution of a command word (40_control.md R82 to R85): the CMD write, the engine's turn on
the pending command, and what a step does to the error registers while an error is pending.
-/

namespace Sys2Proof.Machine

/-- Settles O6: the three branches of `offerCommand`. -/
theorem commandAcceptance : Obligations.CommandAcceptance := by
  intro s v
  have hw : hostWrite 0x004 4 v s = .next (offerCommand v s) := hostWrite_reg .cmd v s
  rw [hw]
  refine ⟨fun hb => ?_, fun hb he h1 h2 => ?_, fun hb hv => ?_⟩
  · simp [offerCommand, hb]
  · simp [offerCommand, hb, he, h1, h2]
  · have hacc : ¬ (s.errCode ≠ 0#8 ∧ v ≠ 0x00000001#32 ∧ v ≠ 0x00000002#32) := by tauto
    rw [offerCommand, hb, if_neg Bool.false_ne_true, if_neg hacc]

/-- The engine's turn on a word that is a command (40_control.md R84). -/
theorem engineTurn_command {s : State} {i : Instr} (hb : s.busy = true)
    (hd : decode s.pend = .ok i) : engineTurn s = exec i s := by
  simp [engineTurn, engineStep, hb, hd]

/-- The engine's turn on a word that is no command (40_control.md R84). -/
theorem engineTurn_illegal {s : State} {e : DecodeError} (hb : s.busy = true)
    (hd : decode s.pend = .error e) : engineTurn s = .next (afterError 0x07#8 s) := by
  simp only [engineTurn, engineStep, hb, if_true, hd]
  rfl

/-- The engine's turn while BUSY = 0 (60_exceptions.md R156). -/
theorem engineTurn_idle {s : State} (hb : s.busy = false) : engineTurn s = .next s := by
  simp [engineTurn, hb]

/-- With no turn of the host left, the engine's turn is next. -/
theorem step_nil {s : State} (h : s.agenda = []) : step s = engineTurn s := by simp [step, h]

/-- The engine's turn at the head of the agenda. -/
theorem step_engine {s : State} {rest : List Event} (h : s.agenda = .engine :: rest) :
    step s = engineTurn { s with agenda := rest } := by simp [step, h]

/-- Settles O4: the engine's turn by what PEND decodes to. -/
theorem stepRunsThePendingCommand : Obligations.StepRunsThePendingCommand := by
  intro s rest hb
  refine ⟨fun i hd => ⟨fun ha => ?_, fun ha => ?_⟩, fun e hd => ⟨fun ha => ?_, fun ha => ?_⟩⟩
  · exact (step_nil ha).trans (engineTurn_command hb hd)
  · exact (step_engine ha).trans (engineTurn_command (s := { s with agenda := rest }) hb hd)
  · exact (step_nil ha).trans (engineTurn_illegal hb hd)
  · exact (step_engine ha).trans (engineTurn_illegal (s := { s with agenda := rest }) hb hd)

/-- ERR_CODE and ERR_OP are both 0. -/
abbrev ErrorRegsCleared (t : State) : Prop := t.errCode = 0#8 ∧ t.errOp = 0#8

/-- While an error is pending the engine can run only SOFT_RESET and CLR_ERR, which clear it
(40_control.md R82, R88, R89). -/
theorem engineTurn_errorRegs {s t : State} (h : ErrorsOk s) (hne : s.errCode ≠ 0#8)
    (ht : engineTurn s = .next t) : ErrorRegsKept s t ∨ ErrorRegsCleared t := by
  obtain ⟨-, -, hpend⟩ := h
  cases hb : s.busy with
  | false =>
    cases (engineTurn_idle hb).symm.trans ht
    exact .inl ⟨rfl, rfl⟩
  | true =>
    rcases hpend hb hne with hp | hp
    · have hd : decode s.pend = .ok .softReset := hp ▸ decode_encode (i := .softReset) rfl
      cases (engineTurn_command hb hd).symm.trans ht
      exact .inr ⟨rfl, rfl⟩
    · have hd : decode s.pend = .ok .clrErr := hp ▸ decode_encode (i := .clrErr) rfl
      cases (engineTurn_command hb hd).symm.trans ht
      exact .inr ⟨rfl, rfl⟩

/-- A host read leaves the error registers alone. -/
theorem hostRead_keepsErrorRegs {off n : Nat} {s t : State} (ht : hostRead off n s = .next t) :
    ErrorRegsKept s t := by
  obtain ⟨-, rfl⟩ := hostRead_eq_next ht
  exact .of_eq (busRead_frame off n s) ⟨rfl, rfl⟩

/-- A host write leaves the error registers alone. -/
theorem hostWrite_keepsErrorRegs {off n : Nat} {v : Word} {s t : State}
    (ht : hostWrite off n v s = .next t) : ErrorRegsKept s t := by
  rw [hostWrite] at ht
  split at ht
  · cases ht
    rcases busWrite_cases off v s with
      hw | hw | hw | hw | ⟨-, hw⟩ | ⟨-, -, hw⟩ | ⟨a, -, -, hw⟩ <;> exact .of_eq hw ⟨rfl, rfl⟩
  · cases ht

/-- Settles O60: turn by turn; only the engine's turn and a reset write the error registers. -/
theorem errorsAreNeverOverwritten : Obligations.ErrorsAreNeverOverwritten := by
  intro s t h hne ht
  rw [step] at ht
  split at ht
  next => exact engineTurn_errorRegs h hne ht
  next rest _ => exact engineTurn_errorRegs (s := { s with agenda := rest }) h hne ht
  next off n rest _ => exact .inl (hostRead_keepsErrorRegs (s := { s with agenda := rest }) ht)
  next off n v rest _ => exact .inl (hostWrite_keepsErrorRegs (s := { s with agenda := rest }) ht)
  next n rest _ =>
    rw [waitPoll_next] at ht
    cases ht
    exact .inl ⟨rfl, rfl⟩
  next rest _ =>
    cases ht
    exact .inr ⟨rfl, rfl⟩

end Sys2Proof.Machine
end

section
/-!
The frequency counter's commands (41_frequency_counter.md R91 to R96): FC_PUSH and FC_SCAN on an unlocked
table, and the frames of all three.
-/

namespace Sys2Proof.Machine

/-- FC_PUSH on an unlocked table (41_frequency_counter.md R94). -/
theorem exec_fcPush_unlocked {s : State} (b : Byte) (h : s.ftLock = false) :
    exec (.fcPush b) s = runCommand s (count1 b s) keepAll := by
  rw [exec_eq_runCommand, commandBody, h, Bool.not_false, guarded_true]
  rfl

/-- FC_SCAN on an unlocked table (41_frequency_counter.md R95). -/
theorem exec_fcScan_unlocked {s : State} (h : s.ftLock = false) :
    exec .fcScan s = runCommand s (countAll (inputBytes s) s) keepAll := by
  rw [exec_eq_runCommand, commandBody, h, Bool.not_false, guarded_true]
  rfl

/-- Counting a byte adds 1 to its count and leaves every other count (41_frequency_counter.md R92). -/
theorem freqAt_count1 {b : Byte} {s t : State} (h : count1 b s = .ok t) (x : Nat) :
    freqAt t x = if x = b.toNat then freqAt s x + 1 else freqAt s x := by
  obtain ⟨-, rfl⟩ := count1_ok_iff.mp h
  rw [freqAt_cellSet]
  exact ite_congr rfl (fun hx => hx ▸ rfl) fun _ => rfl

/-- Settles O21: the two branches of `count1`. -/
theorem fcPushCountsOneByte : Obligations.FcPushCountsOneByte := by
  intro s b hlock
  rw [exec_fcPush_unlocked b hlock]
  constructor
  · intro hroom
    have hcount := count1_eq (b := b) hroom
    have hfreq := freqAt_count1 hcount
    rw [hcount]
    exact ⟨_, rfl, rfl, hfreq⟩
  · intro hfull
    rw [count1, if_pos hfull]
    rfl

/-- Counting raises LIMIT where TOTAL would pass `2^32 - 1` (41_frequency_counter.md R92, R96). -/
theorem countAll_limit {bs : List Byte} {s : State} (hs : s.total ≤ 2 ^ 32 - 1)
    (hover : 2 ^ 32 - 1 < s.total + bs.length) : countAll bs s = .error (.raise .limit) := by
  cases hb : countAll bs s with
  | error e => rw [countAll_error hb]
  | ok t =>
    have htotal := (countAll_counts hb).1
    have hle := countAll_total_le hb hs
    omega

/-- Settles O22: counting the input ends where the counts have room, and raises LIMIT where not. -/
theorem fcScanCountsTheInput : Obligations.FcScanCountsTheInput := by
  intro s hlock
  have hlen := inputBytes_length s
  rw [exec_fcScan_unlocked hlock]
  constructor
  · intro hroom
    obtain ⟨t, hb⟩ := countAll_ends (hlen.symm ▸ hroom)
    obtain ⟨htotal, hfreq⟩ := countAll_counts hb
    rw [hlen] at htotal
    have hframe : t = { s with freq := t.freq, total := s.total + s.inLen, nsym := t.nsym } :=
      htotal ▸ countAll_frame hb
    rw [hb]
    exact ⟨complete t, rfl, congrArg afterDone hframe, hfreq, countAll_keeps_counts (t := t) hb⟩
  · intro hs hover
    rw [countAll_limit hs (hlen.symm ▸ hover)]
    rfl

/-- Counting changes no count of a byte it does not count. -/
theorem countAll_keeps_uncounted {bs : List Byte} {s t : State} {x : Nat} (h : countAll bs s = .ok t)
    (hx : ∀ b ∈ bs, x ≠ b.toNat) : freqAt t x = freqAt s x := by
  induction bs generalizing s with
  | nil => cases h; rfl
  | cons b bs ih =>
    obtain ⟨hb, hbs⟩ := List.forall_mem_cons.mp hx
    obtain ⟨s1, h1, h2⟩ := thenBody_eq_ok.mp h
    obtain ⟨-, rfl⟩ := count1_ok_iff.mp h1
    rw [ih h2 hbs, freqAt_cellSet, if_neg hb]

/-- What a command that counts the bytes `bs` can change: FREQ at those bytes, TOTAL, NSYM, and the
completion and error registers; on an error, these last alone. -/
theorem countingCommand_frame {i : Instr} {bs : List Byte} {s t : State}
    (hbody : commandBody i s = guarded (!s.ftLock) (countAll bs s))
    (herr : commandOnError i = keepAll) (ht : exec i s = .next t) :
    t = { s with
      busy := t.busy, done := t.done, errCode := t.errCode, errOp := t.errOp, freq := t.freq
      total := t.total, nsym := t.nsym } ∧
    ∀ x, (∀ b ∈ bs, x ≠ b.toNat) → freqAt t x = freqAt s x := by
  rcases exec_next_iff.mp ht with ⟨s1, hok, rfl⟩ | ⟨e, -, rfl⟩
  · have hcount := (guarded_eq_ok.mp (hbody ▸ hok)).2
    refine ⟨?_, fun x => countAll_keeps_uncounted (t := s1) hcount⟩
    rw [countAll_frame hcount]
    rfl
  · rw [herr]
    exact ⟨rfl, fun _ _ => rfl⟩

/-- Settles O51: FC_CLEAR's next state, and the frame that FC_PUSH and FC_SCAN share. -/
theorem frequencyCounterFrame : Obligations.FrequencyCounterFrame := by
  intro s t b
  refine ⟨fun ht => ?_, fun ht => ?_, fun ht => ?_⟩
  · obtain ⟨-, -, -, hclear, -⟩ := oneEffectCommandsComplete s
    cases hclear.symm.trans ht
    rfl
  · have hbody : commandBody (.fcPush b) s = guarded (!s.ftLock) (countAll [b] s) := by
      rw [countAll_singleton, commandBody]
    obtain ⟨hframe, hfreq⟩ := countingCommand_frame hbody rfl ht
    exact ⟨hframe, fun x hx => hfreq x (List.forall_mem_singleton.mpr hx)⟩
  · obtain ⟨hframe, hfreq⟩ := countingCommand_frame rfl rfl ht
    refine ⟨hframe, fun x hx => hfreq x.toNat fun b hb heq => hx ?_⟩
    exact BitVec.eq_of_toNat_eq heq ▸ hb

end Sys2Proof.Machine
end

section
/-!
TB_BUILD (42_tree_builder.md R97 to R102): what it answers on a table with a count, the nodes it leaves, and
that these depend on the counts alone.
-/

namespace Sys2Proof.Machine

/-! ### The body, where it ends -/

/-- TB_BUILD raises no error once TOTAL is not 0 (42_tree_builder.md R99). -/
theorem buildTree_error {s : State} {e : Stop} (h : buildTree s = .error e) : e = .stuck .noRoot := by
  unfold buildTree at h
  split at h
  split at h
  · cases h
  · cases h; rfl

/-- TB_BUILD that answers on a table with a count has built a tree. -/
theorem buildTree_of_exec {s t : State} (h0 : 0 < s.total) (ht : exec .tbBuild s = .next t) :
    ∃ s1, buildTree s = .ok s1 ∧ t = complete s1 := by
  rcases exec_next_iff.mp ht with ⟨s1, hok, rfl⟩ | ⟨e, herr, -⟩
  · exact ⟨s1, (guarded_eq_ok.mp hok).2, rfl⟩
  · rcases guarded_eq_error.mp herr with ⟨hc, -⟩ | ⟨-, herr⟩
    · exact absurd (bne_eq_false_iff_eq.mp hc) h0.ne'
    · cases buildTree_error herr

/-- Where a tree is built, some symbol has a count. -/
theorem present_ne_nil_of_buildTree {s s1 : State} (h : buildTree s = .ok s1) :
    present (freqAt s) ≠ [] := by
  intro hp
  obtain ⟨-, hm⟩ := buildTree_frame h
  have hn : (seedLeaves (freqAt s) (List.range 256) 0 s.node).1 = 0 := by
    rw [(seedLeaves_spec ..).1]
    exact congrArg (0 + List.length ·) hp
  simp [hn, mergeLoop] at hm

/-- What the body leaves where it ends: the registers, and a tree in NODE (42_tree_builder.md R99). -/
theorem buildTree_built {s s1 : State} (h : buildTree s = .ok s1) :
    ∃ tree, Built s s1.node tree ∧ HoldsTree s1 tree ∧ s1 = { s with
      node := s1.node, root := tree.index, nnodes := 2 * (present (freqAt s)).length - 1
      treeValid := true, ctValid := false, ftLock := true, decCur := tree.index } := by
  have hp := present_ne_nil_of_buildTree h
  obtain ⟨nodes, tree, hb, hB⟩ := buildTree_spec hp
  cases h.symm.trans hb
  exact ⟨tree, hB, hB.holdsTree hp rfl rfl rfl, rfl⟩

/-- On exact counts with TOTAL > 0, TB_BUILD builds a tree. -/
theorem exec_tbBuild {s : State} (hs : CountsExact s) (h0 : 0 < s.total) :
    ∃ s1, buildTree s = .ok s1 ∧ exec .tbBuild s = .next (complete s1) := by
  obtain ⟨nodes, tree, hb, -⟩ := buildTree_spec (present_ne_nil hs h0)
  exact ⟨_, hb, exec_next_iff.mpr (.inl ⟨_, guarded_eq_ok.mpr ⟨bne_iff_ne.mpr h0.ne', hb⟩, rfl⟩)⟩

/-! ### The nodes -/

/-- A Leaf carries the count of its symbol (42_tree_builder.md R99). -/
theorem Built.leaf_weight {s : State} {nodes : Buf Node} {tree : CodeTree} (h : Built s nodes tree)
    {k : Nat} (hk : k < (present (freqAt s)).length) : (arenaAt nodes k).kind = .leaf ∧
      (arenaAt nodes k).weight = freqAt s (arenaAt nodes k).sym.toNat := by
  have hx := (present_lt (List.getElem_mem hk)).1
  rw [h.leaves k hk, leafNode, BitVec.toNat_ofNat, Nat.mod_eq_of_lt hx]
  exact ⟨rfl, rfl⟩

/-- The Leaves stand in ascending order of their symbols (42_tree_builder.md R99). -/
theorem Built.leaf_ascending {s : State} {nodes : Buf Node} {tree : CodeTree} (h : Built s nodes tree)
    {j k : Nat} (hjk : j < k) (hk : k < (present (freqAt s)).length) :
    (arenaAt nodes j).sym < (arenaAt nodes k).sym := by
  have hsorted : (present (freqAt s)).Pairwise (· < ·) := List.pairwise_lt_range.filter _
  have hlt := List.pairwise_iff_getElem.mp hsorted j k (hjk.trans hk) hk hjk
  have hj := (present_lt (List.getElem_mem (hjk.trans hk))).1
  have hk' := (present_lt (List.getElem_mem hk)).1
  rw [h.leaves j (hjk.trans hk), h.leaves k hk, BitVec.lt_def]
  simpa only [leafNode, BitVec.toNat_ofNat, Nat.mod_eq_of_lt hj, Nat.mod_eq_of_lt hk'] using hlt

/-- Settles O23: the built tree, then its Leaves, its Internal nodes and the rest of NODE. -/
theorem tbBuildBuildsOneFullTree : Obligations.TbBuildBuildsOneFullTree := by
  intro s hs h0
  have hn := present_length hs
  obtain ⟨s1, hb, hexec⟩ := exec_tbBuild hs h0
  obtain ⟨tree, hB, hholds, hs1⟩ := buildTree_built hb
  have ho := buildTree_ordered hb
  have htotal : (nodeAt s1 s1.root).weight = s.total := by
    obtain ⟨htotal, -⟩ := hs
    rw [← hholds.root, htotal]
    exact hB.root_weight
  have hnn : 2 * (present (freqAt s)).length - 1 = s1.nnodes := (congrArg State.nnodes hs1).symm
  have hunused := hB.forest.unused
  have hrest := hB.rest
  rw [hnn] at hunused hrest
  rw [hB.root, hn] at hs1
  refine ⟨complete s1, tree, hexec, congrArg afterDone hs1, hholds.congr rfl rfl rfl, hB.mem_symbols,
    htotal, fun k hk => ?_, fun k hk hk' => ?_, hunused, hrest⟩
  · rw [← hn] at hk
    obtain ⟨hkind, hweight⟩ := hB.leaf_weight hk
    exact ⟨hkind, hweight, fun j hj => hB.leaf_ascending hj hk⟩
  · rw [← hn] at hk
    exact ⟨ho.kind k hk hk', ho.children k hk hk'⟩

/-- Settles O24: the order the merge loop keeps. -/
theorem mergesFollowTheKeyOrder : Obligations.MergesFollowTheKeyOrder := by
  intro s t hs h0 ht k hk hk'
  obtain ⟨s1, hb, rfl⟩ := buildTree_of_exec h0 ht
  have ho := buildTree_ordered hb
  rw [present_length hs] at ho
  exact ⟨ho.pair k hk hk', fun k' hkk hk'' => ho.merges k k' hk hkk hk''⟩

/-- Settles O25: seeding and merging read the counts and the nodes they have written. -/
theorem tbBuildDependsOnFreqAlone : Obligations.TbBuildDependsOnFreqAlone := by
  intro s s' t t' hs hs' h0 hfreq ht ht'
  have htotal : s'.total = s.total := by
    obtain ⟨htotal, -⟩ := hs
    obtain ⟨htotal', -⟩ := hs'
    rw [htotal, htotal', List.map_congr_left fun x hx => hfreq x (List.mem_range.mp hx)]
  obtain ⟨s1, hb, rfl⟩ := buildTree_of_exec h0 ht
  obtain ⟨s1', hb', rfl⟩ := buildTree_of_exec (htotal ▸ h0) ht'
  obtain ⟨hroot, hnn, hnode⟩ := buildTree_congr (fun x hx => (hfreq x hx).symm) hb hb'
  exact ⟨hroot.symm, hnn.symm, fun k hk => (hnode k hk).symm⟩

end Sys2Proof.Machine
end

section
/-!
The lengths of the codes of the tree TB_BUILD leaves (42_tree_builder.md R103): a Leaf of greater weight is
nowhere deeper.
-/

namespace Sys2Proof.Machine

/-- CT_DERIVE, where NODE holds a tree (43_code_table_deriver.md R104, R105). -/
theorem exec_ctDerive {s : State} {tree : CodeTree} (hv : s.treeValid = true) (h : HoldsTree s tree) :
    exec .ctDerive s = .next (afterDone { s with
      codeLen := writeLengths (noLengths s.codeLen) tree.erase.codes
      codeBits := writeCodes (noCodes s.codeBits) tree.erase.codes
      ctValid := true }) := by
  have hcodes := treeCodes_of_tree h.arena h.leaves.2
  rw [h.root] at hcodes
  exact exec_next_iff.mpr
    (.inl ⟨_, guarded_eq_ok.mpr ⟨hv, deriveCodes_ok_iff.mpr ⟨_, hcodes, rfl⟩⟩, rfl⟩)

/-- The code lengths after CT_DERIVE (43_code_table_deriver.md R104). -/
theorem codeLenAt_of_ctDerive {s t : State} {tree : CodeTree} (hv : s.treeValid = true)
    (h : HoldsTree s tree) (ht : exec .ctDerive s = .next t) (x : Byte) :
    codeLenAt t x.toNat = (tree.erase.code x).length := by
  cases (exec_ctDerive hv h).symm.trans ht
  exact (codeTable_of_tree s.codeLen s.codeBits h.distinct x).2

/-- The codes of a tree are its paths, but for the degenerate tree (43_code_table_deriver.md R104). -/
theorem SymTree.codes_cases (t : SymTree) : (∃ x, t = .leaf x) ∨ t.codes = t.paths := by
  cases t with
  | leaf x => exact .inl ⟨x, rfl⟩
  | node l r => exact .inr rfl

section
variable {s : State} {nodes : Buf Node} {tree : CodeTree} (hB : Built s nodes tree)
  (ho : Ordered (present (freqAt s)).length nodes [tree.index] (2 * (present (freqAt s)).length - 1))
include hB ho

/-- A path of the built tree ends at a Leaf whose weight is the count of the path's symbol. -/
theorem Built.exists_leaf_of_path {p : Byte × Bits} (hp : p ∈ tree.erase.paths) :
    ∃ i, DepthIn nodes tree.index i p.2.length ∧ (arenaAt nodes i).weight = freqAt s p.1.toNat := by
  obtain ⟨i, hdepth, hi, hkind, hsym⟩ :=
    depthIn_of_path (hB.forest.arena tree List.mem_cons_self) .root hp
  have hlt : i < 2 * (present (freqAt s)).length - 1 :=
    List.mem_range.mp (hB.forest.once.mem_iff.mp (by simpa using hi))
  have hleaf : i < (present (freqAt s)).length := by
    by_contra hge
    rw [ho.kind i (Nat.le_of_not_lt hge) hlt] at hkind
    cases hkind
  refine ⟨i, Nat.zero_add p.2.length ▸ hdepth, ?_⟩
  rw [(hB.leaf_weight hleaf).2, hsym]

/-- A symbol of a greater count has no longer path: its Leaf has the greater key. -/
theorem Built.path_length_le {p q : Byte × Bits} (hp : p ∈ tree.erase.paths)
    (hq : q ∈ tree.erase.paths) (hlt : freqAt s q.1.toNat < freqAt s p.1.toNat) :
    p.2.length ≤ q.2.length := by
  obtain ⟨i, hi, wi⟩ := hB.exists_leaf_of_path ho hp
  obtain ⟨j, hj, wj⟩ := hB.exists_leaf_of_path ho hq
  have hkey : keyLess nodes j i = true := (keyLess_iff _ _ _).mpr (.inl (by rw [wi, wj]; exact hlt))
  exact ho.depth_le (fun k hk => (hB.leaf_weight hk).1) (ho.below _ List.mem_cons_self) hj hi
    (.inr hkey)

/-- A symbol of a greater count has no longer code. -/
theorem Built.code_length_le {x y : Byte} (hy : 0 < freqAt s y.toNat)
    (hlt : freqAt s y.toNat < freqAt s x.toNat) :
    (tree.erase.code x).length ≤ (tree.erase.code y).length := by
  have hn : tree.erase.symbols.Nodup := hB.symbols.nodup_iff.mpr (present_symbols_nodup _)
  obtain ⟨p, hp, rfl⟩ := SymTree.exists_code ((hB.mem_symbols x).mpr (hy.trans hlt))
  obtain ⟨q, hq, rfl⟩ := SymTree.exists_code ((hB.mem_symbols y).mpr hy)
  rw [SymTree.code_of_mem hn hp, SymTree.code_of_mem hn hq]
  rcases tree.erase.codes_cases with ⟨z, hz⟩ | hpaths
  · rw [hz] at hp hq
    cases List.mem_singleton.mp hp
    cases List.mem_singleton.mp hq
    exact Nat.le_refl _
  · rw [hpaths] at hp hq
    exact hB.path_length_le ho hp hq hlt

end

/-- Settles O26: CT_DERIVE records the codes of the built tree. -/
theorem higherCountNoLongerCode : Obligations.HigherCountNoLongerCode := by
  intro s t u x y hs h0 ht hu hy hlt
  obtain ⟨s1, hb, rfl⟩ := buildTree_of_exec h0 ht
  obtain ⟨tree, hB, hholds, hs1⟩ := buildTree_built hb
  have hvalid : s1.treeValid = true := congrArg State.treeValid hs1
  have hnn : s1.nnodes = 2 * (present (freqAt s)).length - 1 := congrArg State.nnodes hs1
  have ho := buildTree_ordered hb
  rw [← hholds.root, hnn] at ho
  have hlen := codeLenAt_of_ctDerive (s := complete s1) hvalid (hholds.congr rfl rfl rfl) hu
  rw [hlen, hlen]
  exact hB.code_length_le ho hy hlt

end Sys2Proof.Machine
end

section
/-!
The frames of the tree commands: TB_BUILD, CT_DERIVE, TS_SERIALIZE and TS_DESERIALIZE.
-/

namespace Sys2Proof.Machine

/-- TB_BUILD writes no entry of NODE from NNODES on (42_tree_builder.md R99). -/
theorem buildTree_keeps_nodes {s t : State} (h : buildTree s = .ok t) {k : Nat} (hk : t.nnodes ≤ k) :
    nodeAt t k = nodeAt s k := by
  obtain ⟨tree, hB, -, ht⟩ := buildTree_built h
  have hnn : t.nnodes = 2 * (present (freqAt s)).length - 1 := congrArg State.nnodes ht
  exact hB.rest k (hnn ▸ hk)

/-- TS_SERIALIZE writes no bit of HDR from HBITS on (46_tree_serializer.md R124). -/
theorem serializeTree_keeps_hdr {s t : State} (h : serializeTree s = .ok t) {k : Nat}
    (hk : t.hbits ≤ k) : hdrAt t k = hdrAt s k := by
  obtain ⟨header, -, -, rfl⟩ := serializeTree_ok_iff.mp h
  exact bufGet_bufWrite_outside _ _ (.inr ((Nat.zero_add header.length).le.trans hk))

/-- TS_DESERIALIZE, where it ends, writes no entry of NODE from NNODES on (46_tree_serializer.md R125). -/
theorem deserializeTree_keeps_nodes {s t : State} (h : deserializeTree s = .ok t) {k : Nat}
    (hk : t.nnodes ≤ k) : nodeAt t k = nodeAt s k := by
  obtain ⟨d, hd, -, rfl⟩ := deserializeTree_ok_iff.mp h
  obtain ⟨-, -, tree, hto⟩ := deserNode_some (Nat.zero_le _) hd
  exact hto.rest k (.inr hk)

/-- Settles O52: for each command, its end and its error. -/
theorem treeCommandsFrame : Obligations.TreeCommandsFrame := by
  intro s t
  refine ⟨fun ht => ?_, fun ht => ?_, fun ht => ?_, fun ht => ?_⟩
  · rcases exec_next_iff.mp ht with ⟨s1, hok, rfl⟩ | ⟨e, -, rfl⟩
    · obtain ⟨-, hb⟩ := guarded_eq_ok.mp hok
      refine ⟨?_, fun k hk _ => buildTree_keeps_nodes (t := s1) hb hk⟩
      rw [(buildTree_frame hb).1]
      rfl
    · exact ⟨rfl, fun _ _ _ => rfl⟩
  · rcases exec_next_iff.mp ht with ⟨s1, hok, rfl⟩ | ⟨e, -, rfl⟩
    · obtain ⟨codes, -, rfl⟩ := deriveCodes_ok_iff.mp (guarded_eq_ok.mp hok).2
      rfl
    · rfl
  · rcases exec_next_iff.mp ht with ⟨s1, hok, rfl⟩ | ⟨e, -, rfl⟩
    · obtain ⟨hv, hb⟩ := guarded_eq_ok.mp hok
      refine ⟨?_, fun hf => absurd (hf.symm.trans hv) Bool.false_ne_true,
        fun k hk => serializeTree_keeps_hdr (t := s1) hb hk⟩
      obtain ⟨header, -, -, rfl⟩ := serializeTree_ok_iff.mp hb
      rfl
    · exact ⟨rfl, fun _ => rfl, fun _ _ => rfl⟩
  · rcases exec_next_iff.mp ht with ⟨s1, hb, rfl⟩ | ⟨e, -, rfl⟩
    · refine ⟨?_, fun _ k hk => deserializeTree_keeps_nodes (t := s1) hb hk⟩
      obtain ⟨d, -, -, rfl⟩ := deserializeTree_ok_iff.mp hb
      rfl
    · exact ⟨rfl, fun hv => by cases hv⟩

end Sys2Proof.Machine
end

section
/-!
The code table CT_DERIVE leaves (43_code_table_deriver.md R104 to R106): the codes of the tree in NODE, and
that no code of a tree is a prefix of another.
-/

namespace Sys2Proof.Machine

/-- An entry of a tree's code list whose code is a prefix of another entry's code is that entry. -/
theorem SymTree.codes_prefix_free {t : SymTree} {p q : Byte × Bits} (hp : p ∈ t.codes)
    (hq : q ∈ t.codes) (h : p.2 <+: q.2) (hn : t.symbols.Nodup) : p = q := by
  cases t with
  | leaf x => exact (List.mem_singleton.mp hp).trans (List.mem_singleton.mp hq).symm
  | node l r => exact SymTree.paths_prefix_free hp hq h hn

/-- Two leaf symbols of which one's code is a prefix of the other's are the same symbol. -/
theorem SymTree.eq_of_code_prefix {t : SymTree} (hn : t.symbols.Nodup) {x y : Byte}
    (hx : x ∈ t.symbols) (hy : y ∈ t.symbols) (h : t.code x <+: t.code y) : x = y := by
  obtain ⟨p, hp, rfl⟩ := SymTree.exists_code hx
  obtain ⟨q, hq, rfl⟩ := SymTree.exists_code hy
  rw [SymTree.code_of_mem hn hp, SymTree.code_of_mem hn hq] at h
  exact congrArg Prod.fst (SymTree.codes_prefix_free hp hq h hn)

/-- Settles O27: CT_DERIVE writes the codes of the tree in NODE, and a code is not empty. -/
theorem ctDeriveGivesThePaths : Obligations.CtDeriveGivesThePaths := by
  intro s tree hv h
  refine ⟨_, exec_ctDerive hv h, rfl, fun x => ?_⟩
  obtain ⟨hbits, -⟩ := codeTable_of_tree s.codeLen s.codeBits h.distinct x
  have hlen := codeLenAt_of_ctDerive hv h (exec_ctDerive hv h) x
  exact ⟨hbits, hlen, hlen ▸ SymTree.code_length_pos h.distinct x⟩

/-- Settles O28: the recorded codes are those of the tree, which are prefix-free. -/
theorem codesArePrefixFree : Obligations.CodesArePrefixFree := by
  intro s t tree hv h ht x y hxy hx hy hprefix
  obtain ⟨u, hu, -, hcodes⟩ := ctDeriveGivesThePaths s tree hv h
  cases hu.symm.trans ht
  obtain ⟨hxbits, -, hxleaf⟩ := hcodes x
  obtain ⟨hybits, -, hyleaf⟩ := hcodes y
  rw [hxbits, hybits] at hprefix
  exact hxy (SymTree.eq_of_code_prefix h.distinct (hxleaf.mp hx) (hyleaf.mp hy) hprefix)

end Sys2Proof.Machine
end

section
/-!
The encoder's commands (44_bitstream_encoder.md R108 to R112): ENC_PUSH and ENC_SCAN with a valid code
table, where they append and where they fail, and the frames of all three.
-/

namespace Sys2Proof.Machine

/-- ENC_PUSH with a valid code table (44_bitstream_encoder.md R111). -/
theorem exec_encPush_coded {s : State} (b : Byte) (h : s.ctValid = true) :
    exec (.encPush b) s = runCommand s (code1 b s) keepAll := by
  rw [exec_eq_runCommand, commandBody, h, guarded_true]
  rfl

/-- ENC_SCAN with a valid code table (44_bitstream_encoder.md R112). -/
theorem exec_encScan_coded {s : State} (h : s.ctValid = true) :
    exec .encScan s = runCommand s (codeAll (inputBytes s) s) keepAll := by
  rw [exec_eq_runCommand, commandBody, h, guarded_true]
  rfl

/-- A byte without a code raises INVARIANT (44_bitstream_encoder.md R109). -/
theorem code1_uncoded {b : Byte} {s : State} (h : codeLenAt s b.toNat = 0) :
    code1 b s = .error (.raise .invariant) := by rw [code1, if_pos h]

/-- A code that does not fit CBUF raises LIMIT (44_bitstream_encoder.md R108, R109). -/
theorem code1_overflow {b : Byte} {s : State} (h : codeLenAt s b.toNat ≠ 0)
    (hover : s.cbufBits < s.cbits + (codeOf s b.toNat).length) :
    code1 b s = .error (.raise .limit) := by rw [code1, if_neg h, appendC, if_pos hover]

/-- Settles O29: the three branches of `code1`. -/
theorem encPushAppendsOneCode : Obligations.EncPushAppendsOneCode := by
  intro s b hct
  rw [exec_encPush_coded b hct]
  refine ⟨fun huncoded => ?_, fun hcoded hover => ?_, fun hcoded hfits => ?_⟩
  · rw [code1_uncoded huncoded]
    rfl
  · rw [code1_overflow hcoded hover]
    rfl
  · rw [code1_ok_iff.mpr ⟨hcoded, hfits, rfl⟩]
    exact ⟨_, rfl, rfl, contentBits_append s (codeOf s b.toNat),
      fun k hk => bufGet_bufWrite_outside Config.freeBit s.cbuf hk⟩

/-- Encoding keeps the code table, so every code is as before. -/
theorem codeAll_keeps_codes {bs : List Byte} {s t : State} (h : codeAll bs s = .ok t) (x : Nat) :
    codeLenAt t x = codeLenAt s x ∧ codeOf t x = codeOf s x := by
  rw [codeAll_frame h]
  exact ⟨rfl, rfl⟩

/-- Encoding adds the lengths of the codes to CBITS. -/
theorem codeAll_cbits {bs : List Byte} {s t : State} (h : codeAll bs s = .ok t) :
    t.cbits = s.cbits + (bs.flatMap fun b => codeOf s b.toNat).length := by
  have hlen := congrArg List.length (codeAll_content h)
  rwa [List.length_append, contentBits_length, contentBits_length] at hlen

/-- The first byte that fails stops the encoding, whatever follows it. -/
theorem codeAll_stops {before : List Byte} {b : Byte} {s s1 : State} {e : Stop}
    (hbefore : codeAll before s = .ok s1) (hb : code1 b s1 = .error e) (after : List Byte) :
    codeAll (before ++ b :: after) s = .error e := by
  rw [codeAll_append, hbefore, thenBody_ok, codeAll, hb, thenBody_error]

/-- Settles O30: encoding the whole input, or the bytes before the first one that fails. -/
theorem encScanAppendsTheInput : Obligations.EncScanAppendsTheInput := by
  intro s hct
  rw [exec_encScan_coded hct]
  refine ⟨fun hcoded hfits => ?_, fun before b after hinput hcoded hfits => ?_⟩
  · obtain ⟨t, hb⟩ := codeAll_ends hcoded hfits
    rw [hb]
    exact ⟨complete t, rfl, congrArg afterDone (codeAll_frame hb),
      codeAll_content (t := t) hb, (codeAll_cbuf (t := t) hb).2⟩
  · obtain ⟨s1, hbefore⟩ := codeAll_ends hcoded hfits
    obtain ⟨hlen, hcode⟩ := codeAll_keeps_codes hbefore b.toNat
    rw [hinput]
    refine ⟨fun huncoded => ?_, fun hb hover => ?_⟩
    · rw [codeAll_stops hbefore (code1_uncoded (hlen.trans huncoded))]
      rfl
    · have hover1 : s1.cbufBits < s1.cbits + (codeOf s1 b.toNat).length := by
        have hcap : s1.cbufBits = s.cbufBits := by rw [codeAll_frame hbefore]
        rw [hcap, codeAll_cbits hbefore, hcode]
        simpa [Nat.add_assoc] using hover
      rw [codeAll_stops hbefore (code1_overflow (hlen ▸ hb) hover1)]
      rfl

/-- What a command that encodes the bytes `bs` can change: CBITS, CBUF from CBITS before to CBITS after,
and the completion and error registers; on an error, these last alone. -/
theorem encodingCommand_frame {i : Instr} {bs : List Byte} {s t : State}
    (hbody : commandBody i s = guarded s.ctValid (codeAll bs s))
    (herr : commandOnError i = keepAll) (ht : exec i s = .next t) :
    t = { s with
      busy := t.busy, done := t.done, errCode := t.errCode, errOp := t.errOp, cbuf := t.cbuf
      cbits := t.cbits } ∧
    s.cbits ≤ t.cbits ∧ ∀ k, k < s.cbits ∨ t.cbits ≤ k → cbufAt t k = cbufAt s k := by
  rcases exec_next_iff.mp ht with ⟨s1, hok, rfl⟩ | ⟨e, -, rfl⟩
  · have hencode := (guarded_eq_ok.mp (hbody ▸ hok)).2
    refine ⟨?_, codeAll_cbuf (t := s1) hencode⟩
    rw [codeAll_frame hencode]
    rfl
  · rw [herr]
    exact ⟨rfl, Nat.le_refl s.cbits, fun _ _ => rfl⟩

/-- Settles O53: ENC_BEGIN's next state, and the frame that ENC_PUSH and ENC_SCAN share. -/
theorem encoderFrame : Obligations.EncoderFrame := by
  intro s t b
  refine ⟨fun ht => ?_, fun i hi ht => ?_⟩
  · obtain ⟨-, -, -, -, hbegin, -⟩ := oneEffectCommandsComplete s
    cases hbegin.symm.trans ht
    rfl
  · rcases List.mem_pair.mp hi with rfl | rfl
    · have hbody : commandBody (.encPush b) s = guarded s.ctValid (codeAll [b] s) := by
        rw [codeAll_singleton, commandBody]
      exact encodingCommand_frame hbody rfl ht
    · exact encodingCommand_frame rfl rfl ht

end Sys2Proof.Machine
end

section
/-!
The decoder's commands (45_bitstream_decoder.md R115 to R121): DEC_BIT, DEC_END and DEC_RUN once there is a
tree, where they end and where they fail, and the frames of all four.
-/

namespace Sys2Proof.Machine

/-! ### DEC_BIT and DEC_END -/

/-- DEC_BIT, once there is a tree (45_bitstream_decoder.md R118). -/
theorem exec_decBit_treed {s : State} (arg : Byte) (h : s.treeValid = true) :
    exec (.decBit arg) s = runCommand s (decStep (argBit arg) s) keepAll := by
  rw [exec_eq_runCommand, commandBody, h, guarded_true]
  rfl

/-- OBUF after one emitted symbol (45_bitstream_decoder.md R115). -/
theorem obufAt_emitted_singleton (s : State) (x : Byte) (c a : Nat) :
    obufAt (emitted s [x] c) a = if a = s.outLen then x else obufAt s a :=
  bufGet_bufSet Config.freeByte s.obuf s.outLen a x

theorem kind_ne_leaf {n : Node} (h : n.kind = .internal) : n.kind ≠ .leaf := by
  rw [h]
  exact NodeKind.noConfusion

/-- Settles O31: the branches of `decStep`, each where OBUF has room and where it is full. -/
theorem decBitConsumesOneBit : Obligations.DecBitConsumesOneBit := by
  intro s arg hv child
  rw [exec_decBit_treed arg hv]
  refine ⟨fun hroot hroom => ?_, fun hroot hleaf hroom => ?_, fun hroot hinner => ?_,
    fun hemits hfull => ?_⟩
  · rw [decStep_degenerate hroot hroom]
    exact ⟨_, rfl, rfl, obufAt_emitted_singleton s _ s.decCur⟩
  · rw [decStep_emit (b := argBit arg) (kind_ne_leaf hroot) hleaf hroom]
    exact ⟨_, rfl, rfl, obufAt_emitted_singleton s _ s.root⟩
  · rw [decStep_move (b := argBit arg) (kind_ne_leaf hroot) (kind_ne_leaf hinner)]
    rfl
  · have hlimit : decStep (argBit arg) s = .error (.raise .limit) := by
      by_cases hroot : (nodeAt s s.root).kind = .leaf
      · exact decStep_degenerate_full hroot hfull
      · exact decStep_full hroot (hemits.resolve_left hroot) hfull
    rw [hlimit]
    rfl

/-- DEC_END, once there is a tree (45_bitstream_decoder.md R119). -/
theorem exec_decEnd_treed {s : State} (h : s.treeValid = true) :
    exec .decEnd s = runCommand s (endCheck s) decEndOnError := by
  rw [exec_eq_runCommand, commandBody, h, guarded_true]
  rfl

/-- Settles O32: the two branches of `endCheck`. -/
theorem decEndChecksTheCursor : Obligations.DecEndChecksTheCursor := by
  intro s hv
  rw [exec_decEnd_treed hv]
  refine ⟨fun hroot => ?_, fun hoff => ?_⟩
  · rw [endCheck_ok_iff.mpr ⟨hroot, rfl⟩]
    rfl
  · rw [endCheck, if_pos hoff]
    rfl

/-! ### DEC_RUN -/

/-- DEC_RUN, once there is a tree (45_bitstream_decoder.md R120). -/
theorem exec_decRun_treed {s : State} (h : s.treeValid = true) :
    exec .decRun s = runCommand s (decRunBody s) decRunOnError := by
  rw [exec_eq_runCommand, commandBody, h, guarded_true]
  rfl

/-- DEC_RUN that fails withdraws the output, whichever of its two errors it raises
(45_bitstream_decoder.md R120). -/
theorem exec_decRun_fails {s : State} {e : ErrKind} (h : s.treeValid = true)
    (hb : decRunBody s = .error (.raise e)) :
    exec .decRun s = .next (afterError (errCodeOf e) { s with
      outLen := 0, decCur := s.root, obuf := ⟨s.freeCtr, []⟩, freeCtr := s.freeCtr + 1 }) := by
  rw [exec_decRun_treed h, hb]
  rcases decRunBody_error hb with he | he <;> cases he <;> rfl

/-- A tree whose numberless form is a Leaf is a numbered Leaf. -/
theorem CodeTree.eq_leaf_of_erase {tree : CodeTree} {x : Byte} (h : tree.erase = .leaf x) :
    ∃ i, tree = .leaf i x := by
  cases tree with
  | leaf i y => cases h; exact ⟨i, rfl⟩
  | node i l r => cases h

/-- The body of DEC_RUN over a degenerate tree (45_bitstream_decoder.md R116). -/
theorem HoldsTree.decRunBody_degenerate {s : State} {tree : CodeTree} {x : Byte}
    (h : HoldsTree s tree) (hx : tree.erase = .leaf x) :
    (s.cbits ≤ s.obufBytes →
      decRunBody s = .ok (emitted (rewind s) (List.replicate s.cbits x) s.root)) ∧
    (s.obufBytes < s.cbits → decRunBody s = .error (.raise .limit)) := by
  obtain ⟨i, rfl⟩ := CodeTree.eq_leaf_of_erase hx
  exact Machine.decRunBody_degenerate h.arena h.root

/-- The state after emitting the bytes `bs` as the whole output. -/
theorem emitted_rewind (s : State) (bs : List Byte) (c : Nat) : emitted (rewind s) bs c =
    { s with obuf := bufWrite s.obuf 0 bs, outLen := bs.length, decCur := c } := by
  rw [emitted, rewind_outLen, Nat.zero_add]
  rfl

/-- Settles O33: the body emits the bytes, on the codes and over a degenerate tree alike. -/
theorem decRunDecodesTheCodes : Obligations.DecRunDecodesTheCodes := by
  intro s tree bs hv h hcontent hroom
  have hbody : decRunBody s = .ok (emitted (rewind s) bs s.root) := by
    rcases hcontent with ⟨hcodes, hsymbols⟩ | ⟨x, hx, rfl⟩
    · exact decRunBody_encode h.arena h.root h.distinct hsymbols hcodes hroom
    · exact (h.decRunBody_degenerate hx).1 (List.length_replicate.ge.trans hroom)
  rw [exec_decRun_treed hv, hbody]
  exact ⟨_, rfl, congrArg afterDone (emitted_rewind s bs s.root),
    outputBytes_emitted (rewind s) bs s.root, fun a ha =>
      bufGet_bufWrite_outside _ _ (.inr ((Nat.zero_add bs.length).le.trans ha))⟩

/-- Settles O34: the body of DEC_RUN in each of the three cases. -/
theorem decRunErrors : Obligations.DecRunErrors := by
  intro s tree bs p q rest x hv h hsymbols
  refine ⟨fun hroom hcode hp hq hcontent => ?_, fun hover hcontent => ?_, fun hx hover => ?_⟩
  · have hindices : tree.indices.Nodup := h.once.nodup_iff.mpr List.nodup_range
    exact exec_decRun_fails hv (decRunBody_truncated h.arena h.root hindices h.distinct hsymbols
      hcode hp hq hcontent hroom)
  · exact exec_decRun_fails hv
      (decRunBody_full h.arena h.root h.distinct hsymbols hcontent hover)
  · exact exec_decRun_fails hv ((h.decRunBody_degenerate hx).2 hover)

/-! ### Frames -/

/-- A decoder step writes to no byte of OBUF but `OBUF[OUT_LEN]` (45_bitstream_decoder.md R115, R116). -/
theorem decStep_writes {b : Bool} {s t : State} (h : decStep b s = .ok t) {a : Nat}
    (ha : a ≠ s.outLen) : obufAt t a = obufAt s a := by
  rw [← decAll_singleton] at h
  obtain ⟨-, hle, hkeep⟩ := decAll_writes h
  rw [List.length_singleton] at hle
  exact hkeep a (by omega)

/-- The body of DEC_RUN, where it ends, changes OUT_LEN, DEC_CUR and the first OUT_LEN bytes of OBUF
(45_bitstream_decoder.md R120). -/
theorem decRunBody_frame {s t : State} (h : decRunBody s = .ok t) :
    t = { s with obuf := t.obuf, outLen := t.outLen, decCur := t.decCur } ∧
      ∀ a, t.outLen ≤ a → obufAt t a = obufAt s a := by
  obtain ⟨s1, hdec, hend⟩ := thenBody_eq_ok.mp h
  obtain ⟨-, rfl⟩ := endCheck_ok_iff.mp hend
  obtain ⟨-, -, hkeep⟩ := decAll_writes hdec
  exact ⟨decAll_frame (s := rewind s) hdec, fun a ha => hkeep a (.inr ha)⟩

/-- The commands of the decoder, DEC_BIT with the operand `arg`. -/
abbrev decoderCommands (arg : Byte) : List Instr := [.decBegin, .decBit arg, .decEnd, .decRun]

/-- A decoder command's body, where it ends, changes OBUF, OUT_LEN and DEC_CUR only. -/
theorem decoderBody_frame {arg : Byte} {i : Instr} {s t : State} (hi : i ∈ decoderCommands arg)
    (h : commandBody i s = .ok t) :
    t = { s with obuf := t.obuf, outLen := t.outLen, decCur := t.decCur } := by
  simp only [List.mem_cons, List.not_mem_nil, or_false] at hi
  rcases hi with rfl | rfl | rfl | rfl <;> obtain ⟨-, h⟩ := guarded_eq_ok.mp h
  · cases h; rfl
  · exact decStep_frame h
  · obtain ⟨-, rfl⟩ := endCheck_ok_iff.mp h; rfl
  · exact (decRunBody_frame h).1

/-- What a decoder command changes on an error. -/
theorem decoderOnError_frame {arg : Byte} {i : Instr} (e : ErrKind) (s : State)
    (hi : i ∈ decoderCommands arg) : commandOnError i e s = { s with
      obuf := (commandOnError i e s).obuf, outLen := (commandOnError i e s).outLen
      decCur := (commandOnError i e s).decCur, freeCtr := (commandOnError i e s).freeCtr } := by
  simp only [List.mem_cons, List.not_mem_nil, or_false] at hi
  rcases hi with rfl | rfl | rfl | rfl
  · rfl
  · rfl
  · cases e <;> rfl
  · cases e <;> rfl

/-- Settles O54: the registers of all four commands, then OBUF command by command. -/
theorem decoderFrame : Obligations.DecoderFrame := by
  intro s t arg
  refine ⟨fun i hi ht => ?_, fun i hi ht => ?_, fun ht => ?_, fun ht _ herr => ?_⟩
  · rcases exec_next_iff.mp ht with ⟨s1, hok, rfl⟩ | ⟨e, -, rfl⟩
    · rw [decoderBody_frame hi hok]
      rfl
    · rw [decoderOnError_frame e s hi]
      rfl
  · rcases List.mem_pair.mp hi with rfl | rfl <;>
      rcases exec_next_iff.mp ht with ⟨s1, hok, rfl⟩ | ⟨e, -, rfl⟩
    · cases (guarded_eq_ok.mp hok).2
      exact ⟨rfl, fun _ => rfl⟩
    · exact ⟨rfl, fun _ => rfl⟩
    · obtain ⟨-, rfl⟩ := endCheck_ok_iff.mp (guarded_eq_ok.mp hok).2
      exact ⟨rfl, fun _ => rfl⟩
    · cases e <;> exact ⟨rfl, fun _ => rfl⟩
  · rcases exec_next_iff.mp ht with ⟨s1, hok, rfl⟩ | ⟨e, -, rfl⟩
    · have hstep := (guarded_eq_ok.mp hok).2
      refine ⟨?_, fun a => decStep_writes (t := s1) hstep⟩
      rw [decStep_frame hstep]
      rfl
    · exact ⟨rfl, fun _ _ => rfl⟩
  · rcases exec_next_iff.mp ht with ⟨s1, hok, rfl⟩ | ⟨e, -, rfl⟩
    · obtain ⟨hregs, hkeep⟩ := decRunBody_frame (guarded_eq_ok.mp hok).2
      refine ⟨?_, hkeep⟩
      rw [hregs]
      rfl
    · exact absurd herr (errCodeOf_raisable e).2

end Sys2Proof.Machine
end

section
/-!
The tree serializer's commands (46_tree_serializer.md R122 to R127): the header TS_SERIALIZE writes, the
headers TS_DESERIALIZE accepts and rejects, and the two in sequence.
-/

namespace Sys2Proof.Machine

/-- The body of TS_SERIALIZE, where NODE holds a tree (46_tree_serializer.md R122, R124). -/
theorem HoldsTree.serializeTree_eq {s : State} {tree : CodeTree} (h : HoldsTree s tree) :
    serializeTree s = .ok { s with
      hdr := bufWrite s.hdr 0 tree.erase.header, hbits := tree.erase.header.length } := by
  obtain ⟨-, hleaves⟩ := h.leaves
  have hlen := tree.erase.header_length
  have hser : serBits s.node walkFuel s.root = some tree.erase.header := by
    rw [← h.root]
    exact serBits_of_tree h.arena (by unfold walkFuel; omega)
  exact serializeTree_ok_iff.mpr ⟨_, hser, by unfold hdrMaxBits; omega, rfl⟩

/-- TS_DESERIALIZE accepts no header but that of a tree with distinct symbols
(46_tree_serializer.md R125). -/
theorem header_of_deserializeTree {s t : State} (h : deserializeTree s = .ok t) :
    ∃ tree : SymTree, tree.symbols.Nodup ∧ headerBits s = tree.header := by
  obtain ⟨d, hd, hend, -⟩ := deserializeTree_ok_iff.mp h
  obtain ⟨-, -, tree, hto⟩ := deserNode_some (Nat.zero_le _) hd
  have hbits : headerBits s = tree.header ++ d.bits := hto.bits
  exact ⟨tree, hto.nodup, by rw [hbits, hend, List.append_nil]⟩

/-- Settles O35: the body writes the header, whose length is that of R123. -/
theorem tsSerializeWritesTheHeader : Obligations.TsSerializeWritesTheHeader := by
  intro s tree hv h
  have hbody := h.serializeTree_eq
  have hlen : tree.erase.header.length = 10 * tree.erase.symbols.length - 1 :=
    Nat.eq_sub_of_add_eq tree.erase.header_length
  refine ⟨_, exec_next_iff.mpr (.inl ⟨_, guarded_eq_ok.mpr ⟨hv, hbody⟩, rfl⟩), ?_,
    bufSlice_bufWrite _ _ _ _, fun k hk => serializeTree_keeps_hdr hbody hk⟩
  rw [← hlen]
  rfl

/-- Settles O36: the body rebuilds the tree. -/
theorem tsDeserializeRebuildsTheTree : Obligations.TsDeserializeRebuildsTheTree := by
  intro s tree hbits hn
  obtain ⟨t, hbody, hstate, hholds, hfields, hrest⟩ := deserializeTree_header hbits hn
  exact ⟨complete t, exec_next_iff.mpr (.inl ⟨t, hbody, rfl⟩), congrArg complete hstate,
    hholds.congr rfl rfl rfl, hfields, hrest⟩

/-- Settles O37: the body ends on the header of a tree only, and its one error is CORRUPT_HEADER. -/
theorem tsDeserializeRejectsOtherHeaders : Obligations.TsDeserializeRejectsOtherHeaders := by
  intro s hno
  cases hbody : deserializeTree s with
  | ok t =>
    obtain ⟨tree, hn, hbits⟩ := header_of_deserializeTree hbody
    exact absurd hbits (hno tree hn)
  | error e =>
    rw [deserializeTree_error hbody] at hbody
    exact exec_next_iff.mpr (.inr ⟨.corruptHeader, hbody, rfl⟩)

/-- Settles O38: O36 on the header that O35 leaves. -/
theorem serializeThenDeserialize : Obligations.SerializeThenDeserialize := by
  intro s tree hv h
  obtain ⟨t, ht, htstate, hheader, -⟩ := tsSerializeWritesTheHeader s tree hv h
  obtain ⟨u, hu, hustate, hholds, -⟩ :=
    tsDeserializeRebuildsTheTree t tree.erase hheader h.distinct
  refine ⟨t, u, tree.erase.number 0, ht, hu, ?_, ?_, hholds, SymTree.number_erase _ _⟩
  · calc u.errCode = t.errCode := by rw [hustate]; rfl
      _ = s.errCode := by rw [htstate]; rfl
  · rw [hustate]; rfl

end Sys2Proof.Machine
end

section
/-!
UNPACK's errors, in the order of its checks (47_container.md R130).
-/

namespace Sys2Proof.Machine

/-- UNPACK that fails leaves no header and no content (47_container.md R130). -/
theorem exec_unpack_fails {s : State} {e : ErrKind} (h : unpackBody s = .error (.raise e)) :
    exec .unpack s = .next (afterError (errCodeOf e) { s with hbits := 0, cbits := 0 }) :=
  exec_next_iff.mpr (.inr ⟨e, h, rfl⟩)

/-- UNPACK, once the two length fields have been read: the four checks that are left. -/
theorem unpackBody_of_fields {s : State} (h1 : 1 ≤ fieldH s) (h2 : fieldH s ≤ 2559)
    (h6 : 6 ≤ s.inLen) : unpackBody s =
      if s.inLen < 6 + ceil8 (fieldH s) then .error (.raise .corruptHeader)
      else if s.inLen < 6 + ceil8 (fieldH s) + ceil8 (fieldN s) then .error (.raise .truncatedContent)
      else if s.inLen > 6 + ceil8 (fieldH s) + ceil8 (fieldN s) then .error (.raise .corruptHeader)
      else if fieldN s > s.cbufBits then .error (.raise .limit)
      else .ok (unpackFields s (fieldH s) (fieldN s)) := by
  rw [unpackBody, if_neg (by omega), if_neg (by omega), if_neg (by rw [hdrMaxBits]; omega)]

/-- UNPACK of a container whose content is cut off (47_container.md R130). -/
theorem unpackBody_truncated {s : State} (h1 : 1 ≤ fieldH s) (h2 : fieldH s ≤ 2559)
    (hheader : 6 + ceil8 (fieldH s) ≤ s.inLen)
    (hcut : s.inLen < 6 + ceil8 (fieldH s) + ceil8 (fieldN s)) :
    unpackBody s = .error (.raise .truncatedContent) := by
  rw [unpackBody_of_fields h1 h2 (by omega), if_neg (by omega), if_pos hcut]

/-- Settles O41: the checks one by one, each where those before it pass. -/
theorem unpackErrors : Obligations.UnpackErrors := by
  intro s h0
  refine ⟨fun hshort => ?_, fun h6 hlen => ?_, fun h1 h2 h6 hcut => ?_, fun h1 h2 hheader hcut => ?_,
    fun h1 h2 htrailing => ?_, fun h1 h2 hexact hover => ?_⟩
  · exact exec_unpack_fails (e := .corruptHeader) (by rw [unpackBody, if_neg h0, if_pos hshort])
  · exact exec_unpack_fails (e := .corruptHeader)
      (by rw [unpackBody, if_neg h0, if_neg (Nat.not_lt.mpr h6)]; exact if_pos hlen)
  · exact exec_unpack_fails (e := .corruptHeader)
      (by rw [unpackBody_of_fields h1 h2 h6]; exact if_pos hcut)
  · exact exec_unpack_fails (unpackBody_truncated h1 h2 hheader hcut)
  · refine exec_unpack_fails (e := .corruptHeader) ?_
    change 6 + ceil8 (fieldH s) + ceil8 (fieldN s) < s.inLen at htrailing
    rw [unpackBody_of_fields h1 h2 (by omega), if_neg (by omega), if_neg (by omega), if_pos htrailing]
  · refine exec_unpack_fails (e := .limit) ?_
    change s.inLen = 6 + ceil8 (fieldH s) + ceil8 (fieldN s) at hexact
    rw [unpackBody_of_fields h1 h2 (by omega), if_neg (by omega), if_neg (by omega),
      if_neg (by omega)]
    exact if_pos hover

end Sys2Proof.Machine
end

section
/-!
COMPRESS (47_container.md R131, R134): what it answers on a non-empty input where the artifact fits and
where it does not, and that this depends on the input alone.
-/

namespace Sys2Proof.Machine

/-- The input is short enough for TOTAL (00_scope.md R9). -/
theorem inLen_le {s : State} (hcaps : CapsLegal s) (hlens : LengthsInRange s) :
    s.inLen ≤ 2 ^ 32 - 1 := by
  obtain ⟨-, hcap, -⟩ := hcaps
  obtain ⟨hin, -⟩ := hlens
  omega

/-- Everything COMPRESS answers on a non-empty input: the artifact where it fits, else LIMIT
(47_container.md R131). -/
theorem exec_compress_cases {s : State} (hcaps : CapsLegal s) (hlens : LengthsInRange s)
    (h0 : 0 < s.inLen) : ∃ s3 tree, Coded s s3 tree ∧
      (CompressFits s tree.erase ∧ (∃ t, exec .compress s = .next t ∧ Compressed s t tree) ∨
        ¬ CompressFits s tree.erase ∧
          exec .compress s = .next (afterError 0x06#8 (compressOnError .limit s))) := by
  obtain ⟨s3, tree, hcoded, hcases⟩ := compressBody_cases h0 (inLen_le hcaps hlens)
  refine ⟨s3, tree, hcoded, hcases.imp ?_ ?_⟩
  · rintro ⟨hfits, t, hbody, ht⟩
    exact ⟨hfits, complete t, exec_next_iff.mpr (.inl ⟨t, hbody, rfl⟩), ht⟩
  · rintro ⟨hover, hbody⟩
    exact ⟨hover, exec_next_iff.mpr (.inr ⟨.limit, hbody, rfl⟩)⟩

/-- A COMPRESS that ends leaves ERR_CODE as it was. -/
theorem Compressed.errCode {s t : State} {tree : CodeTree} (h : Compressed s t tree) :
    t.errCode = s.errCode := by rw [h.state]; rfl

/-- A COMPRESS of a non-empty input that raised no error left the artifact. -/
theorem compressed_of_exec {s t : State} (hcaps : CapsLegal s) (hlens : LengthsInRange s)
    (h0 : 0 < s.inLen) (ht : exec .compress s = .next t) (herr : t.errCode = 0#8) :
    ∃ tree, CompressFits s tree.erase ∧ Compressed s t tree := by
  obtain ⟨-, tree, -, ⟨hfits, t', ht', hc⟩ | ⟨-, ht'⟩⟩ := exec_compress_cases hcaps hlens h0
  · cases ht.symm.trans ht'
    exact ⟨tree, hfits, hc⟩
  · cases ht.symm.trans ht'
    exact absurd herr (errCodeOf_raisable .limit).2

/-- Codes of 255 bits are long enough for any input (00_scope.md R8). -/
theorem SymTree.encode_length_le {t : SymTree} (hn : t.symbols.Nodup) (bs : List Byte) :
    (t.encode bs).length ≤ 255 * bs.length := by
  have hle := SymTree.symbols_le hn
  induction bs with
  | nil => exact Nat.le_refl _
  | cons b bs ih =>
    have hb := t.code_length_le hn hle b
    change (t.code b ++ t.encode bs).length ≤ _
    rw [List.length_append, List.length_cons]
    omega

/-- Settles O43: buffers for codes of 255 bits hold the content and the artifact of any tree. -/
theorem compressProducesTheArtifact : Obligations.CompressProducesTheArtifact := by
  intro s hcaps hlens h0 hcbuf hobuf
  obtain ⟨_, tree, hcoded, ⟨-, t, ht, hc⟩ | ⟨hover, -⟩⟩ := exec_compress_cases hcaps hlens h0
  · exact ⟨t, tree, ht, hc⟩
  · refine absurd ?_ hover
    have hcontent := SymTree.encode_length_le hcoded.holds.distinct (inputBytes s)
    have hheader := tree.erase.header_length
    have hleaves := hcoded.holds.leaves.2
    rw [inputBytes_length] at hcontent
    unfold ceil8 at hobuf
    unfold CompressFits ceil8
    omega

/-- Where FREQ holds the counts of a non-empty input, TOTAL is not 0. -/
theorem CountsAre.total_pos {s : State} {b : Byte} {bs : List Byte} (h : CountsAre s bs)
    (hb : b ∈ bs) : 0 < s.total := by
  obtain ⟨⟨htotal, -⟩, hcount⟩ := h
  calc 0 < bs.count b := List.count_pos_iff.mpr hb
    _ = freqAt s b.toNat := (hcount b).symm
    _ ≤ ((List.range 256).map (freqAt s)).sum := List.single_le_sum (fun _ _ => Nat.zero_le _) _
      (List.mem_map.mpr ⟨_, List.mem_range.mpr b.isLt, rfl⟩)
    _ = s.total := htotal.symm

/-- Settles O44: COMPRESS builds the tree of TB_BUILD, so the criterion is that of `Coded`. -/
theorem compressFailsWithLimitOnly : Obligations.CompressFailsWithLimitOnly := by
  intro s u v tree hcaps hlens h0 hu hv hholds
  obtain ⟨b, hb⟩ := List.exists_mem_of_length_pos ((inputBytes_length s).symm ▸ h0)
  obtain ⟨v1, hbuild, rfl⟩ := buildTree_of_exec (hu.total_pos hb) hv
  obtain ⟨s3, tree', hcoded, hcases⟩ := exec_compress_cases hcaps hlens h0
  obtain rfl : tree = tree' := hcoded.tree_of_counts hu hbuild (hholds.congr rfl rfl rfl)
  rcases hcases with ⟨hfits, t, ht, hc⟩ | ⟨hover, ht⟩
  · exact ⟨t, ht, fun _ => hc, fun hover => absurd hfits hover⟩
  · rw [compressOnError_eq] at ht
    refine ⟨_, ht, fun hfits => absurd hfits hover, fun _ => ⟨rfl, ⟨rfl, rfl, rfl, rfl, rfl, rfl⟩, ?_⟩⟩
    simp [afterError]

/-- Settles O48: the tree depends on the input alone, so both runs meet one criterion. -/
theorem compressDependsOnTheInputAlone : Obligations.CompressDependsOnTheInputAlone := by
  intro s s' t t' hcaps hlens hcaps' hlens' hs hs' hinput hcbuf hobuf ht ht'
  have hlen : s'.inLen = s.inLen := by
    rw [← inputBytes_length, ← inputBytes_length, hinput]
  rcases Nat.eq_zero_or_pos s.inLen with h0 | h0
  · cases (emptyInputIsNoError s h0).1.symm.trans ht
    cases (emptyInputIsNoError s' (hlen.trans h0)).1.symm.trans ht'
    exact ⟨hs.trans hs'.symm, rfl⟩
  · obtain ⟨s3, tree, hcoded, hcases⟩ := exec_compress_cases hcaps hlens h0
    obtain ⟨s3', tree', hcoded', hcases'⟩ := exec_compress_cases hcaps' hlens' (hlen.symm ▸ h0)
    obtain rfl : tree' = tree := hcoded.unique hcoded' hinput.symm
    have hsame : CompressFits s' tree'.erase ↔ CompressFits s tree'.erase := by
      rw [CompressFits, CompressFits, hinput, hcbuf, hobuf]
    rcases hcases with ⟨hfits, u, hu, hc⟩ | ⟨hover, hu⟩
    · obtain ⟨-, u', hu', hc'⟩ := hcases'.resolve_right fun h => h.1 (hsame.mpr hfits)
      cases ht.symm.trans hu
      cases ht'.symm.trans hu'
      rw [hc.errCode, hc'.errCode, hc.output, hc'.output, hinput]
      exact ⟨hs.trans hs'.symm, rfl⟩
    · obtain ⟨-, hu'⟩ := hcases'.resolve_left fun h => hover (hsame.mp h.1)
      cases ht.symm.trans hu
      cases ht'.symm.trans hu'
      exact ⟨rfl, rfl⟩

end Sys2Proof.Machine
end

section
/-!
DECOMPRESS (47_container.md R132): what it gives on a container, which error it raises on another input,
and the laws it makes with COMPRESS (R133, R135).
-/

namespace Sys2Proof.Machine

/-! ### The error a command records -/

/-- The code of the error a body raises, 0 where it raises none. -/
def Body.code : Body → Byte
  | .error (.raise e) => errCodeOf e
  | _ => 0#8

/-- With no error pending, ERR_CODE after a command is the code of what its body raised
(40_control.md R83, R85). -/
theorem exec_errCode {i : Instr} {s t : State} (ht : exec i s = .next t) (hs : s.errCode = 0#8) :
    t.errCode = (commandBody i s).code := by
  rcases exec_next_iff.mp ht with ⟨s1, hok, rfl⟩ | ⟨e, herr, rfl⟩
  · rw [hok]
    rcases commandBody_errorRegs hok with ⟨hkept, -⟩ | ⟨-, hclear, -⟩
    · exact hkept.trans hs
    · exact hclear
  · rw [herr]
    rfl

theorem Body.code_counterOf (x : State) (b : Body) : (Body.counterOf x b).code = b.code := by
  cases b <;> rfl

/-! ### Which error DECOMPRESS raises -/

/-- DECOMPRESS fails where UNPACK does (47_container.md R132). -/
theorem decompressBody_of_unpack_error {s : State} {e : Stop} (h : unpackBody s = .error e) :
    decompressBody s = .error e := by
  rw [decompressBody, unpackBody_sessionClear, h]
  rfl

/-- Where UNPACK ends, DECOMPRESS goes on with the tree and the content it left. -/
theorem decompressBody_of_unpack {s s1 : State} (h0 : s.inLen ≠ 0) (h : unpackBody s = .ok s1) :
    decompressBody s = thenBody (deserializeTree (sessionClear s1)) decRunBody := by
  have hin : s1.inLen ≠ 0 := by
    rcases unpackBody_cases h with ⟨hz, -⟩ | ⟨-, -, -, -, rfl⟩
    · exact absurd hz h0
    · exact h0
  rw [decompressBody, unpackBody_sessionClear, h]
  exact if_neg hin

/-- DEC_RUN raises the same error whatever the frequency counter, BUSY and DONE are. -/
theorem decRunBody_code_counterOf (x s : State) :
    (decRunBody (counterOf x s)).code = (decRunBody s).code := by
  rw [decRunBody_counterOf, Body.code_counterOf]

/-- What DECOMPRESS runs after UNPACK meets the checks of TS_DESERIALIZE, then of DEC_RUN. -/
theorem deserialize_decRun_code {s b c : State} (hs : s.errCode = 0#8)
    (hb : exec .tsDeserialize (complete s) = .next b) (hc : exec .decRun b = .next c) :
    (thenBody (deserializeTree (sessionClear s)) decRunBody).code =
      if b.errCode ≠ 0#8 then b.errCode else c.errCode := by
  have hdeser : deserializeTree (sessionClear s) =
      Body.counterOf (sessionClear s) (deserializeTree (complete s)) :=
    deserializeTree_counterOf (sessionClear s) (complete s) 0 0 0 false false
  have hcode : b.errCode = (deserializeTree (complete s)).code := exec_errCode hb hs
  rcases exec_next_iff.mp hb with ⟨u, htree, rfl⟩ | ⟨e, htree, rfl⟩
  · change deserializeTree (complete s) = .ok u at htree
    have hb0 : (complete u).errCode = 0#8 := hcode.trans (htree ▸ rfl)
    have hvalid : (complete u).treeValid = true := by
      obtain ⟨d, -, -, rfl⟩ := deserializeTree_ok_iff.mp htree
      rfl
    rw [if_neg (not_not.mpr hb0), hdeser, htree, Body.counterOf_ok, thenBody_ok,
      decRunBody_code_counterOf, exec_errCode hc hb0, commandBody, hvalid, guarded_true]
    exact (decRunBody_code_counterOf (complete u) u).symm
  · change deserializeTree (complete s) = .error (.raise e) at htree
    rw [hdeser, htree]
    exact (if_pos (errCodeOf_raisable e).2).symm

/-- DECOMPRESS meets the checks of UNPACK, TS_DESERIALIZE and DEC_RUN in this order
(47_container.md R132). -/
theorem decompressBody_code {s a b c : State} (hs : s.errCode = 0#8) (h0 : s.inLen ≠ 0)
    (ha : exec .unpack s = .next a) (hb : exec .tsDeserialize a = .next b)
    (hc : exec .decRun b = .next c) : (decompressBody s).code =
      if a.errCode ≠ 0#8 then a.errCode else if b.errCode ≠ 0#8 then b.errCode else c.errCode := by
  rcases exec_next_iff.mp ha with ⟨s1, hunpack, rfl⟩ | ⟨e, hunpack, rfl⟩
  · have hs1 : s1.errCode = 0#8 := (unpackBody_keepsErrorRegs hunpack).1.trans hs
    rw [decompressBody_of_unpack h0 hunpack, deserialize_decRun_code hs1 hb hc]
    exact (if_neg (not_not.mpr hs1)).symm
  · rw [decompressBody_of_unpack_error hunpack]
    exact (if_pos (errCodeOf_raisable e).2).symm

/-- UNPACK always has a next state. -/
theorem unpack_next (s : State) : ∃ t, exec .unpack s = .next t := by
  rw [exec_eq_runCommand, commandBody]
  cases h : unpackBody s with
  | ok t => exact ⟨_, rfl⟩
  | error e => rcases unpackBody_error h with rfl | rfl | rfl <;> exact ⟨_, rfl⟩

/-- Everything DECOMPRESS answers: it ends, or raises one of three errors and leaves no partial result
(47_container.md R132). -/
theorem exec_decompress_cases (s : State) :
    (∃ t, decompressBody s = .ok t ∧ exec .decompress s = .next (complete t)) ∨
      ∃ e ∈ [ErrKind.corruptHeader, .truncatedContent, .limit],
        exec .decompress s = .next (afterError (errCodeOf e) (decompressOnError e s)) := by
  cases h : decompressBody s with
  | ok t => exact .inl ⟨t, rfl, exec_next_iff.mpr (.inl ⟨t, h, rfl⟩)⟩
  | error stop =>
    obtain ⟨e, he, rfl⟩ : ∃ e ∈ [ErrKind.corruptHeader, .truncatedContent, .limit],
        stop = .raise e := by
      rcases decompressBody_error h with rfl | rfl | rfl <;> exact ⟨_, by decide, rfl⟩
    exact .inr ⟨e, he, exec_next_iff.mpr (.inr ⟨e, h, rfl⟩)⟩

/-- The error DECOMPRESS records: none on an empty input, else that of the first command that fails. -/
theorem exec_decompress_errCode {s t : State} (hs : s.errCode = 0#8)
    (ht : exec .decompress s = .next t) : (s.inLen = 0 → t.errCode = 0#8) ∧
      (s.inLen ≠ 0 → ∃ a b c, exec .unpack s = .next a ∧ exec .tsDeserialize a = .next b ∧
        exec .decRun b = .next c ∧
        t.errCode = if a.errCode ≠ 0#8 then a.errCode
          else if b.errCode ≠ 0#8 then b.errCode else c.errCode) := by
  refine ⟨fun h0 => ?_, fun h0 => ?_⟩
  · cases (emptyInputIsNoError s h0).2.1.symm.trans ht
    exact hs
  · obtain ⟨a, ha⟩ := unpack_next s
    obtain ⟨b, hb⟩ := tsDeserialize_next a
    obtain ⟨c, hc⟩ := decRun_next b
    exact ⟨a, b, c, ha, hb, hc, (exec_errCode ht hs).trans (decompressBody_code hs h0 ha hb hc)⟩

/-- Settles O46: what DECOMPRESS answers, and which error it records. -/
theorem decompressFailsCleanly : Obligations.DecompressFailsCleanly := by
  intro s hs
  rcases exec_decompress_cases s with ⟨t, hok, ht⟩ | ⟨e, he, ht⟩
  · refine ⟨_, ht, .inl ?_, exec_decompress_errCode hs ht⟩
    rw [exec_errCode ht hs, commandBody, hok]
    rfl
  · have herr := exec_decompress_errCode hs ht
    rw [decompressOnError_eq] at ht herr
    refine ⟨_, ht, .inr ⟨⟨errCodeOf e, List.mem_map_of_mem he, rfl⟩, ⟨rfl, rfl, rfl, rfl⟩, ?_⟩, herr⟩
    simp [afterError]

/-! ### DECOMPRESS on a container -/

/-- Settles O45: the container up to DEC_RUN, then DEC_RUN on its content. -/
theorem decompressReadsTheArtifact : Obligations.DecompressReadsTheArtifact := by
  intro s tree bs n hb cb hn hinput lh lc hheader hcontent hl hc hroom
  obtain ⟨s2, hbody, hs2, hholds, hhdr, hcbuf, hunused, -⟩ :=
    decompressBody_input hinput lh lc hheader hn hl hc
  have hcap : s2.obufBytes = s.obufBytes := by rw [hs2]; rfl
  have hbits : s2.cbits = n := by rw [hs2]
  have hrun : decRunBody s2 = .ok (emitted (rewind s2) bs s2.root) := by
    rcases hcontent with ⟨hcodes, hsymbols⟩ | ⟨x, rfl, rfl⟩
    · exact decRunBody_encode hholds.arena hholds.root hholds.distinct
        (by rwa [SymTree.number_erase]) (by rw [SymTree.number_erase, hcbuf]; exact hcodes)
        (by rwa [hcap])
    · rw [List.length_replicate] at hroom
      rw [← hbits]
      exact (hholds.decRunBody_degenerate (SymTree.number_erase _ _)).1 (by rwa [hbits, hcap])
  refine ⟨complete (emitted (rewind s2) bs s2.root),
    exec_next_iff.mpr (.inl ⟨_, hbody.trans hrun, rfl⟩), ?_, hholds.congr rfl rfl rfl, hunused, hhdr,
    hcbuf, outputBytes_emitted (rewind s2) bs s2.root⟩
  rw [emitted_rewind, hs2]
  rfl

/-! ### COMPRESS, then DECOMPRESS -/

/-- An XFER that raised no error left the output as the input (40_control.md R90). -/
theorem xfer_of_exec {s t : State} (ht : exec .xfer s = .next t) (herr : t.errCode = 0#8) :
    inputBytes t = outputBytes s ∧
      t = afterDone { s with ibuf := bufWrite s.ibuf 0 (outputBytes s), inLen := s.outLen } := by
  rcases Nat.lt_or_ge s.ibufBytes s.outLen with hlong | hfits
  · cases (exec_xfer_limit hlong).symm.trans ht
    exact absurd herr (errCodeOf_raisable .limit).2
  · cases (exec_xfer_fits hfits).symm.trans ht
    have hinput := bufSlice_bufWrite Config.freeByte s.ibuf 0 (outputBytes s)
    rw [outputBytes_length] at hinput
    exact ⟨hinput, rfl⟩

/-- DECOMPRESS of the artifact of a byte sequence gives the sequence where it fits OBUF, else LIMIT
(47_container.md R132). -/
theorem exec_decompress_artifact {s : State} {tree : SymTree} {bs : List Byte}
    (hinput : inputBytes s = artifact tree.header (tree.encode bs)) (hn : tree.symbols.Nodup)
    (hsymbols : ∀ b ∈ bs, b ∈ tree.symbols) (hl : (tree.encode bs).length < 2 ^ 32)
    (hc : (tree.encode bs).length ≤ s.cbufBits) : ∃ t, exec .decompress s = .next t ∧
      (bs.length ≤ s.obufBytes →
        t.errCode = s.errCode ∧ t.outLen = bs.length ∧ outputBytes t = bs) ∧
      (s.obufBytes < bs.length → t.errCode = 0x06#8) := by
  obtain ⟨s2, hbody, hs2, hholds, hcontent⟩ := decompressBody_artifact hinput hn hl hc
  have hcap : s2.obufBytes = s.obufBytes ∧ s2.errCode = s.errCode := by rw [hs2]; exact ⟨rfl, rfl⟩
  have herase : (tree.number 0).erase = tree := SymTree.number_erase tree 0
  rw [← herase] at hsymbols hcontent
  rcases Nat.lt_or_ge s.obufBytes bs.length with hover | hroom
  · have hrun : decRunBody s2 = .error (.raise .limit) :=
      decRunBody_full (rest := []) hholds.arena hholds.root hholds.distinct hsymbols
        (by rw [List.append_nil, hcontent]) (by rwa [hcap.1])
    exact ⟨_, exec_next_iff.mpr (.inr ⟨.limit, hbody.trans hrun, rfl⟩),
      fun hroom => absurd hover (Nat.not_lt.mpr hroom), fun _ => rfl⟩
  · have hrun := decRunBody_encode hholds.arena hholds.root hholds.distinct hsymbols hcontent
      (by rwa [hcap.1])
    exact ⟨_, exec_next_iff.mpr (.inl ⟨_, hbody.trans hrun, rfl⟩),
      fun _ => ⟨hcap.2, Nat.zero_add _, outputBytes_emitted (rewind s2) bs s2.root⟩,
      fun hover => absurd hover (Nat.not_lt.mpr hroom)⟩

/-- Settles O47: after XFER the input is the artifact that COMPRESS packed. -/
theorem compressDecompressRoundTrip : Obligations.CompressDecompressRoundTrip := by
  intro s a b hcaps hlens _ ha herr hb hberr
  obtain ⟨hinput, hstate⟩ := xfer_of_exec hb hberr
  rcases Nat.eq_zero_or_pos s.inLen with h0 | h0
  · cases (emptyInputIsNoError s h0).1.symm.trans ha
    have hb0 : b.inLen = 0 := by rw [hstate]; rfl
    have hempty : inputBytes s = [] := List.length_eq_zero_iff.mp ((inputBytes_length s).trans h0)
    exact ⟨_, (emptyInputIsNoError b hb0).2.1, fun _ => ⟨hberr, h0.symm, hempty.symm⟩,
      fun hover => absurd hover (by omega)⟩
  · obtain ⟨tree, ⟨hcontent, -⟩, hc⟩ := compressed_of_exec hcaps hlens h0 ha herr
    obtain ⟨hcbuf, hobuf⟩ : b.cbufBits = s.cbufBits ∧ b.obufBytes = s.obufBytes := by
      rw [hstate, hc.state]; exact ⟨rfl, rfl⟩
    obtain ⟨-, -, -, -, -, hmax⟩ := hcaps
    obtain ⟨c, hexec, hfits, hover⟩ := exec_decompress_artifact (hinput.trans hc.output)
      hc.holds.distinct (fun x hx => (hc.symbols x).mpr hx) (by omega) (hcontent.trans hcbuf.ge)
    rw [inputBytes_length, hobuf] at hfits hover
    rw [hberr] at hfits
    exact ⟨c, hexec, hfits, hover⟩

/-- The content of a sequence that is not empty is not empty (43_code_table_deriver.md R104). -/
theorem SymTree.encode_length_pos {t : SymTree} {b : Byte} {bs : List Byte} (hn : t.symbols.Nodup)
    (hb : b ∈ bs) (ht : b ∈ t.symbols) : 0 < (t.encode bs).length := by
  refine List.length_pos_iff.mpr fun hnil => ?_
  have hcode := (SymTree.code_length_pos hn b).mpr ht
  rw [List.flatMap_eq_nil_iff.mp hnil b hb] at hcode
  exact absurd hcode (Nat.lt_irrefl 0)

/-- UNPACK of an artifact less its last byte (47_container.md R130, R135): the length fields are as they
were, and the content is one byte short. -/
theorem unpackBody_artifact_dropLast {s : State} {header content : Bits}
    (hinput : inputBytes s = (artifact header content).dropLast) (h1 : 1 ≤ header.length)
    (h2 : header.length ≤ 2559) (hpos : 0 < content.length) (hl : content.length < 2 ^ 32) :
    unpackBody s = .error (.raise .truncatedContent) := by
  have hbytes : 0 < (packBits content).length := by rw [packBits_length, ceil8]; omega
  rw [artifact, List.dropLast_append_of_ne_nil (List.length_pos_iff.mp hbytes)] at hinput
  obtain ⟨hh, hn, hlen, -⟩ := fields_of_input hinput (by omega) hl
  rw [List.length_dropLast, packBits_length, packBits_length] at hlen
  rw [packBits_length] at hbytes
  rw [← hh] at h1 h2 hlen
  rw [← hn] at hlen hbytes
  exact unpackBody_truncated h1 h2 (by omega) (by omega)

/-- Settles O49: UNPACK finds the content of the artifact one byte short. -/
theorem truncatedArtifactIsDetected : Obligations.TruncatedArtifactIsDetected := by
  intro s a d hcaps hlens _ h0 ha herr hinput
  obtain ⟨tree, ⟨hcontent, -⟩, hc⟩ := compressed_of_exec hcaps hlens h0 ha herr
  obtain ⟨b, hb⟩ := List.exists_mem_of_length_pos ((inputBytes_length s).symm ▸ h0)
  obtain ⟨-, -, -, -, -, hmax⟩ := hcaps
  have hheader := tree.erase.header_length
  have hleaves := hc.holds.leaves
  rw [hc.output, artifactOf_eq] at hinput
  have hunpack := unpackBody_artifact_dropLast hinput (by omega) (by omega)
    (SymTree.encode_length_pos hc.holds.distinct hb ((hc.symbols b).mpr hb)) (by omega)
  exact ⟨_, exec_next_iff.mpr (.inr ⟨.truncatedContent, decompressBody_of_unpack_error hunpack, rfl⟩),
    rfl, rfl⟩

end Sys2Proof.Machine
end

section
/-!
The frames of PACK, UNPACK, COMPRESS and DECOMPRESS (47_container.md R129 to R132).
-/

namespace Sys2Proof.Machine

/-- PACK's frame: OUT_LEN, the bytes of the artifact in OBUF, and the registers of a command's end. -/
theorem exec_pack_frame {s t : State} (ht : exec .pack s = .next t) :
    t = { s with
      busy := t.busy, done := t.done, errCode := t.errCode, errOp := t.errOp, obuf := t.obuf
      outLen := t.outLen } ∧
    ∀ a, 6 + ceil8 s.hbits + ceil8 s.cbits ≤ a → obufAt t a = obufAt s a := by
  rcases exec_next_iff.mp ht with ⟨s1, hok, rfl⟩ | ⟨e, -, rfl⟩
  · obtain ⟨-, rfl⟩ := packBody_ok_iff.mp (guarded_eq_ok.mp hok).2
    refine ⟨rfl, fun a ha => bufGet_bufWrite_outside _ _ (.inr ?_)⟩
    rw [artifact_length, headerBits_length, contentBits_length, Nat.zero_add]
    exact ha
  · cases e <;> exact ⟨rfl, fun _ _ => rfl⟩

/-- UNPACK's frame: HDR below the field H, CBUF below the field N, their lengths, and the registers of a
command's end. -/
theorem exec_unpack_frame {s t : State} (ht : exec .unpack s = .next t) :
    t = { s with
      busy := t.busy, done := t.done, errCode := t.errCode, errOp := t.errOp, hdr := t.hdr
      cbuf := t.cbuf, hbits := t.hbits, cbits := t.cbits } ∧
    (∀ k, fieldH s ≤ k → hdrAt t k = hdrAt s k) ∧ ∀ k, fieldN s ≤ k → cbufAt t k = cbufAt s k := by
  rcases exec_next_iff.mp ht with ⟨s1, hok, rfl⟩ | ⟨e, -, rfl⟩
  · rcases unpackBody_cases hok with ⟨-, rfl⟩ | ⟨-, -, -, -, rfl⟩
    · exact ⟨rfl, fun _ _ => rfl, fun _ _ => rfl⟩
    · exact ⟨rfl, unpackFields_rest s (fieldH s) (fieldN s)⟩
  · exact ⟨rfl, fun _ _ => rfl, fun _ _ => rfl⟩

/-- What COMPRESS and DECOMPRESS can change: the session, NODE, the code table, HDR, CBUF, OBUF and their
lengths, and the registers of a command's end. -/
abbrev TopLevelFrame (s t : State) : Prop := t = { s with
  busy := t.busy, done := t.done, errCode := t.errCode, errOp := t.errOp, outLen := t.outLen
  total := t.total, nsym := t.nsym, root := t.root, nnodes := t.nnodes, hbits := t.hbits
  cbits := t.cbits, decCur := t.decCur, ftLock := t.ftLock, treeValid := t.treeValid
  ctValid := t.ctValid, freq := t.freq, node := t.node, codeLen := t.codeLen
  codeBits := t.codeBits, hdr := t.hdr, cbuf := t.cbuf, obuf := t.obuf, freeCtr := t.freeCtr }

/-- Every entry of OBUF, HDR, CBUF and NODE at or beyond the lengths of `t` is that of `s`. -/
abbrev BeyondLengthsKept (s t : State) : Prop :=
  (∀ a, t.outLen ≤ a → obufAt t a = obufAt s a) ∧ (∀ k, t.hbits ≤ k → hdrAt t k = hdrAt s k) ∧
    (∀ k, t.cbits ≤ k → cbufAt t k = cbufAt s k) ∧ ∀ k, t.nnodes ≤ k → nodeAt t k = nodeAt s k

/-- COMPRESS that ends, on any input. -/
theorem compressBody_topLevelFrame {s t : State} (h : compressBody s = .ok t) :
    TopLevelFrame s t ∧ t.freeCtr = s.freeCtr ∧ BeyondLengthsKept s t := by
  by_cases h0 : s.inLen = 0
  · rw [compressBody, if_pos h0] at h
    cases h
    exact ⟨rfl, rfl, fun _ _ => rfl, fun _ _ => rfl, fun _ _ => rfl, fun _ _ => rfl⟩
  · obtain ⟨hstate, hbeyond⟩ := compressBody_frame h0 h
    refine ⟨?_, by rw [hstate], hbeyond⟩
    rw [hstate]

/-- DECOMPRESS that ends. -/
theorem decompressBody_topLevelFrame {s t : State} (h : decompressBody s = .ok t) :
    TopLevelFrame s t ∧ (t.codeLen = s.codeLen ∧ t.codeBits = s.codeBits) ∧
      t.freeCtr = s.freeCtr ∧ BeyondLengthsKept s t := by
  obtain ⟨hstate, hbeyond⟩ := decompressBody_frame h
  refine ⟨?_, ?_, by rw [hstate], hbeyond⟩
  · rw [hstate]
  · rw [hstate]
    exact ⟨rfl, rfl⟩

/-- COMPRESS and DECOMPRESS, however they end. -/
theorem exec_topLevelFrame {i : Instr} {s t : State} (hi : i ∈ [Instr.compress, .decompress])
    (ht : exec i s = .next t) : TopLevelFrame s t ∧
      (i = .decompress → t.codeLen = s.codeLen ∧ t.codeBits = s.codeBits) ∧
      (t.errCode = 0#8 → t.freeCtr = s.freeCtr ∧ BeyondLengthsKept s t) := by
  rcases List.mem_pair.mp hi with rfl | rfl <;>
    rcases exec_next_iff.mp ht with ⟨s1, hok, rfl⟩ | ⟨e, -, rfl⟩
  · obtain ⟨hstate, hkept⟩ := compressBody_topLevelFrame hok
    exact ⟨congrArg complete hstate, nofun, fun _ => hkept⟩
  · rw [commandOnError, compressOnError_eq]
    exact ⟨rfl, nofun, fun herr => absurd herr (errCodeOf_raisable e).2⟩
  · obtain ⟨hstate, hcodes, hkept⟩ := decompressBody_topLevelFrame hok
    exact ⟨congrArg complete hstate, fun _ => hcodes, fun _ => hkept⟩
  · rw [commandOnError, decompressOnError_eq]
    exact ⟨rfl, fun _ => ⟨rfl, rfl⟩, fun herr => absurd herr (errCodeOf_raisable e).2⟩

/-- Settles O55: the frames of PACK and UNPACK, and the one COMPRESS and DECOMPRESS share. -/
theorem containerFrame : Obligations.ContainerFrame := by
  intro s t
  refine ⟨exec_pack_frame, exec_unpack_frame, fun i hi ht => ?_⟩
  obtain ⟨hstate, hcodes, hkept⟩ := exec_topLevelFrame hi ht
  have hibuf : t.ibuf = s.ibuf := by rw [hstate]
  refine ⟨?_, ?_, ?_, ?_, ?_, ?_, ?_, ?_, fun a => congrArg (bufGet Config.freeByte · a) hibuf, ?_, ?_,
    hcodes, fun _ => hkept⟩ <;> rw [hstate]

end Sys2Proof.Machine
end

section
/-!
Where the model is never stuck (60_exceptions.md R148): no command's pseudocode stops without a result in
a state that meets the invariants of 10_state.md R46, so that every turn answers but an inadmissible
host access.
-/

namespace Sys2Proof.Machine

/-! ### The bodies with a stuck case -/

/-- TB_BUILD once there is a count: the priority structure has an element (42_tree_builder.md R99). -/
theorem buildTree_not_stuck {s : State} (hs : CountsExact s) (h0 : 0 < s.total) (x : Fault) :
    buildTree s ≠ .error (.stuck x) := by
  obtain ⟨s1, hok, -⟩ := exec_tbBuild hs h0
  rw [hok]
  nofun

/-- CT_DERIVE on a tree: its walk ends (43_code_table_deriver.md R104). -/
theorem HoldsTree.deriveCodes_not_stuck {s : State} {tree : CodeTree} (h : HoldsTree s tree)
    (x : Fault) : deriveCodes s ≠ .error (.stuck x) := by
  have hcodes := treeCodes_of_tree h.arena h.leaves.2
  rw [h.root] at hcodes
  rw [deriveCodes_ok_iff.mpr ⟨_, hcodes, rfl⟩]
  nofun

/-- TS_SERIALIZE on a tree: its walk ends, and HDR holds the header (46_tree_serializer.md R122). -/
theorem HoldsTree.serializeTree_not_stuck {s : State} {tree : CodeTree} (h : HoldsTree s tree)
    (x : Fault) : serializeTree s ≠ .error (.stuck x) := by
  rw [h.serializeTree_eq]
  nofun

/-- COMPRESS within the capacities: it ends, or raises LIMIT (47_container.md R131). -/
theorem compressBody_not_stuck {s : State} (hl : s.inLen ≤ 2 ^ 32 - 1) (x : Fault) :
    compressBody s ≠ .error (.stuck x) := by
  rcases Nat.eq_zero_or_pos s.inLen with h0 | h0
  · rw [compressBody, if_pos h0]
    nofun
  · obtain ⟨-, -, -, ⟨-, t, hok, -⟩ | ⟨-, hlimit⟩⟩ := compressBody_cases h0 hl
    · rw [hok]
      nofun
    · rw [hlimit]
      nofun

/-! ### Every command -/

theorem xferBody_error {s : State} {e : Stop} (h : xferBody s = .error e) : e = .raise .limit := by
  unfold xferBody at h
  split at h <;> cases h
  rfl

/-- A command with a precondition is stuck only where its body is. -/
theorem guarded_not_stuck {c : Bool} {b : Body} {x : Fault} (h : c = true → b ≠ .error (.stuck x)) :
    guarded c b ≠ .error (.stuck x) := fun hb => by
  rcases guarded_eq_error.mp hb with ⟨-, hseq⟩ | ⟨hc, hstuck⟩
  · cases hseq
  · exact h hc hstuck

/-- Where the invariants hold, no command's pseudocode is stuck: TB_BUILD finds a count, CT_DERIVE and
TS_SERIALIZE find a tree, COMPRESS builds its own, and no other body has a stuck case. -/
theorem commandBody_not_stuck {s : State} (h : BlockOk s) (i : Instr) (x : Fault) :
    commandBody i s ≠ .error (.stuck x) := by
  cases i with
  | nop | softReset | clrErr | fcClear | encBegin => nofun
  | xfer => exact fun hb => nomatch xferBody_error hb
  | fcPush b => exact guarded_not_stuck fun _ hb => nomatch count1_error hb
  | fcScan => exact guarded_not_stuck fun _ hb => nomatch countAll_error hb
  | tbBuild =>
    exact guarded_not_stuck fun h0 =>
      buildTree_not_stuck h.counts (Nat.pos_of_ne_zero (bne_iff_ne.mp h0)) x
  | ctDerive =>
    refine guarded_not_stuck fun hv => ?_
    obtain ⟨-, tree, htree, -⟩ := h.tree hv
    exact htree.deriveCodes_not_stuck x
  | encPush b =>
    exact guarded_not_stuck fun _ hb => nomatch codeAll_error ((codeAll_singleton b s).trans hb)
  | encScan => exact guarded_not_stuck fun _ hb => nomatch codeAll_error hb
  | tsSerialize =>
    refine guarded_not_stuck fun hv => ?_
    obtain ⟨-, tree, htree, -⟩ := h.tree hv
    exact htree.serializeTree_not_stuck x
  | tsDeserialize => exact fun hb => nomatch deserializeTree_error hb
  | decBegin => exact guarded_not_stuck fun _ => nofun
  | decBit arg => exact guarded_not_stuck fun _ hb => nomatch (decStep_error hb).1
  | decEnd => exact guarded_not_stuck fun _ hb => nomatch endCheck_error hb
  | decRun => exact guarded_not_stuck fun _ hb => nomatch decRunBody_error hb
  | pack => exact guarded_not_stuck fun _ hb => nomatch (packBody_error hb).1
  | unpack => exact fun hb => nomatch unpackBody_error hb
  | compress => exact compressBody_not_stuck (inLen_le h.caps h.lengths) x
  | decompress => exact fun hb => nomatch decompressBody_error hb

/-- Every command answers where the invariants hold (60_exceptions.md R148). -/
theorem exec_answers {s : State} (h : BlockOk s) (i : Instr) : ∃ t, exec i s = .next t := by
  rw [exec_eq_runCommand]
  cases ht : runCommand s (commandBody i s) (commandOnError i) with
  | next t => exact ⟨t, rfl⟩
  | fault x => exact absurd (runCommand_fault_iff.mp ht) (commandBody_not_stuck h i x)
  | refused r => exact absurd ht runCommand_not_refused

/-! ### Every turn -/

/-- The engine's turn answers (40_control.md R83). -/
theorem engineTurn_answers {s : State} (h : Inv s) : ∃ t, engineTurn s = .next t := by
  cases hb : s.busy with
  | false => exact ⟨s, engineTurn_idle hb⟩
  | true =>
    cases hd : decode s.pend with
    | ok i =>
      rw [engineTurn_command hb hd]
      exact exec_answers h.block i
    | error e => exact ⟨_, engineTurn_illegal hb hd⟩

/-- Settles O59: the engine's turn answers from the invariants, polls and resets always answer, and a host
access answers or is refused as inadmissible. -/
theorem noCommandIsStuck : Obligations.NoCommandIsStuck := by
  intro s h
  have hrest : ∀ rest, Inv { s with agenda := rest } := fun rest => h.setBookkeeping rest _ _
  rw [step]
  split
  next => exact .inl (engineTurn_answers h)
  next rest _ => exact .inl (engineTurn_answers (hrest rest))
  next off n rest _ =>
    by_cases ha : inadmissible off n
    · exact .inr ⟨off, n, ha, hostRead_refused _ ha⟩
    · exact .inl ⟨_, hostRead_next _ ha⟩
  next off n v rest _ =>
    by_cases ha : inadmissible off n
    · exact .inr ⟨off, n, ha, hostWrite_refused v _ ha⟩
    · exact .inl ⟨_, hostWrite_next v _ ha⟩
  next n rest _ => exact .inl ⟨_, waitPoll_next n _⟩
  next rest _ => exact .inl ⟨_, rfl⟩

end Sys2Proof.Machine
end

section
/-!
SEQUENCE (60_exceptions.md R142): a command whose precondition fails raises it and has no other effect.
-/

namespace Sys2Proof.Machine

/-- A command whose check fails, where its "On error" entry names no change for SEQUENCE. -/
theorem exec_sequence {i : Instr} {s : State} (hb : commandBody i s = .error (.raise .sequence))
    (hk : commandOnError i .sequence s = s) : exec i s = .next (afterError 0x05#8 s) := by
  rw [exec_eq_runCommand, hb, runCommand_raise, hk, complete_errorEntry]
  rfl

/-- Settles O19: the check of each command that has one. -/
theorem sequenceErrors : Obligations.SequenceErrors := by
  intro s b arg
  refine ⟨fun hlock => ⟨?_, ?_⟩, fun htotal => ?_, fun htree => ?_, fun htable => ⟨?_, ?_⟩,
    fun hheader => ?_⟩
  · exact exec_sequence (by rw [commandBody, hlock, Bool.not_true, guarded_false]) rfl
  · exact exec_sequence (by rw [commandBody, hlock, Bool.not_true, guarded_false]) rfl
  · exact exec_sequence (by rw [commandBody, htotal, bne_self_eq_false, guarded_false]) rfl
  · simp only [List.forall_mem_cons]
    refine ⟨?_, ?_, ?_, ?_, ?_, ?_, fun i hi => absurd hi List.not_mem_nil⟩
    all_goals exact exec_sequence (by rw [commandBody, htree, guarded_false]) rfl
  · exact exec_sequence (by rw [commandBody, htable, guarded_false]) rfl
  · exact exec_sequence (by rw [commandBody, htable, guarded_false]) rfl
  · exact exec_sequence (by rw [commandBody, hheader, bne_self_eq_false, guarded_false]) rfl

end Sys2Proof.Machine
end

section
/-!
Hardware reset (70_reset_and_hazards.md R157) and the state after it (10_state.md R47).
-/

namespace Sys2Proof.Machine

/-- A turn in which the host asserts the reset input (20_memory.md R66). -/
theorem step_reset {s : State} {rest : List Event} (h : s.agenda = .reset :: rest) :
    step s = .next (hardReset { s with agenda := rest }) := by simp [step, h]

/-- Settles O16: the reset as one update; the seven arrays take the generations `freeCtr + 1` to
`freeCtr + 7`. -/
theorem hardwareReset : Obligations.HardwareReset := by
  intro s rest h
  refine ⟨_, step_reset h, ?_, ⟨rfl, rfl, rfl, rfl, rfl, rfl, rfl⟩, ?_⟩
  · rw [hardReset_eq]
  · simp only [List.forall_mem_cons, hardReset_node, hardReset_codeLen, hardReset_codeBits,
      hardReset_hdr, hardReset_cbuf, hardReset_ibuf, hardReset_obuf, hardReset_freeCtr]
    refine ⟨?_, ?_, ?_, ?_, ?_, ?_, ?_, fun g hg => absurd hg List.not_mem_nil⟩ <;> omega

/-- The lengths after reset are 0, and an unwritten CODE_LEN is a byte. -/
theorem resetWith_lengths (ib ob cb : Nat) : LengthsInRange (State.resetWith ib ob cb) :=
  ⟨Nat.zero_le _, Nat.zero_le _, Nat.zero_le _, Nat.zero_le _, Nat.zero_le _,
    Nat.zero_lt_succ _, Nat.zero_lt_succ _, fun x _ => freeCodeLen_le _ x⟩

/-- The reset state at legal capacities meets the invariants (10_state.md R47). -/
theorem resetWith_inv {ib ob cb : Nat} (h : CapsLegal (State.resetWith ib ob cb)) :
    Inv (State.resetWith ib ob cb) where
  caps := h
  lengths := resetWith_lengths ib ob cb
  arrays := resetWith_arrays ib ob cb
  counts := countsExact_of_empty rfl rfl rfl
  flags := ⟨nofun, nofun, fun _ => rfl⟩
  errors := errorsOk_of_cleared rfl rfl
  tree := treeOk_of_invalid rfl

/-- Of the bits of STATUS, DEC_AT_ROOT alone is set after reset: DEC_CUR and ROOT are both 0
(70_reset_and_hazards.md R158). -/
theorem resetWith_statusBits (ib ob cb : Nat) : statusBits (State.resetWith ib ob cb) =
    [false, false, false, false, false, false, false, false, true, false] := rfl

theorem resetWith_statusWord (ib ob cb : Nat) :
    statusWord (State.resetWith ib ob cb) = 0x100#32 := by
  rw [statusWord, resetWith_statusBits]
  decide

/-- Settles O17: the invariants and STATUS of the reset state, and the model's own capacities. -/
theorem resetMeetsTheInvariants : Obligations.ResetMeetsTheInvariants :=
  ⟨fun ib ob cb h => ⟨resetWith_inv h, resetWith_statusWord ib ob cb, rfl, rfl⟩, by decide⟩

end Sys2Proof.Machine
end

section
/-!
Host writes while a command is pending, and the writes without any effect (20_memory.md R50, R60).
-/

namespace Sys2Proof.Machine

/-- A register found at an offset is at that offset (20_memory.md R51). -/
theorem regOffset_of_regAt {off : Nat} {r : Reg} (h : regAt off = some r) : regOffset r = off := by
  rw [regAt] at h
  exact of_decide_eq_true (List.find?_some (p := fun r => decide (regOffset r = off)) h)

/-- A write to a register other than CMD, STATUS, IRQ_EN and IN_LEN has no effect (10_state.md). -/
theorem regWrite_readOnly {r : Reg} (hr : r ∉ [Reg.cmd, .status, .irqEn, .inLen]) (v : Word)
    (s : State) : regWrite r v s = s := by
  cases r
  case cmd | status | irqEn | inLen => exact absurd (by decide) hr
  all_goals rfl

/-- A write to CMD or IN_LEN while BUSY = 1 only sets OVR (60_exceptions.md R145). -/
theorem hostWrite_busy_reg {s : State} (v : Word) (hb : s.busy = true) {r : Reg}
    (hr : r ∈ [Reg.cmd, .inLen]) : hostWrite (regOffset r) 4 v s = .next { s with ovr := true } := by
  rw [hostWrite_reg]
  rcases List.mem_pair.mp hr with rfl | rfl
  · rw [regWrite, offerCommand, if_pos hb]
  · rw [regWrite, if_pos hb]

/-- A write to a byte of IBUF while BUSY = 1 only sets OVR (60_exceptions.md R145). -/
theorem hostWrite_busy_ibuf {s : State} (v : Word) (hb : s.busy = true) {off : Nat}
    (hlo : 0x1000000 ≤ off) (hcap : off < 0x1000000 + s.ibufBytes) (hhi : off ≤ 0x1FFFFFF) :
    hostWrite off 1 v s = .next { s with ovr := true } := by
  have hadm : ¬ inadmissible off 1 := by simp only [inadmissible, wordRegion, byteRegion]; omega
  rw [hostWrite_next v s hadm, busWrite, regionOf_ibuf hlo hhi]
  simp only
  rw [ibufWrite, if_pos (by omega), if_pos hb]

/-- The offsets of the IBUF region (20_memory.md R50). -/
theorem bounds_of_regionOf_ibuf {off : Nat} (h : regionOf off = .ibuf) :
    0x1000000 ≤ off ∧ off ≤ 0x1FFFFFF := by
  rcases regionOf_cases off with hk | hk | hk | hk | hk | hk | hk | hk | hk | hk
  case inr.inr.inr.inr.inr.inr.inl => exact hk.2
  all_goals
    rw [hk.1] at h
    cases h

/-- A write at any offset other than those of the four writable registers and of the bytes of IBUF
changes nothing (20_memory.md R50). -/
theorem busWrite_elsewhere {off : Nat} (v : Word) {s : State}
    (hreg : off ∉ [0x004, 0x008, 0x010, 0x014])
    (hibuf : ¬ (0x1000000 ≤ off ∧ off < 0x1000000 + s.ibufBytes ∧ off ≤ 0x1FFFFFF)) :
    busWrite off v s = s := by
  rw [busWrite]
  cases hk : regionOf off with
  | regs =>
    cases hr : regAt off with
    | none => rfl
    | some r =>
      refine regWrite_readOnly (fun hw => hreg ?_) v s
      rw [← regOffset_of_regAt hr]
      exact List.mem_map_of_mem (f := regOffset) hw
  | ibuf =>
    obtain ⟨hlo, hhi⟩ := bounds_of_regionOf_ibuf hk
    exact if_neg fun ha => hibuf ⟨hlo, by omega, hhi⟩
  | _ => rfl

/-- Settles O15: the four registers and IBUF while BUSY = 1, and everything else at any time. -/
theorem busyWrites : Obligations.BusyWrites := by
  intro s v
  refine ⟨fun hb => ⟨fun off n hoff => ?_, hostWrite_reg .irqEn v s, hostWrite_reg .status v s⟩,
    fun off n hadm hreg hibuf => ?_⟩
  · rcases hoff with ⟨rfl, rfl⟩ | ⟨rfl, rfl⟩ | ⟨rfl, hlo, hcap, hhi⟩
    · exact hostWrite_busy_reg v hb (r := .cmd) (by decide)
    · exact hostWrite_busy_reg v hb (r := .inLen) (by decide)
    · exact hostWrite_busy_ibuf v hb hlo hcap hhi
  · rw [hostWrite_next v s hadm, busWrite_elsewhere v hreg hibuf]

end Sys2Proof.Machine
end
